-- ==== Sys2Proof/Word.lean ====
section
/-! DEFINITION. The two word sizes of the Slot-store engine: a buffer byte (`20_memory.md` R50) and a
command word (`30_encoding.md` R85). -/

namespace Sys2Proof

/-- One unsigned byte: a cell of the Slot Buffer (R50), and the width of the operand latches (R24). -/
abbrev Byte := BitVec 8

/-- A 4-bit half of a byte: one slot in ENC4 (R82). -/
abbrev Nibble := BitVec 4

/-- One command word (R85). -/
abbrev Word := BitVec 32

end Sys2Proof
end

