-- ==== Sys2Proof/Config.lean ====
section
/-! DEFINITION. The construction parameters of an engine (`00_scope.md` R6 to R12) and the numbers
derived from them (R8, R10). No command, fault or step changes them (R21). -/

namespace Sys2Proof

/-- The slot encoding `ENC` (R6): one 8-bit slot in a byte, or two 4-bit slots in a byte. -/
inductive Enc where
  | enc8
  | enc4
  deriving DecidableEq, Repr

/-- What is fixed when the engine is constructed (R21). -/
structure Config where
  /-- `ENC`, R6. -/
  enc : Enc
  /-- `LEN`, the buffer length in bytes, any natural number, R7. -/
  len : Nat
  /-- `IW`, the width in bits of a slot index on the stream, R9. -/
  iw : Nat
  /-- `BUF_VALID`, R12. -/
  bufValid : Bool
  /-- `P`, the number of decay lanes, R11. No result depends on it (R168). -/
  lanes : Nat
  deriving DecidableEq, Repr

/-- `TMAX`, the largest tick value (R8). -/
def Config.tmax (c : Config) : Nat :=
  match c.enc with
  | .enc8 => 255
  | .enc4 => 15

/-- `M`, the ring size (R8). -/
def Config.ring (c : Config) : Nat := c.tmax + 1

/-- `W`, the width of a slot in bits (R8). -/
def Config.slotWidth (c : Config) : Nat :=
  match c.enc with
  | .enc8 => 8
  | .enc4 => 4

/-- How many slots one byte holds (R52, R53). -/
def Config.slotsPerByte (c : Config) : Nat :=
  match c.enc with
  | .enc8 => 1
  | .enc4 => 2

/-- `NSLOTS` (R8): `LEN` in ENC8, `2 × LEN` in ENC4. -/
def Config.nslots (c : Config) : Nat := c.slotsPerByte * c.len

/-- `CW`, the least width of at least one bit that holds `NSLOTS` (R10, `90_conflicts.md` C10). -/
def Config.cw (c : Config) : Nat := if c.nslots = 0 then 1 else Nat.log2 c.nslots + 1

/-- The `ENC` strap as the HOST reads it: `0` for ENC8 and `1` for ENC4 (R6). -/
def Enc.strap : Enc → BitVec 1
  | .enc8 => 0#1
  | .enc4 => 1#1

/-- DESIGN CHOICE, unsafe (log entry 1). The construction that `State.reset` stands for. The spec gives
`ENC` and `LEN` no default ("must be given"): the ENC8 engine of 8 bytes of the source's end-to-end
scenario is taken. `IW = 32` is the spec's default (R9); `BUF_VALID = true` is its value for an engine
with a private array (R12); one lane is the reference scanner (R160). -/
def Config.atReset : Config :=
  { enc := .enc8, len := 8, iw := 32, bufValid := true, lanes := 1 }

/-- A FREE VALUE (log entry 23): the beat that the endless stream number `stream` answers at `position`. The
spec bounds neither the length nor the contents of an INDEX SOURCE's sequence (R187, R191). Nothing in
Lean can evaluate it, so what holds of it holds of any endless stream. -/
opaque Config.endlessBeat (stream position : Nat) : Nat

end Sys2Proof
end

