-- ==== Sys2Proof/Syntax.lean ====
section
/-! DEFINITION. The command set (`00_scope.md` R2, `30_encoding.md` R87) and the beats of the index
stream (R90). -/

namespace Sys2Proof

/-- The three commands, one constructor for each row of the opcode table. Operands are the 8-bit fields
of the command word as they stand there (R88). -/
inductive Instr where
  /-- `ADD`: mark every slot of the index stream with `tick` (R130). -/
  | add (tick : Byte)
  /-- `CONTAINS`: is every slot of the index stream inside `(tickMin, tickMax]`? (R145) -/
  | contains (tickMin tickMax : Byte)
  /-- `DECAY`: clear every slot whose tick is outside `(tickMin, tickMax]` (R161, R162). -/
  | decay (tickMin tickMax : Byte)
  deriving DecidableEq, Repr

/-- One answer to `Pull()` (R16, R90). -/
inductive Beat where
  /-- `Item(i)`: the next slot index. -/
  | item (index : Nat)
  /-- `End`: the sequence is exhausted. -/
  | done
  /-- `Bad`: the source cannot produce the sequence. -/
  | bad
  deriving DecidableEq, Repr

/-- A beat as it stands on the index stream: a number of `IW + 2` bits (R90). DESIGN CHOICE (log entry 6):
a natural number, of which bits above `IW + 1` are not read. -/
abbrev BeatWord := Nat

end Sys2Proof
end

