-- ==== Sys2Proof/WellFormed.lean ====
section
/-! DEFINITION. What the platform, the HOST and the INDEX SOURCE have to keep (`44_sequencer.md` R192,
`70_reset_and_hazards.md` R232, R235, R237). A term that fails a check still has a meaning in the
machine: the fault the spec gives it, and for a construction the same rules (log entry 21). -/

namespace Sys2Proof

/-- A legal construction: the index stream can carry an index that is out of range (R9), and there is at
least one decay lane (R11). Every `LEN` is legal (R7). -/
def Config.wf (c : Config) : Bool := decide (c.nslots < 2 ^ c.iw) && decide (1 ≤ c.lanes)

/-- The operands the HOST has to keep to (R192, R235, R237): ticks and bounds in the ring, and no tick `0`
for ADD. -/
def Instr.wf (c : Config) : Instr → Bool
  | .add tick => tick != 0 && decide (tick.toNat ≤ c.tmax)
  | .contains tickMin tickMax => decide (tickMin.toNat ≤ c.tmax) && decide (tickMax.toNat ≤ c.tmax)
  | .decay tickMin tickMax => decide (tickMin.toNat ≤ c.tmax) && decide (tickMax.toNat ≤ c.tmax)

/-- A beat that the stream of an engine with index width `iw` can carry (R90). -/
def Beat.wf (iw : Nat) : Beat → Bool
  | .item i => decide (i < 2 ^ iw)
  | .done => true
  | .bad => true

/-- A number that fits the `IW + 2` bits of a beat (R90). -/
def BeatWord.wf (iw : Nat) (w : BeatWord) : Bool := decide (w < 2 ^ (iw + 2))

end Sys2Proof
end

