-- ==== Sys2Proof/Decode.lean ====
section
/-! DEFINITION. The command word (`30_encoding.md` R86 to R89) and the stream beat (R90, R91): their
decoders, total on every word, and their encoders. -/

namespace Sys2Proof

/-- Why a word is no command (R89 (a), (b), (c)). -/
inductive DecodeError where
  /-- R89 (a): a bit of the `ZERO` field, bits 31 to 18, is set. -/
  | zeroFieldSet
  /-- R89 (b): `OP` is `0b00`. -/
  | opReserved
  /-- R89 (c): `OP` is ADD and the `B` field is not `0`. -/
  | addOperandB
  deriving DecidableEq, Repr

/-- Field `A`, bits 7 to 0 (R86). -/
def fieldA (w : Word) : Byte := w.extractLsb' 0 8

/-- Field `B`, bits 15 to 8 (R86). -/
def fieldB (w : Word) : Byte := w.extractLsb' 8 8

/-- Field `OP`, bits 17 and 16 (R86). -/
def fieldOp (w : Word) : BitVec 2 := w.extractLsb' 16 2

/-- Field `ZERO`, bits 31 to 18 (R86). -/
def fieldZero (w : Word) : BitVec 14 := w.extractLsb' 18 14

/-- Decode, total on 32-bit words (R181): ADD, CONTAINS, DECAY or an illegal word (R87, R89). -/
def decode (w : Word) : Except DecodeError Instr :=
  if fieldZero w ≠ 0 then .error .zeroFieldSet
  else if fieldOp w = 0 then .error .opReserved
  else if fieldOp w = 1 then
    (if fieldB w ≠ 0 then .error .addOperandB else .ok (.add (fieldA w)))
  else if fieldOp w = 2 then .ok (.contains (fieldA w) (fieldB w))
  else .ok (.decay (fieldA w) (fieldB w))

/-- Format `C` (R86): `ZERO`, `OP`, `B`, `A`, the most significant first. -/
def formatC (op : BitVec 2) (b a : Byte) : Word := 0#14 ++ op ++ b ++ a

/-- The command word of an instruction (R86, R87, R95). -/
def encode : Instr → Word
  | .add tick => formatC 1 0 tick
  | .contains tickMin tickMax => formatC 2 tickMax tickMin
  | .decay tickMin tickMax => formatC 3 tickMax tickMin

/-- The instruction of a table row whose `nbits` bits are `w` (for the host): a command is one 32-bit
word (R85), so a longer number is none. -/
def decodeTableWord (nbits w : Nat) : Option Instr :=
  if w % 2 ^ nbits < 2 ^ 32 then
    match decode (BitVec.ofNat 32 (w % 2 ^ nbits)) with
    | .ok i => some i
    | .error _ => none
  else none

/-- `KIND`, the two bits above the index (R90). -/
def beatKind (iw : Nat) (w : BeatWord) : Nat := w / 2 ^ iw % 4

/-- `IDX`, the low `IW` bits (R90). -/
def beatIndex (iw : Nat) (w : BeatWord) : Nat := w % 2 ^ iw

/-- What `Pull()` returns for a beat (R90); the reserved kind `0b11` is `Bad` (R91). -/
def decodeBeat (iw : Nat) (w : BeatWord) : Beat :=
  if beatKind iw w = 0 then .item (beatIndex iw w)
  else if beatKind iw w = 1 then .done
  else .bad

/-- The beat of `IW + 2` bits that stands for an answer, `IDX = 0` where it is ignored (R90). -/
def encodeBeat (iw : Nat) : Beat → BeatWord
  | .item i => i
  | .done => 2 ^ iw
  | .bad => 2 * 2 ^ iw

end Sys2Proof
end

