-- ==== Sys2Proof/Machine/State.lean ====
section
/-! DEFINITION. The state of the engine and of its three channels, as plain data (`10_state.md`), and the
state after reset (R37). -/

namespace Sys2Proof.Machine

/-- `PHASE`: which command is executing, if any (R23). -/
inductive Phase where
  | idle
  | add
  | contains
  | decay
  deriving DecidableEq, Repr

/-- `RSP.STATUS` (R30, R200): no fault, or one of the two fault kinds. The code `3` is never produced
(R93), so it has no constructor (log entry 9). -/
inductive Status where
  | ok
  | invalidArgument
  | malformedInput
  deriving DecidableEq, Repr

/-- `RSP.CAUSE` (R30, R201). The code `7` is never produced, so it has no constructor (log entry 9). -/
inductive Cause where
  /-- No fault. -/
  | none
  /-- R202: the buffer is not a valid contiguous byte region. -/
  | iaBuffer
  /-- R203: a pulled index is out of range. -/
  | iaIndex
  /-- R204: ADD with tick `0`. -/
  | iaTickZero
  /-- R205: an operand above the ring, ENC4 only. -/
  | iaTickRange
  /-- R206: an illegal command word. -/
  | iaCommand
  /-- R207: a `BAD` beat or one of the reserved kind. -/
  | miStream
  deriving DecidableEq, Repr

/-- The response record `RSP` (R30). -/
structure Response where
  status : Status
  cause : Cause
  /-- `RSP.VALUE`, `CW` bits wide. -/
  value : Nat
  /-- `RSP.INFO`, `IW` bits wide. -/
  info : Nat
  deriving DecidableEq, Repr

/-- The reset value of `RSP`: every field `0` (R37). -/
def Response.zero : Response := { status := .ok, cause := .none, value := 0, info := 0 }

/-- How a stream goes on after the beats that are listed (R187): it may stop answering, or never end. -/
inductive Tail where
  /-- No answer comes any more: the next `Pull()` hangs (R187). -/
  | silent
  /-- An endless stream: these beats, the first and the rest, over and over. -/
  | cycle (first : BeatWord) (rest : List BeatWord)
  /-- An endless stream of which nothing is known: its beats from this position on are
  `Config.endlessBeat` (log entry 23). -/
  | free (stream position : Nat)
  deriving DecidableEq, Repr

/-- The INDEX SOURCE's side of the index stream of the command presented last (R33 (a), R184): not engine
state, but what the rules fix the engine's use of the stream by. -/
structure Source where
  /-- The beats the source will answer next, in order. -/
  beats : List BeatWord
  /-- What it answers after them (R187). -/
  tail : Tail
  /-- Whether the stream is open (R184). -/
  opened : Bool
  /-- How many `Pull()` calls of this stream were answered (R33 (a)). -/
  pulls : Nat
  /-- Whether the engine called `Close()` on this stream (R184). -/
  closed : Bool
  deriving DecidableEq, Repr

/-- No stream: the source's side at reset (R37). -/
def Source.none : Source := { beats := [], tail := .silent, opened := false, pulls := 0, closed := false }

/-- What the HOST does next (R192). A list of these is the model's input. -/
inductive HostEvent where
  /-- Present a command word, together with what the INDEX SOURCE will answer if its stream is opened. The
  HOST holds the word until the engine accepts it (R186). -/
  | command (word : Word) (beats : List BeatWord) (tail : Tail)
  /-- The reset event (R230). -/
  | reset
  /-- Present a command word, and reset the engine when it has taken this many engine steps of the
  command: a reset during a command (R230). -/
  | commandCut (word : Word) (beats : List BeatWord) (tail : Tail) (engineSteps : Nat)
  deriving DecidableEq, Repr

/-- The read-only straps `ENC`, `LEN` and `BUF_VALID` (R31). -/
structure Straps where
  enc : BitVec 1
  len : Nat
  bufValid : Bool
  deriving DecidableEq, Repr

/-- The Slot Buffer's bytes: (address, byte) pairs with rising addresses, none of them `0x00`, which is
what an unlisted address reads as (R37; log entry 7). -/
abbrev Memory := List Host.Cell

/-- The whole machine. -/
structure State where
  /-- The construction parameters and straps (R21, R31). DESIGN CHOICE, safe (log entry 2): carried here,
  where R21 makes them parameters of the step. No step changes them. -/
  cfg : Config
  /-- `BUF`, the Slot Buffer (R22). -/
  buf : Memory
  /-- `PHASE` (R23). -/
  phase : Phase
  /-- `A`, the first operand latch (R24). -/
  a : Byte
  /-- `B`, the second operand latch (R24). -/
  b : Byte
  /-- `ACC`, the count accumulator (R25), an unbounded natural (R10; log entry 10). -/
  acc : Nat
  /-- `SCAN`, the decay scan pointer (R26). -/
  scan : Nat
  /-- `RSP`, the response record (R30). -/
  rsp : Response
  /-- The index stream as the INDEX SOURCE sees it (R33 (a)). -/
  source : Source
  /-- The model's own: what the HOST will do, the next first. DESIGN CHOICE (log entries 3 and 19). -/
  host : List HostEvent
  /-- The model's own: every response delivered to the HOST, the oldest first (R84 (c), R185; log entry
  19). -/
  sent : List Response
  deriving DecidableEq, Repr

/-- Why the machine stops. -/
inductive Fault where
  /-- An access to a byte address outside `[0, LEN)`, which does not exist (R50). Raised by `memRead` and
  `memWrite`. DESIGN CHOICE, safe (log entry 8): no command makes such an access (R58), so no run meets
  it. -/
  | outsideBuffer (address : Nat)
  deriving DecidableEq, Repr

/-- Why an instruction has no meaning. -/
inductive Refusal where
  /-- An instruction whose arm of `exec` is not written yet. Raised by `exec` alone; no arm raises it in
  this model. Safe: a refused step claims nothing. -/
  | notModelled (mnemonic : String)
  deriving DecidableEq, Repr

/-- The state after an engine with configuration `c` is constructed and reset (R37, R230). -/
def State.resetWith (c : Config) : State :=
  { cfg := c, buf := [], phase := .idle, a := 0, b := 0, acc := 0, scan := 0, rsp := Response.zero,
    source := Source.none, host := [], sent := [] }

/-- The state after reset of the configuration `Config.atReset` (R37; the configuration is log entry 1). -/
def State.reset : State := State.resetWith Config.atReset

end Sys2Proof.Machine
end

