-- ==== Sys2Proof/Machine/Operands.lean ====
section
/-! DEFINITION. The bit-select, nibble-extract and nibble-pack units (`40_units.md` R110 to R112), and the
slot as a field of its byte (R52, R53). -/

namespace Sys2Proof.Machine

/-- The bit-select unit `Sel(i)` (R110): the byte address, and whether the slot is the high nibble. In ENC8
the whole byte is the slot and the select bit is not used. -/
def sel (c : Config) (i : Nat) : Nat × Bool :=
  match c.enc with
  | .enc8 => (i, true)
  | .enc4 => (i / 2, i % 2 == 0)

/-- The nibble-extract unit (R111). -/
def nibGet (b : Byte) (hi : Bool) : Nibble :=
  if hi then b.extractLsb' 4 4 else b.extractLsb' 0 4

/-- `Pack(h, l)`: a byte from two nibbles (R112). -/
def pack (h l : Nibble) : Byte := h ++ l

/-- The nibble-pack unit (R112): the selected nibble replaced, the other kept. -/
def nibPut (b : Byte) (hi : Bool) (v : Nibble) : Byte :=
  if hi then pack v (nibGet b false) else pack (nibGet b true) v

/-- The 4-bit tick of an 8-bit operand: bits 3 to 0 (R88). -/
def lowNibble (b : Byte) : Nibble := b.extractLsb' 0 4

/-- The value of the selected slot of a byte, zero-extended to 8 bits (R114, R119). -/
def slotGet (c : Config) (b : Byte) (hi : Bool) : Byte :=
  match c.enc with
  | .enc8 => b
  | .enc4 => (nibGet b hi).setWidth 8

/-- A byte with the selected slot set to `v` (R115). -/
def slotPut (c : Config) (b : Byte) (hi : Bool) (v : Byte) : Byte :=
  match c.enc with
  | .enc8 => v
  | .enc4 => nibPut b hi (lowNibble v)

/-- An operand as the comparator sees it: the whole field in ENC8 (R146), `[3:0]` zero-extended in ENC4
(R147, R119). -/
def windowBound (c : Config) (x : Byte) : Byte :=
  match c.enc with
  | .enc8 => x
  | .enc4 => (lowNibble x).setWidth 8

end Sys2Proof.Machine
end

