-- ==== Sys2Proof/Machine/Flags.lean ====
section
/-! DEFINITION. The combinational conditions (`10_state.md` R29): zero-detect, the ring-tick comparator, the
keep test and the range checks (`40_units.md` R113, R118, R119, R122 to R124). None is latched. -/

namespace Sys2Proof.Machine

/-- `zero(v)`: the slot is empty (R113). -/
def zero (v : Byte) : Bool := v == 0

/-- `live(v)`: the slot is occupied (R113). -/
def live (v : Byte) : Bool := !zero v

/-- `wrap`: the window crosses the ring boundary (R119). -/
def wrap (tmin tmax : Byte) : Bool := tmax.ult tmin

/-- `Fresh(v, tmin, tmax)`, the ring-tick comparator (R118), in the structure of R119: three unsigned
comparisons and a two-way select. Equal bounds do not wrap: the window is empty (`90_conflicts.md` C3). -/
def fresh (v tmin tmax : Byte) : Bool :=
  if wrap tmin tmax then tmin.ult v || v.ule tmax else tmin.ult v && v.ule tmax

/-- `Keep(v, tmin, tmax)` (R122): occupied, and the tick is inside the window. -/
def keep (v tmin tmax : Byte) : Bool := live v && fresh v tmin tmax

/-- `inrange(i)`: the index names a slot (R123). -/
def inRange (c : Config) (i : Nat) : Bool := decide (i < c.nslots)

/-- `TickInRing(t)` (R124). -/
def tickInRing (c : Config) (t : Byte) : Bool := decide (t.toNat ≤ c.tmax)

end Sys2Proof.Machine
end

