-- ==== Sys2Proof/Machine/Ops.lean ====
section
/-! DEFINITION. The named operations the commands are built from: the Slot Buffer (`20_memory.md`), the slot
view (`40_units.md` R114, R115), the index stream (`44_sequencer.md` R184), the response (R185), the
fault (`60_exceptions.md` R210) and reset (`70_reset_and_hazards.md` R230). -/

namespace Sys2Proof.Machine

/-! ### The Slot Buffer -/

/-- What a listed or unlisted address holds: an unlisted one reads `0x00`, the reset value (R37). -/
def Memory.read : Memory → Nat → Byte
  | [], _ => 0
  | (x, v) :: rest, a => if x = a then v else Memory.read rest a

/-- The memory without its entry for `a`. -/
def Memory.erase (m : Memory) (a : Nat) : Memory := m.filter fun c => c.1 != a

/-- The memory with `(a, v)` placed before the first greater address. -/
def Memory.insert : Memory → Nat → Byte → Memory
  | [], a, v => [(a, v)]
  | (x, w) :: rest, a, v =>
    if a < x then (a, v) :: (x, w) :: rest else (x, w) :: Memory.insert rest a v

/-- Set the byte at `a`, in canonical form: a byte `0x00` is not listed. -/
def Memory.write (m : Memory) (a : Nat) (v : Byte) : Memory :=
  if v = 0 then m.erase a else (m.erase a).insert a v

/-- The canonical form: addresses strictly rising, no `0x00` listed. -/
def Memory.wf : Memory → Bool
  | [] => true
  | (x, v) :: rest => v != 0 && rest.all (fun c => decide (x < c.1)) && Memory.wf rest

/-- `MemRead(a, 1)` (R15): one byte of the buffer; an address outside it does not exist (R50, R58). -/
def memRead (s : State) (a : Nat) : Except Fault Byte :=
  if a < s.cfg.len then .ok (s.buf.read a) else .error (.outsideBuffer a)

/-- `MemWrite(a, 1, v)` (R15). -/
def memWrite (s : State) (a : Nat) (v : Byte) : Except Fault State :=
  if a < s.cfg.len then .ok { s with buf := s.buf.write a v } else .error (.outsideBuffer a)

/-! ### The slot view -/

/-- The value of slot `i`, as the field of its byte (R52, R53): the view that claims are stated in. -/
def slotVal (s : State) (i : Nat) : Byte :=
  slotGet s.cfg (s.buf.read (sel s.cfg i).1) (sel s.cfg i).2

/-- `SlotRead(i)` (R114): one byte read, and in ENC4 a nibble extract. -/
def slotRead (s : State) (i : Nat) : Except Fault Byte :=
  match memRead s (sel s.cfg i).1 with
  | .error f => .error f
  | .ok b => .ok (slotGet s.cfg b (sel s.cfg i).2)

/-- `SlotWrite(i, v)` (R115): in ENC4 a read-modify-write of one byte (R56). -/
def slotWrite (s : State) (i : Nat) (v : Byte) : Except Fault State :=
  match memRead s (sel s.cfg i).1 with
  | .error f => .error f
  | .ok b => memWrite s (sel s.cfg i).1 (slotPut s.cfg b (sel s.cfg i).2 v)

/-! ### Acceptance and the index stream -/

/-- The INDEX SOURCE makes ready the sequence of the command now presented; it is not open yet (R184). -/
def present (beats : List BeatWord) (tail : Tail) (s : State) : State :=
  { s with source := { beats := beats, tail := tail, opened := false, pulls := 0, closed := false } }

/-- Acceptance (R180): latch the operand fields and clear `ACC` and `SCAN`. They keep what a command leaves
in them until the next acceptance (R24, R210; log entry 12). -/
def latch (a b : Byte) (s : State) : State := { s with a := a, b := b, acc := 0, scan := 0 }

/-- The pre-checks of ADD, orders 2 to 4 of R182: the cause of the first test that fails. -/
def tickDefect (c : Config) (tick : Byte) : Option Cause :=
  if c.bufValid = false then some .iaBuffer
  else if zero tick then some .iaTickZero
  else if tickInRing c tick = false then some .iaTickRange
  else none

/-- The pre-checks of a command with a window, orders 2, 4 and 5 of R182: the cause of the first test that
fails. `0` is a legal bound (R204). -/
def windowDefect (c : Config) (tickMin tickMax : Byte) : Option Cause :=
  if c.bufValid = false then some .iaBuffer
  else if tickInRing c tickMin = false then some .iaTickRange
  else if tickInRing c tickMax = false then some .iaTickRange
  else none

/-- Open the stream of a command that has passed its pre-checks (R183, R184): a new, single-pass use. -/
def openStream (p : Phase) (s : State) : State :=
  { s with phase := p, source := { s.source with opened := true, pulls := 0, closed := false } }

/-- The answer to the next `Pull()` of a stream, and what is left of the stream after it. `none`: no answer
comes (R187). -/
def nextAnswer : List BeatWord → Tail → Option (BeatWord × List BeatWord × Tail)
  | w :: rest, tail => some (w, rest, tail)
  | [], .silent => none
  | [], .cycle w rest => some (w, rest, .cycle w rest)
  | [], .free stream position =>
    some (Config.endlessBeat stream position, [], .free stream (position + 1))

/-- How many answers one step of the machine takes from an endless stream once the listed beats are used up
(log entry 5); a silent source has none. -/
def lap : Tail → Nat
  | .silent => 0
  | .cycle _ rest => rest.length + 1
  | .free _ _ => 1

/-- How many engine steps of ADD or CONTAINS one step of the machine runs: one for each listed beat, and a
stretch of what follows if the stream is endless (R187; log entry 5). -/
def burst (src : Source) : Nat := src.beats.length + lap src.tail

/-- `Pull()` (R16): the next beat of the open stream and the state after it. `none`: no answer has come and
the engine waits (R184, R187; log entry 3). -/
def pull (s : State) : Option (Beat × State) :=
  if s.source.opened then
    match nextAnswer s.source.beats s.source.tail with
    | none => none
    | some (w, rest, tail) =>
      some (decodeBeat s.cfg.iw w,
        { s with source :=
            { s.source with beats := rest, tail := tail, pulls := s.source.pulls + 1 } })
  else none

/-- The source has ended the sequence itself: no further `Pull()` and no `Close()` (R184 (a)). -/
def endStream (s : State) : State := { s with source := { s.source with opened := false } }

/-- `Close()` (R16), if a stream is open. -/
def close (s : State) : State :=
  { s with source :=
      { s.source with opened := false, closed := s.source.opened || s.source.closed } }

/-! ### The response, the fault, reset -/

/-- `Respond(status, cause, value, info)` (R16, R185): write all four fields of `RSP`, deliver the record,
and return to `IDLE`, as one step. -/
def respond (status : Status) (cause : Cause) (value info : Nat) (s : State) : State :=
  { s with
    rsp := { status := status, cause := cause, value := value, info := info }
    sent := s.sent ++ [{ status := status, cause := cause, value := value, info := info }]
    phase := .idle }

/-- The kind of a cause (R201). -/
def Cause.kind : Cause → Status
  | .none => .ok
  | .miStream => .malformedInput
  | .iaBuffer => .invalidArgument
  | .iaIndex => .invalidArgument
  | .iaTickZero => .invalidArgument
  | .iaTickRange => .invalidArgument
  | .iaCommand => .invalidArgument

/-- `raise K(c, info)`, the entry of every fault, with the kind the cause belongs to (R210, R201): close an
open stream, respond with value `0`, return to `IDLE`. Nothing else is saved or changed. There is no
return from a fault and nothing to restore (R213). -/
def raise (cause : Cause) (info : Nat) (s : State) : State :=
  respond cause.kind cause 0 info (close s)

/-- The reset event (R230): the reset state of the same configuration. The command in flight is abandoned
without a response, its stream is left without a `Close()`; what the INDEX SOURCE saw, the HOST's further
intentions and the responses already delivered are not engine state and stay. DEDUCED (log entry 14). -/
def hostReset (s : State) : State :=
  { State.resetWith s.cfg with
    source := { s.source with opened := false }, host := s.host, sent := s.sent }

/-! ### What the HOST reads -/

/-- The HOST reads the straps (R31, R192). -/
def readStraps (s : State) : Straps :=
  { enc := s.cfg.enc.strap, len := s.cfg.len, bufValid := s.cfg.bufValid }

/-- Whether the command channel accepts a command (R38). -/
def ready (s : State) : Bool := s.phase == .idle

/-- `STATUS` as its 2-bit code (R201). -/
def Status.code : Status → BitVec 2
  | .ok => 0
  | .invalidArgument => 1
  | .malformedInput => 2

/-- `CAUSE` as its 3-bit code (R201). -/
def Cause.code : Cause → BitVec 3
  | .none => 0
  | .iaBuffer => 1
  | .iaIndex => 2
  | .iaTickZero => 3
  | .iaTickRange => 4
  | .iaCommand => 5
  | .miStream => 6

/-- The response as a packed word, the least significant field first (R92). -/
def Response.packed (c : Config) (r : Response) : Nat :=
  r.status.code.toNat + 4 * r.cause.code.toNat + 2 ^ 5 * r.value + 2 ^ (c.cw + 5) * r.info

/-! ### Engine steps in a row -/

/-- One engine step and then the rest, if the machine goes on. -/
def andThen (o : Host.Outcome State Fault Refusal)
    (k : State → Host.Outcome State Fault Refusal) : Host.Outcome State Fault Refusal :=
  match o with
  | .next s => k s
  | .fault f => .fault f
  | .refused r => .refused r

/-- `n` engine steps in a row. -/
def stepN (f : State → Host.Outcome State Fault Refusal) : Nat → State →
    Host.Outcome State Fault Refusal
  | 0, s => .next s
  | n + 1, s => andThen (f s) (stepN f n)

/-- The next state of an outcome, if there is one. -/
def nextOf (o : Host.Outcome State Fault Refusal) : Option State :=
  match o with
  | .next s => some s
  | .fault _ => none
  | .refused _ => none

end Sys2Proof.Machine
end

