-- ==== Sys2Proof/Machine/Add.lean ====
section
/-! DEFINITION. ADD (`41_add.md`): its pre-checks, the step for one beat, and the whole command. -/

namespace Sys2Proof.Machine

/-- Acceptance and pre-checks of ADD (R130, R135, in the order of R182): the first defect faults, and
otherwise the stream is opened. -/
def acceptAdd (tick : Byte) (s : State) : State :=
  match tickDefect s.cfg tick with
  | some c => raise c 0 (latch tick 0 s)
  | none => openStream .add (latch tick 0 s)

/-- `if zero(old) : ACC <- ACC + 1` (R130). -/
def countEmpty (old : Byte) (s : State) : State :=
  if zero old then { s with acc := s.acc + 1 } else s

/-- The `Item(i)` step of ADD (R130, R131, R132): the previous value is read, counted, then overwritten,
whatever it was. An index out of range faults and makes no access (R203). -/
def addItem (i : Nat) (s : State) : Host.Outcome State Fault Refusal :=
  if inRange s.cfg i then
    match slotRead s i with
    | .error f => .fault f
    | .ok old =>
      match slotWrite s i s.a with
      | .error f => .fault f
      | .ok s' => .next (countEmpty old s')
  else .next (raise .iaIndex i s)

/-- One engine step of ADD: one `Pull()` and the action on its beat (R133, R183). Where no answer comes the
engine waits (R184). -/
def addStep (s : State) : Host.Outcome State Fault Refusal :=
  match s.phase with
  | .add =>
    match pull s with
    | none => .next s
    | some (.bad, s') => .next (raise .miStream 0 s')
    | some (.done, s') => .next (respond .ok .none s'.acc 0 (endStream s'))
    | some (.item i, s') => addItem i s'
  | _ => .next s

/-- ADD from where it stands to its response, or to the first `Pull()` that is not answered: one engine
step for each beat there is (R187). On an endless stream it may still run after this stretch (log entry
5). -/
def addFinish (s : State) : Host.Outcome State Fault Refusal :=
  stepN addStep (burst s.source) s

/-- ADD (R130). While another command runs the channel accepts nothing and the HOST holds the word
(R186; log entry 15). -/
def execAdd (tick : Byte) (s : State) : Host.Outcome State Fault Refusal :=
  if s.phase = .idle then addFinish (acceptAdd tick s) else .next s

end Sys2Proof.Machine
end

