-- ==== Sys2Proof/Machine/Contains.lean ====
section
/-! DEFINITION. CONTAINS (`42_contains.md`): its pre-checks, the step for one beat, and the whole command. -/

namespace Sys2Proof.Machine

/-- Acceptance and pre-checks of CONTAINS (R145, R150, in the order of R182). -/
def acceptContains (tickMin tickMax : Byte) (s : State) : State :=
  match windowDefect s.cfg tickMin tickMax with
  | some c => raise c 0 (latch tickMin tickMax s)
  | none => openStream .contains (latch tickMin tickMax s)

/-- The `Item(i)` step of CONTAINS (R145, R146, R147): a slot that is empty or outside the window ends the
command with `false` and closes the stream (R149); otherwise nothing changes. -/
def containsItem (i : Nat) (s : State) : Host.Outcome State Fault Refusal :=
  if inRange s.cfg i then
    match slotRead s i with
    | .error f => .fault f
    | .ok v =>
      if keep v (windowBound s.cfg s.a) (windowBound s.cfg s.b) then .next s
      else .next (respond .ok .none 0 0 (close s))
  else .next (raise .iaIndex i s)

/-- One engine step of CONTAINS: one `Pull()` and the action on its beat (R149, R183). -/
def containsStep (s : State) : Host.Outcome State Fault Refusal :=
  match s.phase with
  | .contains =>
    match pull s with
    | none => .next s
    | some (.bad, s') => .next (raise .miStream 0 s')
    | some (.done, s') => .next (respond .ok .none 1 0 (endStream s'))
    | some (.item i, s') => containsItem i s'
  | _ => .next s

/-- CONTAINS from where it stands to its response, or to the first `Pull()` that is not answered (R187). On
an endless stream it may still run after this stretch (log entry 5). -/
def containsFinish (s : State) : Host.Outcome State Fault Refusal :=
  stepN containsStep (burst s.source) s

/-- CONTAINS (R145). While another command runs the channel accepts nothing (R186; log entry 15). -/
def execContains (tickMin tickMax : Byte) (s : State) : Host.Outcome State Fault Refusal :=
  if s.phase = .idle then containsFinish (acceptContains tickMin tickMax s) else .next s

end Sys2Proof.Machine
end

