-- ==== Sys2Proof/Machine/Decay.lean ====
section
/-! DEFINITION. DECAY and the bulk decay scanner (`43_decay.md`): the byte step, the reference scanner, the
whole command, and the scanner with several lanes. -/

namespace Sys2Proof.Machine

/-- Start the scanner (R183); `SCAN` and `ACC` were cleared at acceptance (R180). -/
def startScan (s : State) : State := { s with phase := .decay }

/-- Acceptance and pre-checks of DECAY (R161, R162, R165, in the order of R182). DECAY opens no stream. -/
def acceptDecay (tickMin tickMax : Byte) (s : State) : State :=
  match windowDefect s.cfg tickMin tickMax with
  | some c => raise c 0 (latch tickMin tickMax s)
  | none => startScan (latch tickMin tickMax s)

/-- One slot after the test: kept, or cleared to the sentinel (R122, R166). -/
def decaySlot (lo hi v : Byte) : Byte := if keep v lo hi then v else 0

/-- The byte after the byte step: R163 in ENC8; in ENC4 both nibbles, each decided on its own (R164). -/
def decayByte (c : Config) (a b : Byte) (v : Byte) : Byte :=
  let lo := windowBound c a
  let hi := windowBound c b
  match c.enc with
  | .enc8 => decaySlot lo hi v
  | .enc4 =>
    pack (lowNibble (decaySlot lo hi ((nibGet v true).setWidth 8)))
      (lowNibble (decaySlot lo hi ((nibGet v false).setWidth 8)))

/-- How many slots of a byte are occupied (R163, R164: 0 or 1 in ENC8, 0 to 2 in ENC4). -/
def liveInByte (c : Config) (v : Byte) : Nat :=
  match c.enc with
  | .enc8 => if live v then 1 else 0
  | .enc4 => (if nibGet v true = 0 then 0 else 1) + (if nibGet v false = 0 then 0 else 1)

/-- The byte step at one address (R163, R164): the byte is read once, written only if it changes (log
entry 16), and its live slots are added to the count. -/
def byteStep (address : Nat) (s : State) : Host.Outcome State Fault Refusal :=
  match memRead s address with
  | .error f => .fault f
  | .ok v =>
    let v' := decayByte s.cfg s.a s.b v
    if v' = v then .next { s with acc := s.acc + liveInByte s.cfg v' }
    else
      match memWrite s address v' with
      | .error f => .fault f
      | .ok s' => .next { s' with acc := s'.acc + liveInByte s.cfg v' }

/-- `SCAN <- SCAN + 1` (R160). -/
def advanceScan (s : State) : State := { s with scan := s.scan + 1 }

/-- One engine step of DECAY (R183): the byte step at `SCAN` while a byte remains, else the response. The
scanner is the reference scanner of R160; every partition and order agrees with it (R168; log entry
13). -/
def decayStep (s : State) : Host.Outcome State Fault Refusal :=
  match s.phase with
  | .decay =>
    if s.scan < s.cfg.len then andThen (byteStep s.scan s) (fun s' => .next (advanceScan s'))
    else .next (respond .ok .none s.acc 0 s)
  | _ => .next s

/-- DECAY from where it stands to its response: the bytes that remain, then the response (R187). -/
def decayFinish (s : State) : Host.Outcome State Fault Refusal :=
  stepN decayStep (s.cfg.len - s.scan + 1) s

/-- DECAY (R161, R162). While another command runs the channel accepts nothing (R186; log entry 15). -/
def execDecay (tickMin tickMax : Byte) (s : State) : Host.Outcome State Fault Refusal :=
  if s.phase = .idle then decayFinish (acceptDecay tickMin tickMax s) else .next s

/-! ### The scanner with lanes (R160, R220) -/

/-- One lane: the byte step at each of its addresses, in its own order, with a count of its own that starts
at `0`. The state carries the buffer from lane to lane; its `ACC` is the lane's count. -/
def laneScan : List Nat → State → Host.Outcome State Fault Refusal
  | [], s => .next s
  | address :: rest, s => andThen (byteStep address s) (laneScan rest)

/-- Every lane in turn, `ACC` growing by each lane's own count: "results combined by simple addition of the
per-range live counts" (R160). -/
def lanesScan : List (List Nat) → State → Host.Outcome State Fault Refusal
  | [], s => .next s
  | lane :: rest, s =>
    andThen (laneScan lane { s with acc := 0 })
      (fun s' => lanesScan rest { s' with acc := s.acc + s'.acc })

/-- The lanes interleaved in any order: a schedule of byte steps, each with the number of the lane that takes
it. `counts` holds the lanes' own counts, and `ACC` is their sum at the end (R160, R168; log entry 13). -/
def interleavedScan : List (Nat × Nat) → List Nat → State → Host.Outcome State Fault Refusal
  | [], counts, s => .next { s with acc := counts.sum }
  | (lane, address) :: rest, counts, s =>
    andThen (byteStep address { s with acc := counts.getD lane 0 })
      (fun s' => interleavedScan rest (counts.set lane s'.acc) s')

end Sys2Proof.Machine
end

