-- ==== Sys2Proof/Machine/Sequencer.lean ====
section
/-! DEFINITION. The command sequencer (`44_sequencer.md`): the engine step of the phase the engine is in
(R183), a command carried on from where it stands, and a command that a reset cuts short (R230). -/

namespace Sys2Proof.Machine

/-- One step of the engine in its present phase: the transition table of R183. In `IDLE` it does
nothing. -/
def engineStep (s : State) : Host.Outcome State Fault Refusal :=
  match s.phase with
  | .idle => .next s
  | .add => addStep s
  | .contains => containsStep s
  | .decay => decayStep s

/-- The running command carried on: to its response, to the first `Pull()` that is not answered, or, on an
endless stream, by one more stretch of it. -/
def continueCommand (s : State) : Host.Outcome State Fault Refusal :=
  match s.phase with
  | .idle => .next s
  | .add => addFinish s
  | .contains => containsFinish s
  | .decay => decayFinish s

/-- An illegal word (R89, R206): accepted and latched as every word is (R180), then the fault IA_COMMAND.
No stream is opened and no buffer byte is touched. DEDUCED (log entry 11): the latches are written. -/
def illegalWord (w : Word) (s : State) : State :=
  raise .iaCommand 0 (latch (fieldA w) (fieldB w) s)

/-- Acceptance and pre-checks alone (R180, R182): the state in which a command's own steps begin. -/
def acceptInstr (i : Instr) (s : State) : State :=
  match i with
  | .add tick => acceptAdd tick s
  | .contains tickMin tickMax => acceptContains tickMin tickMax s
  | .decay tickMin tickMax => acceptDecay tickMin tickMax s

/-- Acceptance of a word, whether it is a command or illegal. -/
def acceptWord (w : Word) (s : State) : State :=
  match decode w with
  | .ok i => acceptInstr i s
  | .error _ => illegalWord w s

/-- A command cut short (R230): accepted, carried on for `n` engine steps, then the reset event. -/
def cutCommand (w : Word) (n : Nat) (s : State) : Host.Outcome State Fault Refusal :=
  andThen (stepN engineStep n (acceptWord w s)) (fun s' => .next (hostReset s'))

end Sys2Proof.Machine
end

