-- ==== Sys2Proof/Machine/Dispatch.lean ====
section
/-! DEFINITION. The meaning of every command: one arm for each constructor of `Instr`. -/

namespace Sys2Proof.Machine

def exec (i : Instr) (s : State) : Host.Outcome State Fault Refusal :=
  match i with
  | .add tick => Sys2Proof.Machine.execAdd tick s
  | .contains tickMin tickMax => Sys2Proof.Machine.execContains tickMin tickMax s
  | .decay tickMin tickMax => Sys2Proof.Machine.execDecay tickMin tickMax s

end Sys2Proof.Machine
end

