-- ==== Sys2Proof/Machine/Fetch.lean ====
section
/-! DEFINITION. Where the next command comes from (`44_sequencer.md` R180, R186, R192): the HOST's list of
events takes the place of a program counter, which the engine does not have (R28). -/

namespace Sys2Proof.Machine

/-- The HOST's event is taken off its list. -/
def dropEvent (s : State) : State := { s with host := s.host.tail }

/-- An accepted word runs (R181): the meaning of the instruction it decodes to, or the fault of an illegal
word. -/
def runWord (w : Word) (s : State) : Host.Outcome State Fault Refusal :=
  match decode w with
  | .ok i => exec i s
  | .error _ => .next (illegalWord w s)

/-- One step of the machine. A reset takes effect in any phase (R230). A word is accepted in `IDLE` alone
(R186); in any other phase the HOST goes on holding it and the running command goes on. With no event left
an idle engine stays as it is (R191), a waiting one waits, and one on an endless stream goes on (R187). -/
def machineStep (s : State) : Host.Outcome State Fault Refusal :=
  match s.host with
  | [] => continueCommand s
  | .reset :: _ => .next (hostReset (dropEvent s))
  | .command w beats tail :: _ =>
    if s.phase = .idle then runWord w (present beats tail (dropEvent s)) else continueCommand s
  | .commandCut w beats tail n :: _ =>
    if s.phase = .idle then cutCommand w n (present beats tail (dropEvent s)) else continueCommand s

/-- The HOST will present this word next, with an empty index sequence (a lone `END` beat, R90), to an
engine that is free to accept it. -/
def offerWord (w : Word) (s : State) : State :=
  { s with phase := .idle, host := .command w [encodeBeat s.cfg.iw .done] .silent :: s.host }

end Sys2Proof.Machine
end

