-- ==== Sys2Proof/Machine/Step.lean ====
section
/-! DEFINITION. The step of the machine, and where its next instruction is put. -/

namespace Sys2Proof.Machine

/-- One step of the machine: the next command of the HOST, from acceptance to its response. DESIGN CHOICE,
safe (log entry 5): a step is a whole command, or a stretch of it where its stream is endless; `engineStep`
is the spec's own smaller step (R20, R183). -/
def step (s : State) : Host.Outcome State Fault Refusal := machineStep s

/-- `s` with the instruction whose `nbits` bits are `w` as the word the HOST presents next (log entry 4). -/
def State.withFetchWord (s : State) (nbits w : Nat) : State :=
  offerWord (BitVec.ofNat 32 (w % 2 ^ nbits)) s

end Sys2Proof.Machine
end

