-- ==== Sys2Proof/Safety.lean ====
section
/-! DEFINITION. The words claims about the machine are stated in: streams, counts, responses, the engine's
invariant, where a stored tick came from, and when two engines hold the same slots. -/

namespace Sys2Proof.Machine

/-! ### Streams and counts -/

/-- The `ITEM` beats of a list of indexes (R95). -/
def items (c : Config) (is : List Nat) : List BeatWord := is.map fun i => encodeBeat c.iw (.item i)

/-- The `END` beat (R90). -/
def endBeat (c : Config) : BeatWord := encodeBeat c.iw .done

/-- The indexes a stream can carry (R9) that name a slot (R123). -/
def AllInRange (c : Config) (is : List Nat) : Prop := ∀ i ∈ is, i < c.nslots ∧ i < 2 ^ c.iw

/-- How many slots are occupied: the live count of R140 and R166. -/
def liveCount (s : State) : Nat := (List.range s.cfg.nslots).countP fun i => live (slotVal s i)

/-- How many distinct slots of a list of indexes are empty: what ADD counts (R134). -/
def emptyAmong (s : State) (is : List Nat) : Nat :=
  (List.range s.cfg.nslots).countP fun i => decide (i ∈ is) && zero (slotVal s i)

/-- The answer to `Pull()` number `n` (the first is number `0`) of a stream that goes on as `beats` and
`tail` say (R184, R187). -/
def answerAt : List BeatWord → Tail → Nat → Option BeatWord
  | beats, tail, 0 => (nextAnswer beats tail).map fun answer => answer.1
  | beats, tail, n + 1 =>
    match nextAnswer beats tail with
    | none => none
    | some (_, rest, tail') => answerAt rest tail' n

/-- How many of the first `n` answers of a stream are `ITEM` beats (R90, R137). -/
def itemBeats (c : Config) (beats : List BeatWord) (tail : Tail) (n : Nat) : Nat :=
  (List.range n).countP fun k => ((answerAt beats tail k).map (beatKind c.iw)) == some 0

/-- An endless stream of items in range: every `Pull()` is answered, with an index that names a slot
(R187). -/
def EndlessItems (c : Config) (beats : List BeatWord) (tail : Tail) : Prop :=
  ∀ k, ∃ w i, answerAt beats tail k = some w ∧ decodeBeat c.iw w = .item i ∧ i < c.nslots

/-! ### Responses -/

/-- A successful response (R93). -/
def okResponse (value : Nat) : Response := { status := .ok, cause := .none, value := value, info := 0 }

/-- A fault's response: value `0` whatever had been counted (R93, R210). -/
def faultResponse (c : Cause) (info : Nat) : Response :=
  { status := c.kind, cause := c, value := 0, info := info }

/-- What every response record satisfies (R93, R200, R201): the status is the kind of the cause, the fields
fit their widths, a fault has value `0`, and only IA_INDEX has information. -/
structure Response.Legal (c : Config) (r : Response) : Prop where
  kind : r.status = r.cause.kind
  value : r.value < 2 ^ c.cw
  info : r.info < 2 ^ c.iw
  faultValue : r.cause ≠ .none → r.value = 0
  noInfo : r.cause ≠ .iaIndex → r.info = 0

/-! ### Pre-checks -/

/-- The `A` field of a command (R86). -/
def operandA : Instr → Byte
  | .add tick => tick
  | .contains tickMin _ => tickMin
  | .decay tickMin _ => tickMin

/-- The `B` field of a command (R86); `0` for ADD. -/
def operandB : Instr → Byte
  | .add _ => 0
  | .contains _ tickMax => tickMax
  | .decay _ tickMax => tickMax

/-- The phase in which a command runs (R23, R183). -/
def commandPhase : Instr → Phase
  | .add _ => .add
  | .contains _ _ => .contains
  | .decay _ _ => .decay

/-- Orders 2 to 5 of the pre-check table of R182: the cause of the first test that fails. -/
def firstDefect (c : Config) (i : Instr) : Option Cause :=
  if c.bufValid = false then some .iaBuffer
  else
    match i with
    | .add tick =>
      if tick = 0 then some .iaTickZero
      else if c.tmax < tick.toNat then some .iaTickRange else none
    | .contains tickMin tickMax =>
      if c.tmax < tickMin.toNat ∨ c.tmax < tickMax.toNat then some .iaTickRange else none
    | .decay tickMin tickMax =>
      if c.tmax < tickMin.toNat ∨ c.tmax < tickMax.toNat then some .iaTickRange else none

/-- The illegal words of R89, in the word's own bits. -/
def IllegalWord (w : Word) : Prop :=
  w.toNat / 2 ^ 18 ≠ 0 ∨ w.toNat / 2 ^ 16 % 4 = 0 ∨
    (w.toNat / 2 ^ 16 % 4 = 1 ∧ w.toNat / 2 ^ 8 % 2 ^ 8 ≠ 0)

/-! ### The engine's invariant -/

/-- What holds between the steps of an engine (`10_state.md` R24 to R26, R36, R184). -/
structure Inv (s : State) : Prop where
  /-- The construction is legal (R9, R11). -/
  config : s.cfg.wf = true
  /-- The memory is in its canonical form. -/
  canonical : s.buf.wf = true
  /-- No byte outside `[0, LEN)` is listed (R50, R58). -/
  inBuffer : ∀ c ∈ s.buf, c.1 < s.cfg.len
  /-- `ACC` never exceeds `NSLOTS` (R25). -/
  accBound : s.acc ≤ s.cfg.nslots
  /-- `SCAN` lies in `[0, LEN]` (R26). -/
  scanBound : s.scan ≤ s.cfg.len
  /-- A command that runs has passed its pre-checks (R24, R182). -/
  checked : s.phase ≠ .idle →
    s.cfg.bufValid = true ∧ s.a.toNat ≤ s.cfg.tmax ∧ s.b.toNat ≤ s.cfg.tmax
  /-- ADD carries a tick, and every slot it counted is occupied (R35, R137). -/
  adding : s.phase = .add → s.a ≠ 0 ∧ s.acc ≤ liveCount s
  /-- DECAY has counted no more than the slots it has passed (R167). -/
  scanning : s.phase = .decay → s.acc ≤ s.cfg.slotsPerByte * s.scan
  /-- A stream is open exactly while ADD or CONTAINS runs (R184). -/
  stream : s.source.opened = true ↔ s.phase = .add ∨ s.phase = .contains
  /-- `RSP` is a response the engine produces (R93). -/
  response : s.rsp.Legal s.cfg
  /-- So is every response delivered. -/
  delivered : ∀ r ∈ s.sent, r.Legal s.cfg

/-! ### Where a tick came from (R34) -/

/-- The machine after construction with configuration `c`, the HOST having these events in mind. -/
def boot (c : Config) (h : List HostEvent) : State := { State.resetWith c with host := h }

/-- Some ADD command among the events `past` carried tick `v`, and its stream contained `Item(i)` (R34). -/
def MarkedBy (c : Config) (past : List HostEvent) (i : Nat) (v : Byte) : Prop :=
  ∃ w beats tail, HostEvent.command w beats tail ∈ past ∧ decode w = .ok (.add v) ∧
    ∃ k bw, answerAt beats tail k = some bw ∧ decodeBeat c.iw bw = .item i

/-- What holds of the engine after the HOST's events `past` have been taken: every slot is empty or holds a
tick that an ADD command among them carried for that slot. While an ADD runs it is one of them, and what its
source still answers is the rest of that command's stream. -/
structure MarkedSince (past : List HostEvent) (s : State) : Prop where
  slots : ∀ i < s.cfg.nslots, slotVal s i = 0 ∨ MarkedBy s.cfg past i (slotVal s i)
  adding : s.phase = .add → s.a.toNat ≤ s.cfg.tmax ∧
    ∃ w beats tail n, HostEvent.command w beats tail ∈ past ∧ decode w = .ok (.add s.a) ∧
      ∀ k, answerAt s.source.beats s.source.tail k = answerAt beats tail (n + k)

/-- Invariant I1 (R34), for an engine whose HOST set out with the events `h`: those no longer on the HOST's
list have been taken, and they alone account for the slots. -/
def Traced (h : List HostEvent) (s : State) : Prop :=
  ∃ past, h = past ++ s.host ∧ MarkedSince past s

/-! ### Two encodings, one store (R190) -/

/-- An ENC8 and an ENC4 engine with equally many slots, equal slots, and the same observable state. Only
`SCAN` and the memory layout may differ. -/
structure SameStore (e8 e4 : State) : Prop where
  enc8 : e8.cfg.enc = .enc8
  enc4 : e4.cfg.enc = .enc4
  len : e8.cfg.len = 2 * e4.cfg.len
  iw : e8.cfg.iw = e4.cfg.iw
  bufValid : e8.cfg.bufValid = e4.cfg.bufValid
  slots : ∀ i < e8.cfg.nslots, slotVal e8 i = slotVal e4 i
  phase : e8.phase = e4.phase
  notScanning : e8.phase ≠ .decay
  a : e8.a = e4.a
  b : e8.b = e4.b
  inRing : e8.phase ≠ .idle → e8.a.toNat ≤ 15 ∧ e8.b.toNat ≤ 15
  acc : e8.acc = e4.acc
  rsp : e8.rsp = e4.rsp
  source : e8.source = e4.source
  host : e8.host = e4.host
  sent : e8.sent = e4.sent

/-- An event of a run that R190 speaks of: a reset, or a word whose operands lie in `[0, 15]` if it is a
command. A reset during a command is left out: R190 compares whole commands. -/
def HostEvent.narrow : HostEvent → Bool
  | .command w _ _ =>
    match decode w with
    | .ok i => decide ((operandA i).toNat ≤ 15) && decide ((operandB i).toNat ≤ 15)
    | .error _ => true
  | .reset => true
  | .commandCut _ _ _ _ => false

end Sys2Proof.Machine
end

