-- ==== Sys2Proof/Certificates/Slice0/Obligations.lean ====
section
/-! DEFINITION. The statements about the Slot-store engine, in the words of `Sys2Proof/Safety.lean`. -/

open Sys2Proof Sys2Proof.Machine

/-! ### Encodings -/

/-- The decoder reads back every instruction from its command word (`30_encoding.md` R86 to R88), directly
and as the host numbers a table word. -/
def Obligations.EncodeThenDecodeIsIdentity : Prop :=
  ∀ i : Instr, decode (encode i) = .ok i ∧ decodeTableWord 32 (encode i).toNat = some i

/-- The decoder accepts exactly the words that the match and mask values of R87 select, and reads the
operand fields of R88 from them. -/
def Obligations.DecodeAcceptsExactlyTheMaskedWords : Prop :=
  ∀ w : Word,
    (∀ tick, decode w = .ok (.add tick) ↔
      w &&& 0xFFFFFF00#32 = 0x00010000#32 ∧ tick.toNat = w.toNat % 256) ∧
    (∀ lo hi, decode w = .ok (.contains lo hi) ↔
      w &&& 0xFFFF0000#32 = 0x00020000#32 ∧ lo.toNat = w.toNat % 256 ∧ hi.toNat = w.toNat / 256 % 256) ∧
    (∀ lo hi, decode w = .ok (.decay lo hi) ↔
      w &&& 0xFFFF0000#32 = 0x00030000#32 ∧ lo.toNat = w.toNat % 256 ∧ hi.toNat = w.toNat / 256 % 256)

/-- A word is rejected exactly when R89 calls it illegal, and every command has one word. -/
def Obligations.DecodeRejectsExactlyTheIllegalWords : Prop :=
  ∀ w : Word, (IllegalWord w ↔ ∀ i, decode w ≠ .ok i) ∧ ∀ i, decode w = .ok i → w = encode i

/-- Some words written out by hand from R86 and the command vectors of `95_test_vectors.md` 3.1. -/
def Obligations.SampleWordsDecode : Prop :=
  decode 0x00010005#32 = .ok (.add 5) ∧ decode 0x000203FA#32 = .ok (.contains 250 3) ∧
    decode 0x00030A06#32 = .ok (.decay 6 10) ∧ decode 0x00000000#32 = .error .opReserved ∧
    decode 0x00010105#32 = .error .addOperandB ∧ decode 0x80020A00#32 = .error .zeroFieldSet

/-- The four beat kinds of R90, the reserved one read as `BAD` (R91), and every beat read back from its
encoding. -/
def Obligations.BeatFieldsDecode : Prop :=
  (∀ iw kind idx, kind < 4 → idx < 2 ^ iw →
    decodeBeat iw (kind * 2 ^ iw + idx) =
      if kind = 0 then .item idx else if kind = 1 then .done else .bad) ∧
  (∀ iw (b : Beat), b.wf iw = true →
    decodeBeat iw (encodeBeat iw b) = b ∧ BeatWord.wf iw (encodeBeat iw b) = true)

/-- The four fields of a response stand in the packed word where R92 puts them. -/
def Obligations.PackedResponseHoldsItsFields : Prop :=
  ∀ (c : Config) (r : Response), r.value < 2 ^ c.cw → r.info < 2 ^ c.iw →
    r.packed c % 2 ^ 2 = r.status.code.toNat ∧ r.packed c / 2 ^ 2 % 2 ^ 3 = r.cause.code.toNat ∧
    r.packed c / 2 ^ 5 % 2 ^ c.cw = r.value ∧ r.packed c / 2 ^ (c.cw + 5) % 2 ^ c.iw = r.info ∧
    r.packed c < 2 ^ (c.cw + c.iw + 5)

/-- The table of R201: the code of every cause and of every status, and the kind of every cause. -/
def Obligations.StatusAndCauseCodes : Prop :=
  (Status.ok.code = 0#2 ∧ Status.invalidArgument.code = 1#2 ∧ Status.malformedInput.code = 2#2) ∧
  (Cause.none.code = 0#3 ∧ Cause.none.kind = .ok) ∧
  (Cause.iaBuffer.code = 1#3 ∧ Cause.iaBuffer.kind = .invalidArgument) ∧
  (Cause.iaIndex.code = 2#3 ∧ Cause.iaIndex.kind = .invalidArgument) ∧
  (Cause.iaTickZero.code = 3#3 ∧ Cause.iaTickZero.kind = .invalidArgument) ∧
  (Cause.iaTickRange.code = 4#3 ∧ Cause.iaTickRange.kind = .invalidArgument) ∧
  (Cause.iaCommand.code = 5#3 ∧ Cause.iaCommand.kind = .invalidArgument) ∧
  (Cause.miStream.code = 6#3 ∧ Cause.miStream.kind = .malformedInput)

/-! ### Functional units -/

/-- The bit-select unit is a bijection between the slots and the bytes (ENC8) or the halves of the bytes
(ENC4) of the buffer (R110). -/
def Obligations.SelIsABijection : Prop :=
  ∀ c : Config,
    (∀ i, i < c.nslots → (sel c i).1 < c.len) ∧
    (∀ i j, sel c i = sel c j → i = j) ∧
    (c.enc = .enc8 → ∀ addr, addr < c.len → ∃ i, i < c.nslots ∧ (sel c i).1 = addr) ∧
    (c.enc = .enc4 → ∀ addr hi, addr < c.len → ∃ i, i < c.nslots ∧ sel c i = (addr, hi))

/-- Where each slot lies, and what it holds as a number of its byte (R52 to R54, R110): in ENC8 slot `i` is
byte `i`; in ENC4 it is the high half of byte `i / 2` if `i` is even and the low half if `i` is odd. A slot
write puts the value there and leaves the rest of the byte (R112, R115). -/
def Obligations.SlotsLieInTheirBytes : Prop :=
  ∀ (s : State) (i : Nat) (v : Byte), i < s.cfg.nslots →
    ∃ t, slotRead s i = .ok (slotVal s i) ∧ slotWrite s i v = .ok t ∧
      (s.cfg.enc = .enc8 →
        s.cfg.nslots = s.cfg.len ∧ (sel s.cfg i).1 = i ∧ slotVal s i = s.buf.read i ∧
          t.buf.read i = v) ∧
      (s.cfg.enc = .enc4 →
        s.cfg.nslots = 2 * s.cfg.len ∧ sel s.cfg i = (i / 2, decide (i % 2 = 0)) ∧
          (i % 2 = 0 → (slotVal s i).toNat = (s.buf.read (i / 2)).toNat / 16 ∧
            (t.buf.read (i / 2)).toNat = 16 * (v.toNat % 16) + (s.buf.read (i / 2)).toNat % 16) ∧
          (i % 2 = 1 → (slotVal s i).toNat = (s.buf.read (i / 2)).toNat % 16 ∧
            (t.buf.read (i / 2)).toNat = 16 * ((s.buf.read (i / 2)).toNat / 16) + v.toNat % 16))

/-- After a slot write the slot reads as what was written (R117). -/
def Obligations.SlotReadAfterSlotWrite : Prop :=
  ∀ (s : State) (i : Nat) (v : Byte), i < s.cfg.nslots → v.toNat ≤ s.cfg.tmax →
    ∃ t, slotWrite s i v = .ok t ∧ slotRead t i = .ok v

/-- A slot write changes no other slot, and no byte but the one its slot lies in (R116). -/
def Obligations.SlotWriteKeepsEveryOtherSlot : Prop :=
  ∀ (s : State) (i : Nat) (v : Byte), i < s.cfg.nslots →
    ∃ t, slotWrite s i v = .ok t ∧ (∀ j, j ≠ i → slotRead t j = slotRead s j) ∧
      (∀ addr, addr ≠ (sel s.cfg i).1 → t.buf.read addr = s.buf.read addr) ∧
      t = { s with buf := t.buf }

/-- An access to a byte address outside `[0, LEN)` is a fault, and to no other. R50 says that no other address
exists; that an access there is a fault of the model is the model's choice (log entry 8). -/
def Obligations.OnlyBufferAddressesExist : Prop :=
  ∀ (s : State) (a : Nat) (v : Byte),
    (memRead s a = .error (.outsideBuffer a) ↔ s.cfg.len ≤ a) ∧
    (memWrite s a v = .error (.outsideBuffer a) ↔ s.cfg.len ≤ a)

/-- The ring-tick comparator, window by window (R118). -/
def Obligations.FreshFollowsTheWindow : Prop :=
  ∀ v lo hi : Byte,
    (lo.toNat < hi.toNat → (fresh v lo hi = true ↔ lo.toNat < v.toNat ∧ v.toNat ≤ hi.toNat)) ∧
    (hi.toNat < lo.toNat → (fresh v lo hi = true ↔ lo.toNat < v.toNat ∨ v.toNat ≤ hi.toNat)) ∧
    (hi.toNat = lo.toNat → (fresh v lo hi = true ↔ lo.toNat < v.toNat ∧ v.toNat ≤ hi.toNat) ∧
      fresh v lo hi = false)

/-- The comparator is one modular inequality, in the ring of either encoding (R121). -/
def Obligations.FreshIsOneModularInequality : Prop :=
  ∀ (c : Config) (v lo hi : Byte),
    v.toNat ≤ c.tmax → lo.toNat ≤ c.tmax → hi.toNat ≤ c.tmax →
    (fresh v lo hi = true ↔
      ((v.toNat : Int) - lo.toNat - 1) % (c.ring : Int) < ((hi.toNat : Int) - lo.toNat) % (c.ring : Int))

/-- The bounds of a window (R120): the comparator is the same in both encodings; the lower bound is outside;
the upper bound is inside unless the bounds are equal; equal bounds admit nothing; the value `0` is inside
exactly when the window wraps. -/
def Obligations.FreshAtItsBounds : Prop :=
  ∀ (c c' : Config) (v lo hi : Byte),
    lo.toNat ≤ c.tmax → hi.toNat ≤ c.tmax → lo.toNat ≤ c'.tmax → hi.toNat ≤ c'.tmax →
    fresh v (windowBound c lo) (windowBound c hi) =
      fresh v (windowBound c' lo) (windowBound c' hi) ∧
    fresh lo (windowBound c lo) (windowBound c hi) = false ∧
    (lo ≠ hi → fresh hi (windowBound c lo) (windowBound c hi) = true) ∧
    (lo = hi → fresh v (windowBound c lo) (windowBound c hi) = false) ∧
    (fresh 0 (windowBound c lo) (windowBound c hi) = true ↔ hi.toNat < lo.toNat)

/-- How many ring values, and how many ticks, a window admits; it admits the value `0` exactly when it
wraps; only `(0, TMAX]` admits every tick (R126). -/
def Obligations.WindowAdmitsItsSize : Prop :=
  ∀ (c : Config) (lo hi : Byte), lo.toNat ≤ c.tmax → hi.toNat ≤ c.tmax →
    (((List.range c.ring).countP fun v => fresh (BitVec.ofNat 8 v) lo hi : Nat) : Int) =
      ((hi.toNat : Int) - lo.toNat) % (c.ring : Int) ∧
    ((List.range c.ring).countP fun v => keep (BitVec.ofNat 8 v) lo hi) =
      (if hi.toNat < lo.toNat then c.ring - lo.toNat + hi.toNat - 1 else hi.toNat - lo.toNat) ∧
    (fresh 0 lo hi = true ↔ hi.toNat < lo.toNat) ∧
    ((∀ v : Byte, v ≠ 0 → v.toNat ≤ c.tmax → keep v lo hi = true) ↔
      lo.toNat = 0 ∧ hi.toNat = c.tmax)

/-! ### Reset -/

/-- The reset value of every piece of state, for every configuration (R37). -/
def Obligations.ResetLeavesTheStoreEmpty : Prop :=
  ∀ c : Config,
    (State.resetWith c).cfg = c ∧ (∀ a, (State.resetWith c).buf.read a = 0) ∧
    (∀ i, slotVal (State.resetWith c) i = 0) ∧ (State.resetWith c).phase = .idle ∧
    (State.resetWith c).a = 0 ∧ (State.resetWith c).b = 0 ∧ (State.resetWith c).acc = 0 ∧
    (State.resetWith c).scan = 0 ∧
    (State.resetWith c).rsp = { status := .ok, cause := .none, value := 0, info := 0 } ∧
    (State.resetWith c).source.opened = false

/-- Right after reset the invariant of `StepKeepsTheInvariant` holds, for every legal construction, and so
for `State.reset`, whose configuration is the model's choice (log entry 1). -/
def Obligations.ResetSatisfiesTheInvariant : Prop :=
  (∀ c : Config, c.wf = true → Inv (State.resetWith c)) ∧ Inv State.reset

/-- The reset event abandons whatever runs: an empty store, no response, no `Close()` (R230). -/
def Obligations.ResetEventAbandonsTheCommand : Prop :=
  ∀ (s : State) (rest : List HostEvent), s.host = .reset :: rest →
    step s = .next { State.resetWith s.cfg with
      host := rest, sent := s.sent, source := { s.source with opened := false } }

/-- A reset after any number of engine steps of a command leaves the reset state; at most the response of
a command that had already ended has been delivered (R230). The engine steps a command has taken when the
reset comes are the model's input (log entry 3). -/
def Obligations.ResetDuringACommand : Prop :=
  ∀ (s : State) (w : Word) (beats : List BeatWord) (tail : Tail) (n : Nat) (rest : List HostEvent),
    s.phase = .idle → s.host = .commandCut w beats tail n :: rest →
    ∃ u, stepN engineStep n (acceptWord w (present beats tail { s with host := rest })) = .next u ∧
      step s = .next { State.resetWith s.cfg with
        host := rest, sent := u.sent, source := { u.source with opened := false } } ∧
      (u.phase = .idle → ∃ r, u.sent = s.sent ++ [r]) ∧ (u.phase ≠ .idle → u.sent = s.sent)

/-! ### The machine -/

/-- Every step keeps the invariant (R24 to R26, R36, R93, R184). -/
def Obligations.StepKeepsTheInvariant : Prop :=
  ∀ s t : State, Inv s → step s = .next t → Inv t

/-- From every state the machine goes on: no step reads or writes a byte address outside the buffer (R58),
which would be the model's one fault (log entry 8), and no instruction is refused. -/
def Obligations.NoStepLeavesTheBuffer : Prop :=
  (∀ s : State, ∃ t, step s = .next t) ∧ ∀ (i : Instr) (s : State), ∃ t, exec i s = .next t

/-- No step changes the construction parameters or what the HOST reads from the straps, which is `ENC` as
one bit, `LEN` and `BUF_VALID` (R21, R31, R6). -/
def Obligations.NoStepChangesTheConfiguration : Prop :=
  ∀ s t : State, step s = .next t → t.cfg = s.cfg ∧ readStraps t = readStraps s ∧
    readStraps s = { enc := if s.cfg.enc = .enc8 then 0 else 1, len := s.cfg.len,
                     bufValid := s.cfg.bufValid }

/-- The step of an idle engine runs the instruction that the presented word decodes to: the word is taken
from the HOST and its stream made ready, and nothing else happens around it (R180, R181). The second part
says the same of the word that `withFetchWord` places (log entry 4). -/
def Obligations.StepRunsTheDecodedInstruction : Prop :=
  (∀ (s : State) (w : Word) (beats : List BeatWord) (tail : Tail) (rest : List HostEvent) (i : Instr),
    s.phase = .idle → s.host = .command w beats tail :: rest → decode w = .ok i →
    step s = exec i { s with
      host := rest
      source := { beats := beats, tail := tail, opened := false, pulls := 0, closed := false } }) ∧
  (∀ (s : State) (w : Nat) (i : Instr), decodeTableWord 32 w = some i →
    step (s.withFetchWord 32 w) = exec i { s with
      phase := .idle
      source :=
        { beats := [endBeat s.cfg], tail := .silent, opened := false, pulls := 0, closed := false } })

/-- An illegal word ends at once with IA_COMMAND: no beat is pulled, nothing is closed, no buffer byte is
touched (R206). That it writes the latches and clears `ACC` and `SCAN` like any accepted word is log entry 11
(R180; R211 can be read otherwise). The HOST's list is log entry 3. -/
def Obligations.IllegalWordFaultsAtOnce : Prop :=
  ∀ (s : State) (w : Word) (beats : List BeatWord) (tail : Tail) (rest : List HostEvent),
    s.phase = .idle → s.host = .command w beats tail :: rest → IllegalWord w →
    step s = .next { s with
      a := fieldA w, b := fieldB w, acc := 0, scan := 0, host := rest
      rsp := faultResponse .iaCommand 0, sent := s.sent ++ [faultResponse .iaCommand 0]
      source := { beats := beats, tail := tail, opened := false, pulls := 0, closed := false } }

/-- While the command channel accepts nothing, that is while a command runs, an instruction has no effect,
and the HOST goes on holding its word (R186, R38). The HOST's list is the model's (log entry 3). -/
def Obligations.BusyEngineAcceptsNothing : Prop :=
  ∀ s : State, ready s = false →
    s.phase ≠ .idle ∧ (∀ i, exec i s = .next s) ∧
    ((∀ rest, s.host ≠ .reset :: rest) → ∀ t, step s = .next t → t.host = s.host)

/-- Every accepted word ends with exactly one response and an idle engine; or its command has pulled every
beat listed and waits for a `Pull()` that is never answered; or it still runs on an endless stream, a stretch
of which (`lap`, log entry 5) it has pulled (R185, R187). -/
def Obligations.OneResponseForEachAcceptedWord : Prop :=
  ∀ (s : State) (w : Word) (beats : List BeatWord) (tail : Tail) (rest : List HostEvent),
    s.phase = .idle → s.host = .command w beats tail :: rest →
    ∃ t, step s = .next t ∧ t.host = rest ∧
      ((t.phase = .idle ∧ t.sent = s.sent ++ [t.rsp]) ∨
        ((t.phase = .add ∨ t.phase = .contains) ∧ t.sent = s.sent ∧ t.rsp = s.rsp ∧
          t.source.opened = true ∧ t.source.pulls = beats.length + lap tail ∧
          (tail = .silent → t.source.beats = [] ∧ t.source.tail = .silent)))

/-- The transition table of `PHASE`, from every running phase, with the whole state after each step (R183). The
stream answers with `w`; `p` is the state after that pull. What an ended command leaves in `A`, `B`, `ACC` and
`SCAN` is log entry 12. -/
def Obligations.RunningPhaseTransitions : Prop :=
  ∀ s : State,
    (∀ w rest tail, s.source.opened = true →
      nextAnswer s.source.beats s.source.tail = some (w, rest, tail) →
      let p := { s with source :=
        { s.source with beats := rest, tail := tail, pulls := s.source.pulls + 1 } }
      (∀ i, s.phase = .add → decodeBeat s.cfg.iw w = .item i → i < s.cfg.nslots →
        ∃ t, slotWrite p i s.a = .ok t ∧
          engineStep s = .next { t with acc := s.acc + if slotVal s i = 0 then 1 else 0 }) ∧
      (s.phase = .add → decodeBeat s.cfg.iw w = .done →
        engineStep s = .next { p with
          phase := .idle, rsp := okResponse s.acc, sent := s.sent ++ [okResponse s.acc]
          source := { p.source with opened := false } }) ∧
      (∀ i, s.phase = .contains → decodeBeat s.cfg.iw w = .item i → i < s.cfg.nslots →
        keep (slotVal s i) (windowBound s.cfg s.a) (windowBound s.cfg s.b) = true →
        engineStep s = .next p) ∧
      (∀ i, s.phase = .contains → decodeBeat s.cfg.iw w = .item i → i < s.cfg.nslots →
        keep (slotVal s i) (windowBound s.cfg s.a) (windowBound s.cfg s.b) = false →
        engineStep s = .next { p with
          phase := .idle, rsp := okResponse 0, sent := s.sent ++ [okResponse 0]
          source := { p.source with opened := false, closed := true } }) ∧
      (s.phase = .contains → decodeBeat s.cfg.iw w = .done →
        engineStep s = .next { p with
          phase := .idle, rsp := okResponse 1, sent := s.sent ++ [okResponse 1]
          source := { p.source with opened := false } }) ∧
      (∀ c info, s.phase = .add ∨ s.phase = .contains →
        (decodeBeat s.cfg.iw w = .bad ∧ c = .miStream ∧ info = 0) ∨
          (decodeBeat s.cfg.iw w = .item info ∧ s.cfg.nslots ≤ info ∧ c = .iaIndex) →
        engineStep s = .next { p with
          phase := .idle, rsp := faultResponse c info, sent := s.sent ++ [faultResponse c info]
          source := { p.source with opened := false, closed := true } })) ∧
    (s.phase = .decay → s.scan < s.cfg.len →
      ∃ t, byteStep s.scan s = .next t ∧ t.phase = .decay ∧ t.scan = s.scan ∧ t.sent = s.sent ∧
        engineStep s = .next { t with scan := s.scan + 1 }) ∧
    (s.phase = .decay → s.cfg.len ≤ s.scan →
      engineStep s = .next { s with
        phase := .idle, rsp := okResponse s.acc, sent := s.sent ++ [okResponse s.acc] })

/-- The whole meaning of an instruction is its acceptance followed by single engine steps: at most one for
each beat of a stream, `LEN` byte steps and the response for DECAY; if the stream falls silent, further steps
change nothing. A command that still runs goes on in the same way. That an endless stream is taken in
stretches is the model's choice (R187; log entry 5). -/
def Obligations.InstructionIsItsEngineSteps : Prop :=
  (∀ s : State, s.phase = .idle →
    (∀ tick, exec (.add tick) s =
      stepN engineStep (s.source.beats.length + lap s.source.tail) (acceptInstr (.add tick) s)) ∧
    (∀ lo hi, exec (.contains lo hi) s =
      stepN engineStep (s.source.beats.length + lap s.source.tail) (acceptInstr (.contains lo hi) s)) ∧
    (∀ lo hi, exec (.decay lo hi) s = stepN engineStep (s.cfg.len + 1) (acceptInstr (.decay lo hi) s)) ∧
    (∀ i n, s.source.tail = .silent → s.source.beats.length ≤ n → s.cfg.len + 1 ≤ n →
      exec i s = stepN engineStep n (acceptInstr i s))) ∧
  (∀ s : State, (∀ rest, s.host ≠ .reset :: rest) →
    (s.phase = .add ∨ s.phase = .contains →
      step s = stepN engineStep (s.source.beats.length + lap s.source.tail) s) ∧
    (s.phase = .decay → step s = stepN engineStep (s.cfg.len - s.scan + 1) s))

/-- The fault entry: close an open stream, respond with the cause and its kind and value `0`, return to
`IDLE`, and change nothing else (R210). -/
def Obligations.RaiseIsTheFaultEntry : Prop :=
  ∀ (c : Cause) (info : Nat) (s : State),
    raise c info s = { s with
      rsp := { status := c.kind, cause := c, value := 0, info := info }
      sent := s.sent ++ [{ status := c.kind, cause := c, value := 0, info := info }]
      phase := .idle
      source := if s.source.opened then { s.source with opened := false, closed := true }
                else s.source }

/-- A command that fails a pre-check reports the first test that fails, in the order of R182, changes no
buffer byte, pulls no beat and opens no stream; one that fails none enters its own phase, with its stream
opened if it has one (R180, R183). That the latches are written and `ACC` and `SCAN` cleared although a
pre-check fails is log entry 11: R211 can be read otherwise. -/
def Obligations.PreChecksInTheirOrder : Prop :=
  ∀ (i : Instr) (s : State), s.phase = .idle → s.source.opened = false →
    (∀ c, firstDefect s.cfg i = some c →
      exec i s = .next { s with
        a := operandA i, b := operandB i, acc := 0, scan := 0
        rsp := faultResponse c 0, sent := s.sent ++ [faultResponse c 0] }) ∧
    (firstDefect s.cfg i = none →
      (∀ tick, i = .add tick → acceptInstr i s = { s with
        phase := .add, a := tick, b := 0, acc := 0, scan := 0
        source := { s.source with opened := true, pulls := 0, closed := false } }) ∧
      (∀ lo hi, i = .contains lo hi → acceptInstr i s = { s with
        phase := .contains, a := lo, b := hi, acc := 0, scan := 0
        source := { s.source with opened := true, pulls := 0, closed := false } }) ∧
      (∀ lo hi, i = .decay lo hi → acceptInstr i s = { s with
        phase := .decay, a := lo, b := hi, acc := 0, scan := 0 }))

/-- A fault leaves no trace but `BUF`: the next command does the same whatever the latches, the counters,
the response record, the responses delivered before it and the HOST's further intentions were (R213,
R185). What it leaves in the latches and counters itself is log entry 12. -/
def Obligations.NextCommandIgnoresStaleRegisters : Prop :=
  ∀ (i : Instr) (s u s' : State), s.phase = .idle → u.phase = .idle →
    u.cfg = s.cfg → u.buf = s.buf → u.source = s.source →
    exec i s = .next s' →
    ∃ u', exec i u = .next u' ∧ u'.buf = s'.buf ∧ u'.phase = s'.phase ∧ u'.a = s'.a ∧ u'.b = s'.b ∧
      u'.acc = s'.acc ∧ u'.scan = s'.scan ∧ u'.source = s'.source ∧
      u'.host = u.host ∧ s'.host = s.host ∧ (s'.phase = .idle → u'.rsp = s'.rsp) ∧
      (∃ new, s'.sent = s.sent ++ new ∧ u'.sent = u.sent ++ new)

/-- While a stream delivers items that pass and then no answer, the command waits: no response, and no
further step changes anything until the HOST acts (R187). -/
def Obligations.UnansweredPullWaits : Prop :=
  ∀ (s : State) (is : List Nat), s.phase = .idle → s.cfg.bufValid = true →
    AllInRange s.cfg is → s.source.beats = items s.cfg is → s.source.tail = .silent → s.host = [] →
    (∀ tick, (Instr.add tick).wf s.cfg = true →
      ∃ t, exec (.add tick) s = .next t ∧ t.phase = .add ∧ t.sent = s.sent ∧ step t = .next t) ∧
    (∀ lo hi, (Instr.contains lo hi).wf s.cfg = true →
      (∀ i ∈ is, keep (slotVal s i) lo hi = true) →
      ∃ t, exec (.contains lo hi) s = .next t ∧ t.phase = .contains ∧ t.sent = s.sent ∧
        step t = .next t)

/-- ADD on an endless stream of items in range never ends: however many steps the machine takes, the command
still runs, has delivered no response, and has pulled at least one beat for each step (R187). -/
def Obligations.AddOnAnEndlessStreamNeverEnds : Prop :=
  ∀ (s : State) (tick : Byte), s.phase = .idle → s.cfg.bufValid = true →
    (Instr.add tick).wf s.cfg = true → EndlessItems s.cfg s.source.beats s.source.tail → s.host = [] →
    ∃ t, exec (.add tick) s = .next t ∧
      ∀ n, ∃ u, stepN step n t = .next u ∧ u.phase = .add ∧ u.sent = s.sent ∧ u.rsp = s.rsp ∧
        u.source.opened = true ∧ n < u.source.pulls

/-- CONTAINS on an endless stream of items in range ends exactly if some item fails, and then with the
verdict false and a `Close()`; until then it delivers nothing (R187, R149). -/
def Obligations.ContainsOnAnEndlessStream : Prop :=
  ∀ (s : State) (lo hi : Byte), s.phase = .idle → s.cfg.bufValid = true →
    (Instr.contains lo hi).wf s.cfg = true → EndlessItems s.cfg s.source.beats s.source.tail →
    s.host = [] →
    ∃ t, exec (.contains lo hi) s = .next t ∧
      ((∃ n u, stepN step n t = .next u ∧ u.phase = .idle) ↔
        ∃ k w i, answerAt s.source.beats s.source.tail k = some w ∧
          decodeBeat s.cfg.iw w = .item i ∧ keep (slotVal s i) lo hi = false) ∧
      ∀ n, ∃ u, stepN step n t = .next u ∧ u.buf = s.buf ∧
        ((u.phase = .idle ∧ u.rsp = okResponse 0 ∧ u.sent = s.sent ++ [okResponse 0] ∧
            u.source.closed = true) ∨
          (u.phase = .contains ∧ u.rsp = s.rsp ∧ u.sent = s.sent ∧ n < u.source.pulls))

/-! ### ADD -/

/-- ADD on a stream of items in range: every listed slot holds the tick, no other slot and no other byte
changes, the count is that of the distinct listed slots that were empty, one pull for each item and one
for `END`, no `Close()`; every other part of the state is as it was (R130 to R134). That the idle engine
keeps `A`, `B`, `ACC` and `SCAN` as the command left them is log entry 12. -/
def Obligations.AddMarksExactlyTheListedSlots : Prop :=
  ∀ (s : State) (tick : Byte) (is : List Nat) (rest : List BeatWord),
    s.phase = .idle → s.cfg.bufValid = true → (Instr.add tick).wf s.cfg = true →
    AllInRange s.cfg is → s.source.beats = items s.cfg is ++ endBeat s.cfg :: rest →
    ∃ t, exec (.add tick) s = .next t ∧
      (∀ i, i < s.cfg.nslots → slotVal t i = if i ∈ is then tick else slotVal s i) ∧
      (∀ addr, (∀ i ∈ is, (sel s.cfg i).1 ≠ addr) → t.buf.read addr = s.buf.read addr) ∧
      t = { s with
        buf := t.buf, a := tick, b := 0, acc := emptyAmong s is, scan := 0
        rsp := okResponse (emptyAmong s is), sent := s.sent ++ [okResponse (emptyAmong s is)]
        source :=
          { s.source with beats := rest, opened := false, pulls := is.length + 1, closed := false } }

/-- ADD on a stream whose beat after some items is `BAD` or out of range: the items before it stay written,
nothing after it is pulled or written, the stream is closed and the fault reports no count (R133, R136,
R203, R207). What `A`, `B`, `ACC` and `SCAN` then hold is log entry 12. -/
def Obligations.FaultedAddKeepsThePrefix : Prop :=
  ∀ (s : State) (tick : Byte) (is : List Nat) (w : BeatWord) (rest : List BeatWord) (c : Cause)
      (info : Nat),
    s.phase = .idle → s.cfg.bufValid = true → (Instr.add tick).wf s.cfg = true →
    AllInRange s.cfg is → s.source.beats = items s.cfg is ++ w :: rest →
    (decodeBeat s.cfg.iw w = .bad ∧ c = .miStream ∧ info = 0) ∨
      (decodeBeat s.cfg.iw w = .item info ∧ s.cfg.nslots ≤ info ∧ c = .iaIndex) →
    ∃ t, exec (.add tick) s = .next t ∧
      (∀ i, i < s.cfg.nslots → slotVal t i = if i ∈ is then tick else slotVal s i) ∧
      (∀ addr, (∀ i ∈ is, (sel s.cfg i).1 ≠ addr) → t.buf.read addr = s.buf.read addr) ∧
      t = { s with
        buf := t.buf, a := tick, b := 0, acc := emptyAmong s is, scan := 0
        rsp := faultResponse c info, sent := s.sent ++ [faultResponse c info]
        source :=
          { s.source with beats := rest, opened := false, pulls := is.length + 1, closed := true } }

/-- Adding `k` distinct empty slots returns `k`, and adding them again with any tick returns `0` (R138). -/
def Obligations.AddOccupancyLaw : Prop :=
  ∀ (s : State) (tick tick' : Byte) (is : List Nat) (tail : Tail),
    s.phase = .idle → s.cfg.bufValid = true → (Instr.add tick).wf s.cfg = true →
    (Instr.add tick').wf s.cfg = true → AllInRange s.cfg is → is.Nodup →
    (∀ i ∈ is, slotVal s i = 0) →
    ∃ t u, exec (.add tick) (present (items s.cfg is ++ [endBeat s.cfg]) tail s) = .next t ∧
      t.rsp = okResponse is.length ∧
      exec (.add tick') (present (items s.cfg is ++ [endBeat s.cfg]) tail t) = .next u ∧
      u.rsp = okResponse 0

/-- ADD with an empty sequence writes nothing and returns `0`; the operand checks are still made first
(R139). -/
def Obligations.AddOfAnEmptySequence : Prop :=
  ∀ (s : State) (tick : Byte) (rest : List BeatWord),
    s.phase = .idle → s.cfg.bufValid = true → s.source.opened = false →
    s.source.beats = endBeat s.cfg :: rest →
    (tick ≠ 0 → tick.toNat ≤ s.cfg.tmax →
      ∃ t, exec (.add tick) s = .next t ∧ t.buf = s.buf ∧ t.rsp = okResponse 0 ∧ t.phase = .idle) ∧
    (tick = 0 → ∃ t, exec (.add tick) s = .next t ∧ t.buf = s.buf ∧ t.source = s.source ∧
      t.rsp = faultResponse .iaTickZero 0) ∧
    (s.cfg.tmax < tick.toNat → ∃ t, exec (.add tick) s = .next t ∧ t.buf = s.buf ∧
      t.source = s.source ∧ t.rsp = faultResponse .iaTickRange 0)

/-- Whatever its stream, ADD writes nothing but its tick, which is never `0`: no slot becomes empty, and a
successful ADD raises the live count by the count it returns (R140). -/
def Obligations.AddNeverEmptiesASlot : Prop :=
  ∀ (s t : State) (tick : Byte), s.phase = .idle → exec (.add tick) s = .next t →
    (∀ i, i < s.cfg.nslots →
      (slotVal t i = slotVal s i ∨ (slotVal t i = tick ∧ tick ≠ 0 ∧ tick.toNat ≤ s.cfg.tmax)) ∧
      (slotVal s i ≠ 0 → slotVal t i ≠ 0)) ∧
    (t.phase = .idle → t.rsp.status = .ok → liveCount t = liveCount s + t.rsp.value)

/-- The count of ADD, at its end or while it runs, is at most the number of `ITEM` beats it pulled and at
most `NSLOTS`, and fits `CW` bits (R137, R10). -/
def Obligations.AddCountIsBounded : Prop :=
  ∀ (s t : State) (tick : Byte) (beats : List BeatWord) (tail : Tail), s.phase = .idle →
    exec (.add tick) (present beats tail s) = .next t →
    (t.phase = .idle →
      t.rsp.value ≤ itemBeats s.cfg beats tail t.source.pulls ∧ t.rsp.value ≤ s.cfg.nslots ∧
        t.rsp.value < 2 ^ s.cfg.cw) ∧
    (t.phase ≠ .idle →
      t.acc ≤ itemBeats s.cfg beats tail t.source.pulls ∧ t.acc ≤ s.cfg.nslots ∧ t.acc < 2 ^ s.cfg.cw)

/-! ### CONTAINS -/

/-- CONTAINS over items that pass, and then one of: `END` (true, no `Close()`), an item that fails (false),
`BAD` or an index out of range (the fault). It stops there: the beats after it have no effect, one pull was
made for each beat up to it, and nothing but the registers named changes (R145, R149). What `A`, `B`, `ACC`
and `SCAN` hold after the response is log entry 12. -/
def Obligations.ContainsStopsAtTheFirstFailure : Prop :=
  ∀ (s : State) (lo hi : Byte) (is : List Nat) (w : BeatWord) (rest : List BeatWord) (r : Response)
      (closes : Bool),
    s.phase = .idle → s.cfg.bufValid = true → (Instr.contains lo hi).wf s.cfg = true →
    AllInRange s.cfg is → (∀ i ∈ is, keep (slotVal s i) lo hi = true) →
    s.source.beats = items s.cfg is ++ w :: rest →
    ((decodeBeat s.cfg.iw w = .done ∧ r = okResponse 1 ∧ closes = false) ∨
      (∃ j, decodeBeat s.cfg.iw w = .item j ∧ j < s.cfg.nslots ∧ keep (slotVal s j) lo hi = false ∧
        r = okResponse 0 ∧ closes = true) ∨
      (decodeBeat s.cfg.iw w = .bad ∧ r = faultResponse .miStream 0 ∧ closes = true) ∨
      (∃ j, decodeBeat s.cfg.iw w = .item j ∧ s.cfg.nslots ≤ j ∧ r = faultResponse .iaIndex j ∧
        closes = true)) →
    exec (.contains lo hi) s = .next { s with
      a := lo, b := hi, acc := 0, scan := 0, rsp := r, sent := s.sent ++ [r]
      source :=
        { s.source with beats := rest, opened := false, pulls := is.length + 1, closed := closes } }

/-- The verdict of one item, case by case (R148). -/
def Obligations.ContainsItemVerdict : Prop :=
  ∀ (s : State) (i : Nat), i < s.cfg.nslots → s.a.toNat ≤ s.cfg.tmax → s.b.toNat ≤ s.cfg.tmax →
    ((slotVal s i = 0 ∨
        (s.a.toNat ≤ s.b.toNat ∧
          ((slotVal s i).toNat ≤ s.a.toNat ∨ s.b.toNat < (slotVal s i).toNat)) ∨
        (s.b.toNat < s.a.toNat ∧ s.b.toNat < (slotVal s i).toNat ∧
          (slotVal s i).toNat ≤ s.a.toNat)) →
      containsItem i s = .next (respond .ok .none 0 0 (close s))) ∧
    (¬ (slotVal s i = 0 ∨
        (s.a.toNat ≤ s.b.toNat ∧
          ((slotVal s i).toNat ≤ s.a.toNat ∨ s.b.toNat < (slotVal s i).toNat)) ∨
        (s.b.toNat < s.a.toNat ∧ s.b.toNat < (slotVal s i).toNat ∧
          (slotVal s i).toNat ≤ s.a.toNat)) →
      containsItem i s = .next s)

/-- CONTAINS writes no byte, whatever its outcome, and repeated on the same buffer it gives the same
response and the same pulls (R151). -/
def Obligations.ContainsWritesNothing : Prop :=
  ∀ (s t : State) (lo hi : Byte) (beats : List BeatWord) (tail : Tail), s.phase = .idle →
    exec (.contains lo hi) (present beats tail s) = .next t →
    t.buf = s.buf ∧
    (t.phase = .idle → ∀ u, u.phase = .idle → u.cfg = t.cfg → u.buf = t.buf →
      ∃ v, exec (.contains lo hi) (present beats tail u) = .next v ∧
        v.buf = s.buf ∧ v.rsp = t.rsp ∧ v.source = t.source)

/-- CONTAINS with an empty sequence is true; the operand checks are still made first (R152). -/
def Obligations.ContainsOfAnEmptySequence : Prop :=
  ∀ (s : State) (lo hi : Byte) (rest : List BeatWord),
    s.phase = .idle → s.cfg.bufValid = true → s.source.opened = false →
    s.source.beats = endBeat s.cfg :: rest →
    (lo.toNat ≤ s.cfg.tmax ∧ hi.toNat ≤ s.cfg.tmax →
      ∃ t, exec (.contains lo hi) s = .next t ∧ t.rsp = okResponse 1 ∧ t.phase = .idle) ∧
    (s.cfg.tmax < lo.toNat ∨ s.cfg.tmax < hi.toNat →
      ∃ t, exec (.contains lo hi) s = .next t ∧ t.rsp = faultResponse .iaTickRange 0 ∧
        t.source = s.source)

/-- A stream that names an empty slot, or a slot outside the window, and has no faulting beat up to it
answers false; an empty slot does so in every window (R153). -/
def Obligations.ContainsSentinelLaw : Prop :=
  ∀ (s : State) (lo hi : Byte) (is : List Nat) (rest : List BeatWord),
    s.phase = .idle → s.cfg.bufValid = true → (Instr.contains lo hi).wf s.cfg = true →
    AllInRange s.cfg is → (∃ i ∈ is, slotVal s i = 0 ∨ fresh (slotVal s i) lo hi = false) →
    s.source.beats = items s.cfg is ++ rest →
    ∃ t, exec (.contains lo hi) s = .next t ∧ t.phase = .idle ∧ t.rsp = okResponse 0

/-- A slot just written by ADD at a tick is in CONTAINS exactly when the tick is fresh (R154, R117). -/
def Obligations.ContainsSeesTheAddedTick : Prop :=
  ∀ (s : State) (i : Nat) (tick lo hi : Byte) (tail : Tail),
    s.phase = .idle → s.cfg.bufValid = true → AllInRange s.cfg [i] →
    (Instr.add tick).wf s.cfg = true → (Instr.contains lo hi).wf s.cfg = true →
    ∃ t u, exec (.add tick) (present (items s.cfg [i] ++ [endBeat s.cfg]) tail s) = .next t ∧
      exec (.contains lo hi) (present (items s.cfg [i] ++ [endBeat s.cfg]) tail t) = .next u ∧
      u.rsp = okResponse (if fresh tick lo hi then 1 else 0)

/-! ### DECAY -/

/-- The byte step at one address: every slot of that byte is kept if it is occupied and fresh and cleared
otherwise, each on its own; the count grows by the slots of the byte that are left; no other byte and nothing
else changes (R163, R164). -/
def Obligations.DecayByteStep : Prop :=
  ∀ (s : State) (address : Nat) (lo hi : Byte), address < s.cfg.len →
    (s.cfg.enc = .enc8 → lo = s.a ∧ hi = s.b) →
    (s.cfg.enc = .enc4 → lo.toNat = s.a.toNat % 16 ∧ hi.toNat = s.b.toNat % 16) →
    ∃ t, byteStep address s = .next t ∧
      (∀ i, i < s.cfg.nslots → (sel s.cfg i).1 = address →
        slotVal t i =
          if slotVal s i ≠ 0 ∧ fresh (slotVal s i) lo hi = true then slotVal s i else 0) ∧
      (∀ addr, addr ≠ address → t.buf.read addr = s.buf.read addr) ∧
      t = { s with
        buf := t.buf
        acc := s.acc + (List.range s.cfg.nslots).countP fun i =>
          decide ((sel s.cfg i).1 = address) && live (slotVal t i) }

/-- DECAY keeps every slot that is occupied and fresh and clears every other; it returns the number of
slots left; no byte outside the buffer and no other part of the state changes (R166). That the idle engine
keeps `A`, `B`, `ACC` and `SCAN` as the command left them is log entry 12. -/
def Obligations.DecayPostState : Prop :=
  ∀ (s : State) (lo hi : Byte),
    s.phase = .idle → s.cfg.bufValid = true → (Instr.decay lo hi).wf s.cfg = true →
    ∃ t, exec (.decay lo hi) s = .next t ∧
      (∀ i, i < s.cfg.nslots →
        slotVal t i = if slotVal s i ≠ 0 ∧ fresh (slotVal s i) lo hi = true then slotVal s i else 0) ∧
      (∀ addr, s.cfg.len ≤ addr → t.buf.read addr = s.buf.read addr) ∧
      t = { s with
        buf := t.buf, a := lo, b := hi, acc := liveCount t, scan := s.cfg.len
        rsp := okResponse (liveCount t), sent := s.sent ++ [okResponse (liveCount t)] }

/-- A second DECAY with the same window returns the same count and changes no byte (R169). -/
def Obligations.DecayIsIdempotent : Prop :=
  ∀ (s : State) (lo hi : Byte),
    s.phase = .idle → s.cfg.bufValid = true → (Instr.decay lo hi).wf s.cfg = true →
    ∃ t u, exec (.decay lo hi) s = .next t ∧ exec (.decay lo hi) t = .next u ∧
      u.rsp = t.rsp ∧ u.buf = t.buf

/-- The count of a later DECAY, whatever its window, is never greater than that of an earlier one, as long
as the buffer is the one the earlier one left, and never greater than the live count before; the
accumulator fits its width (R167, R170). That it still holds the count after the response is log entry
12. -/
def Obligations.DecayCountNeverGrows : Prop :=
  ∀ (s t u v : State) (lo hi lo' hi' : Byte),
    s.phase = .idle → s.cfg.bufValid = true → (Instr.decay lo hi).wf s.cfg = true →
    (Instr.decay lo' hi').wf s.cfg = true → exec (.decay lo hi) s = .next t →
    u.phase = .idle → u.cfg = t.cfg → u.buf = t.buf → exec (.decay lo' hi') u = .next v →
    v.rsp.value ≤ t.rsp.value ∧ t.rsp.value ≤ liveCount s ∧ t.rsp.value ≤ s.cfg.nslots ∧
      t.acc = t.rsp.value ∧ t.acc < 2 ^ s.cfg.cw

/-- The degenerate windows: equal bounds clear every slot; `(0, TMAX]` clears none and counts; every other
window excludes some tick, the same one whatever the slots hold (R171). -/
def Obligations.DecayDegenerateWindows : Prop :=
  ∀ (c : Config) (lo hi : Byte), c.bufValid = true → (Instr.decay lo hi).wf c = true →
    (lo = hi → ∀ s : State, s.cfg = c → s.phase = .idle →
      ∃ t, exec (.decay lo hi) s = .next t ∧ t.rsp = okResponse 0 ∧
        ∀ i, i < c.nslots → slotVal t i = 0) ∧
    (lo = 0 → hi.toNat = c.tmax → ∀ s : State, s.cfg = c → s.phase = .idle →
      ∃ t, exec (.decay lo hi) s = .next t ∧ t.rsp = okResponse (liveCount s) ∧ t.buf = s.buf) ∧
    (¬ (lo = 0 ∧ hi.toNat = c.tmax) →
      ∃ v : Byte, v ≠ 0 ∧ v.toNat ≤ c.tmax ∧ keep v lo hi = false ∧
        ∀ s : State, s.cfg = c → s.phase = .idle →
          ∃ t, exec (.decay lo hi) s = .next t ∧
            ∀ i, i < c.nslots → slotVal s i = v → slotVal t i = 0)

/-- Every assignment of the bytes to `P` lanes and every order inside the lanes, the lanes run in turn, gives
the buffer and the count of the reference scanner: the sum of the lanes' own counts is what DECAY returns
(R168). The reference scanner is what the model runs (log entry 13). -/
def Obligations.DecayAgreesForEveryLaneAssignment : Prop :=
  ∀ (s : State) (lo hi : Byte) (lanes : List (List Nat)),
    s.phase = .idle → s.cfg.bufValid = true → (Instr.decay lo hi).wf s.cfg = true →
    lanes.length = s.cfg.lanes → lanes.flatten.Perm (List.range s.cfg.len) →
    ∃ t u, exec (.decay lo hi) s = .next t ∧ lanesScan lanes (acceptInstr (.decay lo hi) s) = .next u ∧
      t.rsp = okResponse u.acc ∧ ∀ addr, u.buf.read addr = t.buf.read addr

/-- So does every interleaving of the lanes: any schedule in which each byte is taken once, by any one of the
`P` lanes, each lane counting for itself (R160, R168; log entry 13). -/
def Obligations.DecayAgreesForEveryInterleaving : Prop :=
  ∀ (s : State) (lo hi : Byte) (schedule : List (Nat × Nat)),
    s.phase = .idle → s.cfg.bufValid = true → (Instr.decay lo hi).wf s.cfg = true →
    (∀ e ∈ schedule, e.1 < s.cfg.lanes) →
    (schedule.map fun e => e.2).Perm (List.range s.cfg.len) →
    ∃ t u, exec (.decay lo hi) s = .next t ∧
      interleavedScan schedule (List.replicate s.cfg.lanes 0) (acceptInstr (.decay lo hi) s) = .next u ∧
      t.rsp = okResponse u.acc ∧ ∀ addr, u.buf.read addr = t.buf.read addr

/-- After DECAY with a window, CONTAINS with the same window is true of slots in range exactly when all of
them are occupied (R166 with R148). -/
def Obligations.ContainsAfterDecay : Prop :=
  ∀ (s : State) (lo hi : Byte) (is : List Nat) (tail : Tail),
    s.phase = .idle → s.cfg.bufValid = true → (Instr.decay lo hi).wf s.cfg = true →
    AllInRange s.cfg is →
    ∃ t u, exec (.decay lo hi) s = .next t ∧
      exec (.contains lo hi) (present (items s.cfg is ++ [endBeat s.cfg]) tail t) = .next u ∧
      u.phase = .idle ∧ (u.rsp = okResponse 1 ↔ ∀ i ∈ is, slotVal t i ≠ 0) ∧
      (u.rsp ≠ okResponse 1 → u.rsp = okResponse 0)

/-! ### Whole-machine laws -/

/-- Every slot value lies in the ring (R36). -/
def Obligations.EverySlotLiesInTheRing : Prop :=
  ∀ (s : State) (i : Nat), (slotVal s i).toNat ≤ s.cfg.tmax

/-- Invariant I1 holds from construction and every step keeps it: a slot is empty or holds a tick that an
earlier ADD command, one already taken from the HOST's list, carried for that slot (R34; log entry 3). -/
def Obligations.EveryTickWasAdded : Prop :=
  (∀ (c : Config) (h : List HostEvent), Traced h (boot c h)) ∧
  (∀ (h : List HostEvent) (s t : State), Traced h s → step s = .next t → Traced h t)

/-- An ENC8 and an ENC4 engine with the same slots, fed the same commands with operands in `[0, 15]`, give
the same responses and keep the same slots, for any number of steps; so they do from reset (R190). -/
def Obligations.TheTwoEncodingsAgree : Prop :=
  (∀ (e8 e4 : State) (k : Nat), SameStore e8 e4 → (∀ e ∈ e8.host, e.narrow = true) →
    ∃ t8 t4, stepN step k e8 = .next t8 ∧ stepN step k e4 = .next t4 ∧ SameStore t8 t4) ∧
  (∀ (c8 c4 : Config) (h : List HostEvent), c8.enc = .enc8 → c4.enc = .enc4 →
    c8.len = 2 * c4.len → c8.iw = c4.iw → c8.bufValid = c4.bufValid →
    SameStore (boot c8 h) (boot c4 h))
end

