-- ==== Sys2Proof/Laws/State.lean ====
section
/-! SUPPORT. One lemma for each field and each named update of the state, true by definition. -/

namespace Sys2Proof.Machine

/-! `present` -/

@[simp] theorem present_cfg (beats : List BeatWord) (tail : Tail) (s : State) :
    (present beats tail s).cfg = s.cfg := rfl

@[simp] theorem present_buf (beats : List BeatWord) (tail : Tail) (s : State) :
    (present beats tail s).buf = s.buf := rfl

@[simp] theorem present_phase (beats : List BeatWord) (tail : Tail) (s : State) :
    (present beats tail s).phase = s.phase := rfl

@[simp] theorem present_a (beats : List BeatWord) (tail : Tail) (s : State) :
    (present beats tail s).a = s.a := rfl

@[simp] theorem present_b (beats : List BeatWord) (tail : Tail) (s : State) :
    (present beats tail s).b = s.b := rfl

@[simp] theorem present_acc (beats : List BeatWord) (tail : Tail) (s : State) :
    (present beats tail s).acc = s.acc := rfl

@[simp] theorem present_scan (beats : List BeatWord) (tail : Tail) (s : State) :
    (present beats tail s).scan = s.scan := rfl

@[simp] theorem present_rsp (beats : List BeatWord) (tail : Tail) (s : State) :
    (present beats tail s).rsp = s.rsp := rfl

@[simp] theorem present_source (beats : List BeatWord) (tail : Tail) (s : State) :
    (present beats tail s).source =
      { beats := beats, tail := tail, opened := false, pulls := 0, closed := false } := rfl

@[simp] theorem present_host (beats : List BeatWord) (tail : Tail) (s : State) :
    (present beats tail s).host = s.host := rfl

@[simp] theorem present_sent (beats : List BeatWord) (tail : Tail) (s : State) :
    (present beats tail s).sent = s.sent := rfl

/-! `latch` -/

@[simp] theorem latch_cfg (x y : Byte) (s : State) : (latch x y s).cfg = s.cfg := rfl

@[simp] theorem latch_buf (x y : Byte) (s : State) : (latch x y s).buf = s.buf := rfl

@[simp] theorem latch_phase (x y : Byte) (s : State) : (latch x y s).phase = s.phase := rfl

@[simp] theorem latch_a (x y : Byte) (s : State) : (latch x y s).a = x := rfl

@[simp] theorem latch_b (x y : Byte) (s : State) : (latch x y s).b = y := rfl

@[simp] theorem latch_acc (x y : Byte) (s : State) : (latch x y s).acc = 0 := rfl

@[simp] theorem latch_scan (x y : Byte) (s : State) : (latch x y s).scan = 0 := rfl

@[simp] theorem latch_rsp (x y : Byte) (s : State) : (latch x y s).rsp = s.rsp := rfl

@[simp] theorem latch_source (x y : Byte) (s : State) : (latch x y s).source = s.source := rfl

@[simp] theorem latch_host (x y : Byte) (s : State) : (latch x y s).host = s.host := rfl

@[simp] theorem latch_sent (x y : Byte) (s : State) : (latch x y s).sent = s.sent := rfl

/-! `openStream` -/

@[simp] theorem openStream_cfg (p : Phase) (s : State) : (openStream p s).cfg = s.cfg := rfl

@[simp] theorem openStream_buf (p : Phase) (s : State) : (openStream p s).buf = s.buf := rfl

@[simp] theorem openStream_phase (p : Phase) (s : State) : (openStream p s).phase = p := rfl

@[simp] theorem openStream_a (p : Phase) (s : State) : (openStream p s).a = s.a := rfl

@[simp] theorem openStream_b (p : Phase) (s : State) : (openStream p s).b = s.b := rfl

@[simp] theorem openStream_acc (p : Phase) (s : State) : (openStream p s).acc = s.acc := rfl

@[simp] theorem openStream_scan (p : Phase) (s : State) : (openStream p s).scan = s.scan := rfl

@[simp] theorem openStream_rsp (p : Phase) (s : State) : (openStream p s).rsp = s.rsp := rfl

@[simp] theorem openStream_source (p : Phase) (s : State) :
    (openStream p s).source = { s.source with opened := true, pulls := 0, closed := false } := rfl

@[simp] theorem openStream_host (p : Phase) (s : State) : (openStream p s).host = s.host := rfl

@[simp] theorem openStream_sent (p : Phase) (s : State) : (openStream p s).sent = s.sent := rfl

/-! `endStream` -/

@[simp] theorem endStream_cfg (s : State) : (endStream s).cfg = s.cfg := rfl

@[simp] theorem endStream_buf (s : State) : (endStream s).buf = s.buf := rfl

@[simp] theorem endStream_phase (s : State) : (endStream s).phase = s.phase := rfl

@[simp] theorem endStream_a (s : State) : (endStream s).a = s.a := rfl

@[simp] theorem endStream_b (s : State) : (endStream s).b = s.b := rfl

@[simp] theorem endStream_acc (s : State) : (endStream s).acc = s.acc := rfl

@[simp] theorem endStream_scan (s : State) : (endStream s).scan = s.scan := rfl

@[simp] theorem endStream_rsp (s : State) : (endStream s).rsp = s.rsp := rfl

@[simp] theorem endStream_source (s : State) :
    (endStream s).source = { s.source with opened := false } := rfl

@[simp] theorem endStream_host (s : State) : (endStream s).host = s.host := rfl

@[simp] theorem endStream_sent (s : State) : (endStream s).sent = s.sent := rfl

/-! `close` -/

@[simp] theorem close_cfg (s : State) : (close s).cfg = s.cfg := rfl

@[simp] theorem close_buf (s : State) : (close s).buf = s.buf := rfl

@[simp] theorem close_phase (s : State) : (close s).phase = s.phase := rfl

@[simp] theorem close_a (s : State) : (close s).a = s.a := rfl

@[simp] theorem close_b (s : State) : (close s).b = s.b := rfl

@[simp] theorem close_acc (s : State) : (close s).acc = s.acc := rfl

@[simp] theorem close_scan (s : State) : (close s).scan = s.scan := rfl

@[simp] theorem close_rsp (s : State) : (close s).rsp = s.rsp := rfl

@[simp] theorem close_source (s : State) :
    (close s).source = { s.source with opened := false, closed := s.source.opened || s.source.closed } := rfl

@[simp] theorem close_host (s : State) : (close s).host = s.host := rfl

@[simp] theorem close_sent (s : State) : (close s).sent = s.sent := rfl

/-! `respond` -/

@[simp] theorem respond_cfg (st : Status) (c : Cause) (v i : Nat) (s : State) :
    (respond st c v i s).cfg = s.cfg := rfl

@[simp] theorem respond_buf (st : Status) (c : Cause) (v i : Nat) (s : State) :
    (respond st c v i s).buf = s.buf := rfl

@[simp] theorem respond_phase (st : Status) (c : Cause) (v i : Nat) (s : State) :
    (respond st c v i s).phase = .idle := rfl

@[simp] theorem respond_a (st : Status) (c : Cause) (v i : Nat) (s : State) :
    (respond st c v i s).a = s.a := rfl

@[simp] theorem respond_b (st : Status) (c : Cause) (v i : Nat) (s : State) :
    (respond st c v i s).b = s.b := rfl

@[simp] theorem respond_acc (st : Status) (c : Cause) (v i : Nat) (s : State) :
    (respond st c v i s).acc = s.acc := rfl

@[simp] theorem respond_scan (st : Status) (c : Cause) (v i : Nat) (s : State) :
    (respond st c v i s).scan = s.scan := rfl

@[simp] theorem respond_rsp (st : Status) (c : Cause) (v i : Nat) (s : State) :
    (respond st c v i s).rsp = { status := st, cause := c, value := v, info := i } := rfl

@[simp] theorem respond_source (st : Status) (c : Cause) (v i : Nat) (s : State) :
    (respond st c v i s).source = s.source := rfl

@[simp] theorem respond_host (st : Status) (c : Cause) (v i : Nat) (s : State) :
    (respond st c v i s).host = s.host := rfl

@[simp] theorem respond_sent (st : Status) (c : Cause) (v i : Nat) (s : State) :
    (respond st c v i s).sent = s.sent ++ [{ status := st, cause := c, value := v, info := i }] := rfl

/-! `raise` -/

@[simp] theorem raise_cfg (c : Cause) (i : Nat) (s : State) : (raise c i s).cfg = s.cfg := rfl

@[simp] theorem raise_buf (c : Cause) (i : Nat) (s : State) : (raise c i s).buf = s.buf := rfl

@[simp] theorem raise_phase (c : Cause) (i : Nat) (s : State) : (raise c i s).phase = .idle := rfl

@[simp] theorem raise_a (c : Cause) (i : Nat) (s : State) : (raise c i s).a = s.a := rfl

@[simp] theorem raise_b (c : Cause) (i : Nat) (s : State) : (raise c i s).b = s.b := rfl

@[simp] theorem raise_acc (c : Cause) (i : Nat) (s : State) : (raise c i s).acc = s.acc := rfl

@[simp] theorem raise_scan (c : Cause) (i : Nat) (s : State) : (raise c i s).scan = s.scan := rfl

@[simp] theorem raise_rsp (c : Cause) (i : Nat) (s : State) :
    (raise c i s).rsp = { status := c.kind, cause := c, value := 0, info := i } := rfl

@[simp] theorem raise_source (c : Cause) (i : Nat) (s : State) :
    (raise c i s).source = (close s).source := rfl

@[simp] theorem raise_host (c : Cause) (i : Nat) (s : State) : (raise c i s).host = s.host := rfl

@[simp] theorem raise_sent (c : Cause) (i : Nat) (s : State) :
    (raise c i s).sent = s.sent ++ [{ status := c.kind, cause := c, value := 0, info := i }] := rfl

/-! `hostReset` -/

@[simp] theorem hostReset_cfg (s : State) : (hostReset s).cfg = s.cfg := rfl

@[simp] theorem hostReset_buf (s : State) : (hostReset s).buf = [] := rfl

@[simp] theorem hostReset_phase (s : State) : (hostReset s).phase = .idle := rfl

@[simp] theorem hostReset_a (s : State) : (hostReset s).a = 0 := rfl

@[simp] theorem hostReset_b (s : State) : (hostReset s).b = 0 := rfl

@[simp] theorem hostReset_acc (s : State) : (hostReset s).acc = 0 := rfl

@[simp] theorem hostReset_scan (s : State) : (hostReset s).scan = 0 := rfl

@[simp] theorem hostReset_rsp (s : State) : (hostReset s).rsp = Response.zero := rfl

@[simp] theorem hostReset_source (s : State) :
    (hostReset s).source = { s.source with opened := false } := rfl

@[simp] theorem hostReset_host (s : State) : (hostReset s).host = s.host := rfl

@[simp] theorem hostReset_sent (s : State) : (hostReset s).sent = s.sent := rfl

/-! `dropEvent` -/

@[simp] theorem dropEvent_cfg (s : State) : (dropEvent s).cfg = s.cfg := rfl

@[simp] theorem dropEvent_buf (s : State) : (dropEvent s).buf = s.buf := rfl

@[simp] theorem dropEvent_phase (s : State) : (dropEvent s).phase = s.phase := rfl

@[simp] theorem dropEvent_a (s : State) : (dropEvent s).a = s.a := rfl

@[simp] theorem dropEvent_b (s : State) : (dropEvent s).b = s.b := rfl

@[simp] theorem dropEvent_acc (s : State) : (dropEvent s).acc = s.acc := rfl

@[simp] theorem dropEvent_scan (s : State) : (dropEvent s).scan = s.scan := rfl

@[simp] theorem dropEvent_rsp (s : State) : (dropEvent s).rsp = s.rsp := rfl

@[simp] theorem dropEvent_source (s : State) : (dropEvent s).source = s.source := rfl

@[simp] theorem dropEvent_host (s : State) : (dropEvent s).host = s.host.tail := rfl

@[simp] theorem dropEvent_sent (s : State) : (dropEvent s).sent = s.sent := rfl

/-! `startScan` -/

@[simp] theorem startScan_cfg (s : State) : (startScan s).cfg = s.cfg := rfl

@[simp] theorem startScan_buf (s : State) : (startScan s).buf = s.buf := rfl

@[simp] theorem startScan_phase (s : State) : (startScan s).phase = .decay := rfl

@[simp] theorem startScan_a (s : State) : (startScan s).a = s.a := rfl

@[simp] theorem startScan_b (s : State) : (startScan s).b = s.b := rfl

@[simp] theorem startScan_acc (s : State) : (startScan s).acc = s.acc := rfl

@[simp] theorem startScan_scan (s : State) : (startScan s).scan = s.scan := rfl

@[simp] theorem startScan_rsp (s : State) : (startScan s).rsp = s.rsp := rfl

@[simp] theorem startScan_source (s : State) : (startScan s).source = s.source := rfl

@[simp] theorem startScan_host (s : State) : (startScan s).host = s.host := rfl

@[simp] theorem startScan_sent (s : State) : (startScan s).sent = s.sent := rfl

/-! `advanceScan` -/

@[simp] theorem advanceScan_cfg (s : State) : (advanceScan s).cfg = s.cfg := rfl

@[simp] theorem advanceScan_buf (s : State) : (advanceScan s).buf = s.buf := rfl

@[simp] theorem advanceScan_phase (s : State) : (advanceScan s).phase = s.phase := rfl

@[simp] theorem advanceScan_a (s : State) : (advanceScan s).a = s.a := rfl

@[simp] theorem advanceScan_b (s : State) : (advanceScan s).b = s.b := rfl

@[simp] theorem advanceScan_acc (s : State) : (advanceScan s).acc = s.acc := rfl

@[simp] theorem advanceScan_scan (s : State) : (advanceScan s).scan = s.scan + 1 := rfl

@[simp] theorem advanceScan_rsp (s : State) : (advanceScan s).rsp = s.rsp := rfl

@[simp] theorem advanceScan_source (s : State) : (advanceScan s).source = s.source := rfl

@[simp] theorem advanceScan_host (s : State) : (advanceScan s).host = s.host := rfl

@[simp] theorem advanceScan_sent (s : State) : (advanceScan s).sent = s.sent := rfl

@[simp] theorem countEmpty_cfg (old : Byte) (s : State) :
    (countEmpty old s).cfg = s.cfg := by
  unfold countEmpty; split <;> rfl

@[simp] theorem countEmpty_buf (old : Byte) (s : State) :
    (countEmpty old s).buf = s.buf := by
  unfold countEmpty; split <;> rfl

@[simp] theorem countEmpty_phase (old : Byte) (s : State) :
    (countEmpty old s).phase = s.phase := by
  unfold countEmpty; split <;> rfl

@[simp] theorem countEmpty_a (old : Byte) (s : State) :
    (countEmpty old s).a = s.a := by
  unfold countEmpty; split <;> rfl

@[simp] theorem countEmpty_b (old : Byte) (s : State) :
    (countEmpty old s).b = s.b := by
  unfold countEmpty; split <;> rfl

@[simp] theorem countEmpty_acc (old : Byte) (s : State) :
    (countEmpty old s).acc = if zero old then s.acc + 1 else s.acc := by
  unfold countEmpty; split <;> rfl

@[simp] theorem countEmpty_scan (old : Byte) (s : State) :
    (countEmpty old s).scan = s.scan := by
  unfold countEmpty; split <;> rfl

@[simp] theorem countEmpty_rsp (old : Byte) (s : State) :
    (countEmpty old s).rsp = s.rsp := by
  unfold countEmpty; split <;> rfl

@[simp] theorem countEmpty_source (old : Byte) (s : State) :
    (countEmpty old s).source = s.source := by
  unfold countEmpty; split <;> rfl

@[simp] theorem countEmpty_host (old : Byte) (s : State) :
    (countEmpty old s).host = s.host := by
  unfold countEmpty; split <;> rfl

@[simp] theorem countEmpty_sent (old : Byte) (s : State) :
    (countEmpty old s).sent = s.sent := by
  unfold countEmpty; split <;> rfl

end Sys2Proof.Machine
end

