-- ==== Sys2Proof/Laws/Units.lean ====
section
/-! SUPPORT. The laws of the functional units (`40_units.md`) and the arithmetic of `NSLOTS`. -/

namespace Sys2Proof

theorem Config.nslots_enc8 {c : Config} (h : c.enc = .enc8) : c.nslots = c.len := by
  simp [Config.nslots, Config.slotsPerByte, h]

theorem Config.nslots_enc4 {c : Config} (h : c.enc = .enc4) : c.nslots = 2 * c.len := by
  simp [Config.nslots, Config.slotsPerByte, h]

theorem Config.tmax_enc8 {c : Config} (h : c.enc = .enc8) : c.tmax = 255 := by simp [Config.tmax, h]

theorem Config.tmax_enc4 {c : Config} (h : c.enc = .enc4) : c.tmax = 15 := by simp [Config.tmax, h]

end Sys2Proof

namespace Sys2Proof.Machine

theorem nibGet_pack_high (h l : Nibble) : nibGet (pack h l) true = h := by
  revert h l; decide

theorem nibGet_pack_low (h l : Nibble) : nibGet (pack h l) false = l := by
  revert h l; decide

/-- The packed nibble is read back. -/
theorem nibGet_nibPut_same (b : Byte) (hi : Bool) (v : Nibble) : nibGet (nibPut b hi v) hi = v := by
  cases hi
  · simp [nibPut, nibGet_pack_low]
  · simp [nibPut, nibGet_pack_high]

/-- The other nibble is kept. -/
theorem nibGet_nibPut_other (b : Byte) (hi : Bool) (v : Nibble) :
    nibGet (nibPut b hi v) (!hi) = nibGet b (!hi) := by
  cases hi
  · simp [nibPut, nibGet_pack_high]
  · simp [nibPut, nibGet_pack_low]

theorem lowNibble_setWidth (v : Nibble) : lowNibble (v.setWidth 8) = v := by
  revert v; decide

/-- A byte in the 4-bit ring is its low nibble, zero-extended. -/
theorem setWidth_lowNibble {x : Byte} (h : x.toNat ≤ 15) : (lowNibble x).setWidth 8 = x := by
  apply BitVec.eq_of_toNat_eq
  simp [lowNibble, Nat.mod_eq_of_lt (show x.toNat < 16 by omega),
    Nat.mod_eq_of_lt (show x.toNat < 256 by omega)]

/-- An operand that passed the ring check reaches the comparator unchanged. -/
theorem windowBound_of_inRing {c : Config} {x : Byte} (h : x.toNat ≤ c.tmax) :
    windowBound c x = x := by
  unfold windowBound
  cases he : c.enc
  · rfl
  · exact setWidth_lowNibble (by rw [Config.tmax_enc4 he] at h; exact h)

/-- Every slot value lies in the ring. -/
theorem slotGet_le_tmax (c : Config) (b : Byte) (hi : Bool) : (slotGet c b hi).toNat ≤ c.tmax := by
  unfold slotGet Config.tmax
  cases c.enc
  · have := b.isLt; simp only; omega
  · have := (nibGet b hi).isLt
    simp only [BitVec.toNat_setWidth]
    omega

theorem slotGet_slotPut_same {c : Config} (b : Byte) (hi : Bool) {v : Byte} (h : v.toNat ≤ c.tmax) :
    slotGet c (slotPut c b hi v) hi = v := by
  unfold slotGet slotPut
  cases he : c.enc
  · rfl
  · simp only [nibGet_nibPut_same]
    exact setWidth_lowNibble (by rw [Config.tmax_enc4 he] at h; exact h)

theorem slotGet_slotPut_other {c : Config} (he : c.enc = .enc4) (b : Byte) (hi : Bool) (v : Byte) :
    slotGet c (slotPut c b hi v) (!hi) = slotGet c b (!hi) := by
  simp only [slotGet, slotPut, he, nibGet_nibPut_other]

/-- A slot in range lies in a byte of the buffer. -/
theorem sel_lt_len {c : Config} {i : Nat} (h : i < c.nslots) : (sel c i).1 < c.len := by
  unfold sel
  cases he : c.enc
  · rw [Config.nslots_enc8 he] at h; exact h
  · rw [Config.nslots_enc4 he] at h; simp only; omega

/-- Two slots of one byte are its two nibbles. -/
theorem sel_other {c : Config} {i j : Nat} (hne : j ≠ i) (hb : (sel c j).1 = (sel c i).1) :
    c.enc = .enc4 ∧ (sel c j).2 = !(sel c i).2 := by
  unfold sel at *
  cases he : c.enc
  · simp only [he] at hb; exact absurd hb hne
  · simp only [he] at hb ⊢
    refine ⟨trivial, ?_⟩
    rcases Nat.mod_two_eq_zero_or_one i with h | h <;>
      rcases Nat.mod_two_eq_zero_or_one j with h' | h' <;> simp [h, h'] <;> omega

/-- The comparator as comparisons of naturals (R119). -/
theorem fresh_iff (v lo hi : Byte) :
    fresh v lo hi = true ↔
      (hi.toNat < lo.toNat ∧ (lo.toNat < v.toNat ∨ v.toNat ≤ hi.toNat)) ∨
        (lo.toNat ≤ hi.toNat ∧ lo.toNat < v.toNat ∧ v.toNat ≤ hi.toNat) := by
  unfold fresh wrap
  simp only [BitVec.ult_eq_decide, BitVec.ule_eq_decide]
  by_cases h : hi.toNat < lo.toNat
  · simp [h]
  · simp only [h, decide_false, Bool.false_eq_true, if_false, Bool.and_eq_true, decide_eq_true_eq,
      false_and, false_or]
    omega

theorem zero_eq_true (v : Byte) : zero v = true ↔ v = 0 := by simp [zero]

theorem zero_eq_false (v : Byte) : zero v = false ↔ v ≠ 0 := by simp [zero]

theorem keep_iff (v lo hi : Byte) : keep v lo hi = true ↔ v ≠ 0 ∧ fresh v lo hi = true := by
  simp [keep, live, zero]

theorem inRange_iff (c : Config) (i : Nat) : inRange c i = true ↔ i < c.nslots := by simp [inRange]

theorem tickInRing_iff (c : Config) (t : Byte) : tickInRing c t = true ↔ t.toNat ≤ c.tmax := by
  simp [tickInRing]

end Sys2Proof.Machine
end

