-- ==== Sys2Proof/Laws/Ops.lean ====
section
/-! SUPPORT. What each shared operation of `Machine/Ops.lean` can do, said once. -/

namespace Sys2Proof.Machine

/-! ### Buffer and slots -/

theorem memRead_ok_iff (s : State) (a : Nat) (v : Byte) :
    memRead s a = .ok v ↔ a < s.cfg.len ∧ v = s.buf.read a := by
  unfold memRead; split <;> simp_all [eq_comm]

theorem memWrite_ok_iff (s t : State) (a : Nat) (v : Byte) :
    memWrite s a v = .ok t ↔ a < s.cfg.len ∧ t = { s with buf := s.buf.write a v } := by
  unfold memWrite; split <;> simp_all [eq_comm]

theorem slotRead_of_lt {s : State} {i : Nat} (h : i < s.cfg.nslots) :
    slotRead s i = .ok (slotVal s i) := by
  simp only [slotRead, memRead, sel_lt_len h, if_true, slotVal]

theorem slotWrite_of_lt {s : State} {i : Nat} (h : i < s.cfg.nslots) (v : Byte) :
    slotWrite s i v =
      .ok { s with buf := s.buf.write (sel s.cfg i).1
                    (slotPut s.cfg (s.buf.read (sel s.cfg i).1) (sel s.cfg i).2 v) } := by
  simp only [slotWrite, memRead, memWrite, sel_lt_len h, if_true]

/-- A slot write that succeeds changes the one byte the slot lies in, and nothing else. -/
theorem slotWrite_ok {s t : State} {i : Nat} {v : Byte} (h : slotWrite s i v = .ok t) :
    (sel s.cfg i).1 < s.cfg.len ∧
      t = { s with buf := s.buf.write (sel s.cfg i).1
                    (slotPut s.cfg (s.buf.read (sel s.cfg i).1) (sel s.cfg i).2 v) } := by
  unfold slotWrite memRead memWrite at h
  split at h
  · cases h
  · rename_i b hb
    split at hb
    · rename_i hlt
      cases hb
      simp only [hlt, if_true, Except.ok.injEq] at h
      exact ⟨hlt, h.symm⟩
    · cases hb

/-! ### The index stream -/

/-- The listed beats come first. -/
@[simp] theorem nextAnswer_cons (w : BeatWord) (rest : List BeatWord) (tail : Tail) :
    nextAnswer (w :: rest) tail = some (w, rest, tail) := rfl

/-- No answer comes exactly where no beat is listed and the source is silent. -/
theorem nextAnswer_eq_none_iff (beats : List BeatWord) (tail : Tail) :
    nextAnswer beats tail = none ↔ beats = [] ∧ tail = .silent := by
  cases beats <;> cases tail <;> simp [nextAnswer]

/-- What an answer leaves of a stream that falls silent: one listed beat less. -/
theorem nextAnswer_silent {beats rest : List BeatWord} {w : BeatWord} {tail : Tail}
    (h : nextAnswer beats .silent = some (w, rest, tail)) : beats = w :: rest ∧ tail = .silent := by
  cases beats with
  | nil => cases h
  | cons x xs => cases h; exact ⟨rfl, rfl⟩

/-- The stretch of a stream is as long as its listed beats exactly where it falls silent. -/
theorem lap_eq_zero_iff (tail : Tail) : lap tail = 0 ↔ tail = .silent := by
  cases tail <;> simp [lap]

/-- A pull that is answered takes the next answer of the open stream. -/
theorem pull_some {s t : State} {b : Beat} (h : pull s = some (b, t)) :
    s.source.opened = true ∧ ∃ w rest tail, nextAnswer s.source.beats s.source.tail = some (w, rest, tail) ∧
      b = decodeBeat s.cfg.iw w ∧
      t = { s with source :=
              { s.source with beats := rest, tail := tail, pulls := s.source.pulls + 1 } } := by
  unfold pull at h
  split at h
  · rename_i ho
    refine ⟨ho, ?_⟩
    split at h
    · cases h
    · rename_i w rest tail hb
      simp only [Option.some.injEq, Prod.mk.injEq] at h
      exact ⟨w, rest, tail, hb, h.1.symm, h.2.symm⟩
  · cases h

theorem pull_of_next {s : State} {w : BeatWord} {rest : List BeatWord} {tail : Tail}
    (ho : s.source.opened = true)
    (hb : nextAnswer s.source.beats s.source.tail = some (w, rest, tail)) :
    pull s = some (decodeBeat s.cfg.iw w,
      { s with source :=
          { s.source with beats := rest, tail := tail, pulls := s.source.pulls + 1 } }) := by
  simp only [pull, ho, if_true, hb]

theorem pull_of_cons {s : State} {w : BeatWord} {rest : List BeatWord} (ho : s.source.opened = true)
    (hb : s.source.beats = w :: rest) :
    pull s = some (decodeBeat s.cfg.iw w,
      { s with source := { s.source with beats := rest, pulls := s.source.pulls + 1 } }) :=
  pull_of_next ho (by rw [hb, nextAnswer_cons])

/-- An open stream answers unless it is used up and silent. -/
theorem pull_eq_none_iff (s : State) :
    pull s = none ↔ (s.source.opened = true → s.source.beats = [] ∧ s.source.tail = .silent) := by
  rw [← nextAnswer_eq_none_iff]
  unfold pull
  cases s.source.opened <;> cases nextAnswer s.source.beats s.source.tail <;> simp

theorem pull_of_nil {s : State} (hb : s.source.beats = []) (ht : s.source.tail = .silent) :
    pull s = none :=
  (pull_eq_none_iff s).2 fun _ => ⟨hb, ht⟩

theorem close_of_not_opened {s : State} (h : s.source.opened = false) : close s = s := by
  unfold close
  rw [h, Bool.false_or]
  show { s with source := { s.source with opened := false } } = s
  rw [← h]

/-! ### Engine steps in a row -/

@[simp] theorem andThen_next (s : State) (k : State → Host.Outcome State Fault Refusal) :
    andThen (.next s) k = k s := rfl

theorem andThen_eq_next {o : Host.Outcome State Fault Refusal}
    {k : State → Host.Outcome State Fault Refusal} {t : State} (h : andThen o k = .next t) :
    ∃ u, o = .next u ∧ k u = .next t := by
  cases o with
  | next u => exact ⟨u, rfl, h⟩
  | fault f => cases h
  | refused r => cases h

@[simp] theorem stepN_zero (f : State → Host.Outcome State Fault Refusal) (s : State) :
    stepN f 0 s = .next s := rfl

theorem stepN_succ (f : State → Host.Outcome State Fault Refusal) (n : Nat) (s : State) :
    stepN f (n + 1) s = andThen (f s) (stepN f n) := rfl

/-- A state that the step leaves as it is stays for any number of steps. -/
theorem stepN_of_fixed {f : State → Host.Outcome State Fault Refusal} {s : State}
    (h : f s = .next s) (n : Nat) : stepN f n s = .next s := by
  induction n with
  | zero => rfl
  | succ n ih => rw [stepN_succ, h, andThen_next, ih]

/-- Steps in a row, split after the first `m`. -/
theorem stepN_add (f : State → Host.Outcome State Fault Refusal) (m n : Nat) (s : State) :
    stepN f (m + n) s = andThen (stepN f m s) (stepN f n) := by
  induction m generalizing s with
  | zero => rw [Nat.zero_add]; rfl
  | succ m ih =>
    rw [Nat.succ_add, stepN_succ, stepN_succ]
    cases f s with
    | next u => exact ih u
    | fault r => rfl
    | refused r => rfl

/-- What every step keeps, any number of steps keeps. -/
theorem stepN_keeps {f : State → Host.Outcome State Fault Refusal} {P : State → Prop}
    (hf : ∀ s t, P s → f s = .next t → P t) {n : Nat} {s t : State} (hs : P s)
    (h : stepN f n s = .next t) : P t := by
  induction n generalizing s with
  | zero => cases h; exact hs
  | succ n ih =>
    obtain ⟨u, hu, hk⟩ := andThen_eq_next h
    exact ih (hf s u hs hu) hk

end Sys2Proof.Machine
end

