-- ==== Sys2Proof/Laws/Commands.lean ====
section
/-! SUPPORT. What one engine step of each command can do (`44_sequencer.md` R183), said once: the equations
of each case, and for each step the list of its cases. -/

namespace Sys2Proof.Machine

/-! ### ADD -/

/-- The state after the item step of ADD at a slot in range. -/
def addMarked (i : Nat) (s : State) : State :=
  countEmpty (slotVal s i)
    { s with buf := s.buf.write (sel s.cfg i).1
                (slotPut s.cfg (s.buf.read (sel s.cfg i).1) (sel s.cfg i).2 s.a) }

theorem addItem_of_lt {s : State} {i : Nat} (h : i < s.cfg.nslots) :
    addItem i s = .next (addMarked i s) := by
  simp only [addItem, (inRange_iff s.cfg i).2 h, if_true, slotRead_of_lt h, slotWrite_of_lt h,
    addMarked]

theorem addItem_of_not_lt {s : State} {i : Nat} (h : ¬ i < s.cfg.nslots) :
    addItem i s = .next (raise .iaIndex i s) := by
  have : inRange s.cfg i = false := by simp [inRange, h]
  simp only [addItem, this, Bool.false_eq_true, if_false]

theorem addStep_of_ne {s : State} (h : s.phase ≠ .add) : addStep s = .next s := by
  unfold addStep; split
  · contradiction
  · rfl

theorem addStep_of_pull_none {s : State} (h : pull s = none) : addStep s = .next s := by
  unfold addStep; split
  · rw [h]
  · rfl

theorem addStep_of_bad {s t : State} (hp : s.phase = .add) (h : pull s = some (.bad, t)) :
    addStep s = .next (raise .miStream 0 t) := by
  unfold addStep; rw [hp, h]

theorem addStep_of_done {s t : State} (hp : s.phase = .add) (h : pull s = some (.done, t)) :
    addStep s = .next (respond .ok .none t.acc 0 (endStream t)) := by
  unfold addStep; rw [hp, h]

theorem addStep_of_item {s t : State} {i : Nat} (hp : s.phase = .add)
    (h : pull s = some (.item i, t)) : addStep s = addItem i t := by
  unfold addStep; rw [hp, h]

/-- Every case of one engine step of ADD. -/
theorem addStep_cases (s : State) :
    addStep s = .next s ∨
      (s.phase = .add ∧ ∃ b t, pull s = some (b, t) ∧
        ((b = .bad ∧ addStep s = .next (raise .miStream 0 t)) ∨
          (b = .done ∧ addStep s = .next (respond .ok .none t.acc 0 (endStream t))) ∨
          (∃ i, b = .item i ∧ i < t.cfg.nslots ∧ addStep s = .next (addMarked i t)) ∨
          (∃ i, b = .item i ∧ ¬ i < t.cfg.nslots ∧ addStep s = .next (raise .iaIndex i t)))) := by
  by_cases hp : s.phase = .add
  · cases hq : pull s with
    | none => exact .inl (addStep_of_pull_none hq)
    | some q =>
      obtain ⟨b, t⟩ := q
      refine .inr ⟨hp, b, t, rfl, ?_⟩
      cases b with
      | bad => exact .inl ⟨rfl, addStep_of_bad hp hq⟩
      | done => exact .inr (.inl ⟨rfl, addStep_of_done hp hq⟩)
      | item i =>
        by_cases hi : i < t.cfg.nslots
        · exact .inr (.inr (.inl ⟨i, rfl, hi, (addStep_of_item hp hq).trans (addItem_of_lt hi)⟩))
        · exact .inr (.inr (.inr ⟨i, rfl, hi, (addStep_of_item hp hq).trans (addItem_of_not_lt hi)⟩))
  · exact .inl (addStep_of_ne hp)

/-! ### CONTAINS -/

/-- Whether slot `i` passes the window that the latches hold (R148). -/
def passes (s : State) (i : Nat) : Bool :=
  keep (slotVal s i) (windowBound s.cfg s.a) (windowBound s.cfg s.b)

theorem containsItem_of_passes {s : State} {i : Nat} (h : i < s.cfg.nslots) (hp : passes s i = true) :
    containsItem i s = .next s := by
  unfold passes at hp
  simp only [containsItem, (inRange_iff s.cfg i).2 h, if_true, slotRead_of_lt h, hp]

theorem containsItem_of_fails {s : State} {i : Nat} (h : i < s.cfg.nslots) (hp : passes s i = false) :
    containsItem i s = .next (respond .ok .none 0 0 (close s)) := by
  unfold passes at hp
  simp only [containsItem, (inRange_iff s.cfg i).2 h, if_true, slotRead_of_lt h, hp,
    Bool.false_eq_true, if_false]

theorem containsItem_of_not_lt {s : State} {i : Nat} (h : ¬ i < s.cfg.nslots) :
    containsItem i s = .next (raise .iaIndex i s) := by
  have : inRange s.cfg i = false := by simp [inRange, h]
  simp only [containsItem, this, Bool.false_eq_true, if_false]

theorem containsStep_of_ne {s : State} (h : s.phase ≠ .contains) : containsStep s = .next s := by
  unfold containsStep; split
  · contradiction
  · rfl

theorem containsStep_of_pull_none {s : State} (h : pull s = none) : containsStep s = .next s := by
  unfold containsStep; split
  · rw [h]
  · rfl

theorem containsStep_of_bad {s t : State} (hp : s.phase = .contains) (h : pull s = some (.bad, t)) :
    containsStep s = .next (raise .miStream 0 t) := by
  unfold containsStep; rw [hp, h]

theorem containsStep_of_done {s t : State} (hp : s.phase = .contains)
    (h : pull s = some (.done, t)) :
    containsStep s = .next (respond .ok .none 1 0 (endStream t)) := by
  unfold containsStep; rw [hp, h]

theorem containsStep_of_item {s t : State} {i : Nat} (hp : s.phase = .contains)
    (h : pull s = some (.item i, t)) : containsStep s = containsItem i t := by
  unfold containsStep; rw [hp, h]

/-- Every case of one engine step of CONTAINS. -/
theorem containsStep_cases (s : State) :
    containsStep s = .next s ∨
      (s.phase = .contains ∧ ∃ b t, pull s = some (b, t) ∧
        ((b = .bad ∧ containsStep s = .next (raise .miStream 0 t)) ∨
          (b = .done ∧ containsStep s = .next (respond .ok .none 1 0 (endStream t))) ∨
          (∃ i, b = .item i ∧ i < t.cfg.nslots ∧ passes t i = true ∧ containsStep s = .next t) ∨
          (∃ i, b = .item i ∧ i < t.cfg.nslots ∧ passes t i = false ∧
            containsStep s = .next (respond .ok .none 0 0 (close t))) ∨
          (∃ i, b = .item i ∧ ¬ i < t.cfg.nslots ∧
            containsStep s = .next (raise .iaIndex i t)))) := by
  by_cases hp : s.phase = .contains
  · cases hq : pull s with
    | none => exact .inl (containsStep_of_pull_none hq)
    | some q =>
      obtain ⟨b, t⟩ := q
      refine .inr ⟨hp, b, t, rfl, ?_⟩
      cases b with
      | bad => exact .inl ⟨rfl, containsStep_of_bad hp hq⟩
      | done => exact .inr (.inl ⟨rfl, containsStep_of_done hp hq⟩)
      | item i =>
        have he := containsStep_of_item hp hq
        by_cases hi : i < t.cfg.nslots
        · cases hk : passes t i
          · exact .inr (.inr (.inr (.inl ⟨i, rfl, hi, hk, he.trans (containsItem_of_fails hi hk)⟩)))
          · exact .inr (.inr (.inl ⟨i, rfl, hi, hk, he.trans (containsItem_of_passes hi hk)⟩))
        · exact .inr (.inr (.inr (.inr ⟨i, rfl, hi, he.trans (containsItem_of_not_lt hi)⟩)))
  · exact .inl (containsStep_of_ne hp)

/-! ### DECAY -/

/-- The byte that the byte step leaves at an address. -/
def decayedByte (s : State) (address : Nat) : Byte :=
  decayByte s.cfg s.a s.b (s.buf.read address)

/-- The state after the byte step at an address of the buffer. -/
def decayedState (address : Nat) (s : State) : State :=
  { s with
    buf := if decayedByte s address = s.buf.read address then s.buf
           else s.buf.write address (decayedByte s address)
    acc := s.acc + liveInByte s.cfg (decayedByte s address) }

theorem byteStep_of_lt {s : State} {address : Nat} (h : address < s.cfg.len) :
    byteStep address s = .next (decayedState address s) := by
  unfold byteStep memRead memWrite decayedState decayedByte
  simp only [h, if_true]
  split <;> rfl

theorem decayStep_of_ne {s : State} (h : s.phase ≠ .decay) : decayStep s = .next s := by
  unfold decayStep; split
  · contradiction
  · rfl

theorem decayStep_of_lt {s : State} (hp : s.phase = .decay) (h : s.scan < s.cfg.len) :
    decayStep s = .next (advanceScan (decayedState s.scan s)) := by
  unfold decayStep; rw [hp]
  simp only [h, if_true, byteStep_of_lt h, andThen_next]

theorem decayStep_of_not_lt {s : State} (hp : s.phase = .decay) (h : ¬ s.scan < s.cfg.len) :
    decayStep s = .next (respond .ok .none s.acc 0 s) := by
  unfold decayStep; rw [hp]
  simp only [h, if_false]

/-- Every case of one engine step of DECAY. -/
theorem decayStep_cases (s : State) :
    (s.phase ≠ .decay ∧ decayStep s = .next s) ∨
      (s.phase = .decay ∧ s.scan < s.cfg.len ∧
        decayStep s = .next (advanceScan (decayedState s.scan s))) ∨
      (s.phase = .decay ∧ ¬ s.scan < s.cfg.len ∧
        decayStep s = .next (respond .ok .none s.acc 0 s)) := by
  by_cases hp : s.phase = .decay
  · by_cases h : s.scan < s.cfg.len
    · exact .inr (.inl ⟨hp, h, decayStep_of_lt hp h⟩)
    · exact .inr (.inr ⟨hp, h, decayStep_of_not_lt hp h⟩)
  · exact .inl ⟨hp, decayStep_of_ne hp⟩

/-! ### Acceptance -/

theorem tickDefect_none_iff (c : Config) (tick : Byte) :
    tickDefect c tick = none ↔ c.bufValid = true ∧ tick ≠ 0 ∧ tick.toNat ≤ c.tmax := by
  rw [← tickInRing_iff, ← zero_eq_false]
  unfold tickDefect
  cases c.bufValid <;> cases zero tick <;> cases tickInRing c tick <;> simp

theorem windowDefect_none_iff (c : Config) (lo hi : Byte) :
    windowDefect c lo hi = none ↔ c.bufValid = true ∧ lo.toNat ≤ c.tmax ∧ hi.toNat ≤ c.tmax := by
  rw [← tickInRing_iff, ← tickInRing_iff]
  unfold windowDefect
  cases c.bufValid <;> cases tickInRing c lo <;> cases tickInRing c hi <;> simp

theorem tickDefect_ne_none {c : Config} {tick : Byte} {d : Cause} (h : tickDefect c tick = some d) :
    d ≠ .none := by
  rintro rfl
  unfold tickDefect at h
  split at h
  · cases h
  · split at h
    · cases h
    · split at h <;> cases h

theorem windowDefect_ne_none {c : Config} {lo hi : Byte} {d : Cause}
    (h : windowDefect c lo hi = some d) : d ≠ .none := by
  rintro rfl
  unfold windowDefect at h
  split at h
  · cases h
  · split at h
    · cases h
    · split at h <;> cases h

/-- Every case of the pre-checks of ADD. -/
theorem acceptAdd_cases (tick : Byte) (s : State) :
    (∃ c, c ≠ Cause.none ∧ acceptAdd tick s = raise c 0 (latch tick 0 s)) ∨
      (s.cfg.bufValid = true ∧ tick ≠ 0 ∧ tick.toNat ≤ s.cfg.tmax ∧
        acceptAdd tick s = openStream .add (latch tick 0 s)) := by
  unfold acceptAdd
  cases h : tickDefect s.cfg tick with
  | some c => exact .inl ⟨c, tickDefect_ne_none h, rfl⟩
  | none => exact .inr ((tickDefect_none_iff s.cfg tick).1 h |>.imp id fun h => ⟨h.1, h.2, rfl⟩)

/-- Every case of the pre-checks of CONTAINS. -/
theorem acceptContains_cases (lo hi : Byte) (s : State) :
    (∃ c, c ≠ Cause.none ∧ acceptContains lo hi s = raise c 0 (latch lo hi s)) ∨
      (s.cfg.bufValid = true ∧ lo.toNat ≤ s.cfg.tmax ∧ hi.toNat ≤ s.cfg.tmax ∧
        acceptContains lo hi s = openStream .contains (latch lo hi s)) := by
  unfold acceptContains
  cases h : windowDefect s.cfg lo hi with
  | some c => exact .inl ⟨c, windowDefect_ne_none h, rfl⟩
  | none => exact .inr ((windowDefect_none_iff s.cfg lo hi).1 h |>.imp id fun h => ⟨h.1, h.2, rfl⟩)

/-- Every case of the pre-checks of DECAY. -/
theorem acceptDecay_cases (lo hi : Byte) (s : State) :
    (∃ c, c ≠ Cause.none ∧ acceptDecay lo hi s = raise c 0 (latch lo hi s)) ∨
      (s.cfg.bufValid = true ∧ lo.toNat ≤ s.cfg.tmax ∧ hi.toNat ≤ s.cfg.tmax ∧
        acceptDecay lo hi s = startScan (latch lo hi s)) := by
  unfold acceptDecay
  cases h : windowDefect s.cfg lo hi with
  | some c => exact .inl ⟨c, windowDefect_ne_none h, rfl⟩
  | none => exact .inr ((windowDefect_none_iff s.cfg lo hi).1 h |>.imp id fun h => ⟨h.1, h.2, rfl⟩)

/-! ### The machine step -/

/-- Every case of one step of the machine. -/
theorem step_cases (s : State) :
    (∃ rest, s.host = .reset :: rest ∧ step s = .next (hostReset (dropEvent s))) ∨
      (s.phase = .idle ∧ ∃ w beats tail rest, s.host = .command w beats tail :: rest ∧
        step s = runWord w (present beats tail (dropEvent s))) ∨
      (s.phase = .idle ∧ ∃ w beats tail n rest, s.host = .commandCut w beats tail n :: rest ∧
        step s = cutCommand w n (present beats tail (dropEvent s))) ∨
      ((s.phase ≠ .idle ∨ s.host = []) ∧ (∀ rest, s.host ≠ .reset :: rest) ∧
        step s = continueCommand s) := by
  unfold step machineStep
  cases hh : s.host with
  | nil => exact .inr (.inr (.inr ⟨.inr rfl, by simp, rfl⟩))
  | cons e rest =>
    cases e with
    | reset => exact .inl ⟨rest, rfl, rfl⟩
    | command w beats tail =>
      by_cases hp : s.phase = .idle
      · exact .inr (.inl ⟨hp, w, beats, tail, rest, rfl, by simp [hp]⟩)
      · exact .inr (.inr (.inr ⟨.inl hp, by simp, by simp [hp]⟩))
    | commandCut w beats tail n =>
      by_cases hp : s.phase = .idle
      · exact .inr (.inr (.inl ⟨hp, w, beats, tail, n, rest, rfl, by simp [hp]⟩))
      · exact .inr (.inr (.inr ⟨.inl hp, by simp, by simp [hp]⟩))

end Sys2Proof.Machine
end

