-- ==== Sys2Proof/Laws/Memory.lean ====
section
/-! SUPPORT. The laws of the Slot Buffer's memory: read after write, and the canonical form. The read laws
hold of every list, canonical or not. -/

namespace Sys2Proof.Machine

theorem Memory.not_mem_erase (m : Memory) (a : Nat) : ∀ c ∈ m.erase a, c.1 ≠ a := by
  intro c hc
  simpa using (List.mem_filter.1 hc).2

theorem Memory.mem_of_mem_erase {m : Memory} {a : Nat} {c : Host.Cell} (h : c ∈ m.erase a) : c ∈ m :=
  (List.mem_filter.1 h).1

theorem Memory.read_erase (m : Memory) (a x : Nat) :
    (m.erase a).read x = if x = a then 0 else m.read x := by
  induction m with
  | nil => simp [Memory.erase, Memory.read]
  | cons c rest ih =>
    obtain ⟨y, w⟩ := c
    by_cases hy : y = a
    · subst hy
      have : Memory.erase ((y, w) :: rest) y = Memory.erase rest y := by simp [Memory.erase]
      rw [this, ih]
      by_cases hx : x = y
      · simp [hx]
      · simp [hx, Memory.read, Ne.symm hx]
    · have : Memory.erase ((y, w) :: rest) a = (y, w) :: Memory.erase rest a := by
        simp [Memory.erase, hy]
      rw [this, Memory.read, ih, Memory.read]
      by_cases hx : y = x
      · subst hx; simp [hy]
      · simp [hx]

theorem Memory.read_insert (m : Memory) (a x : Nat) (v : Byte) (h : ∀ c ∈ m, c.1 ≠ a) :
    (m.insert a v).read x = if x = a then v else m.read x := by
  induction m with
  | nil => simp [Memory.insert, Memory.read, eq_comm]
  | cons c rest ih =>
    obtain ⟨y, w⟩ := c
    have hy : y ≠ a := h (y, w) List.mem_cons_self
    have ih := ih fun c hc => h c (List.mem_cons_of_mem _ hc)
    unfold Memory.insert
    split
    · by_cases hx : a = x
      · simp [Memory.read, hx]
      · simp [Memory.read, hx, Ne.symm hx]
    · rw [Memory.read, ih, Memory.read]
      by_cases hx : y = x
      · subst hx; simp [hy]
      · simp [hx]

/-- Reading after a write: the byte written at its address, every other byte as before. -/
theorem Memory.read_write (m : Memory) (a x : Nat) (v : Byte) :
    (m.write a v).read x = if x = a then v else m.read x := by
  unfold Memory.write
  split
  · rename_i hv
    rw [Memory.read_erase, hv]
  · rw [Memory.read_insert _ _ _ _ (Memory.not_mem_erase m a), Memory.read_erase]
    by_cases hx : x = a <;> simp [hx]

theorem Memory.mem_insert {m : Memory} {a : Nat} {v : Byte} {c : Host.Cell}
    (h : c ∈ m.insert a v) : c = (a, v) ∨ c ∈ m := by
  induction m with
  | nil => simpa [Memory.insert] using h
  | cons d rest ih =>
    obtain ⟨y, w⟩ := d
    unfold Memory.insert at h
    split at h
    · simpa using h
    · rcases List.mem_cons.1 h with h | h
      · exact .inr (h ▸ List.mem_cons_self)
      · exact (ih h).imp id (List.mem_cons_of_mem _)

/-- A write lists no address but its own and those listed before. -/
theorem Memory.mem_write {m : Memory} {a : Nat} {v : Byte} {c : Host.Cell} (h : c ∈ m.write a v) :
    c.1 = a ∨ c ∈ m := by
  unfold Memory.write at h
  split at h
  · exact .inr (Memory.mem_of_mem_erase h)
  · rcases Memory.mem_insert h with h | h
    · exact .inl (by rw [h])
    · exact .inr (Memory.mem_of_mem_erase h)

/-- The canonical form of a list with a first cell. -/
theorem Memory.wf_cons (y : Nat) (w : Byte) (rest : Memory) :
    Memory.wf ((y, w) :: rest) = true ↔ w ≠ 0 ∧ (∀ c ∈ rest, y < c.1) ∧ rest.wf = true := by
  simp [Memory.wf, and_assoc]

theorem Memory.wf_erase {m : Memory} (a : Nat) (h : m.wf = true) : (m.erase a).wf = true := by
  induction m with
  | nil => rfl
  | cons c rest ih =>
    obtain ⟨y, w⟩ := c
    obtain ⟨hw, hlt, hr⟩ := (Memory.wf_cons y w rest).1 h
    by_cases hy : y = a
    · have : Memory.erase ((y, w) :: rest) a = Memory.erase rest a := by simp [Memory.erase, hy]
      rw [this]; exact ih hr
    · have : Memory.erase ((y, w) :: rest) a = (y, w) :: Memory.erase rest a := by
        simp [Memory.erase, hy]
      rw [this, Memory.wf_cons]
      exact ⟨hw, fun c hc => hlt c (Memory.mem_of_mem_erase hc), ih hr⟩

theorem Memory.wf_insert {m : Memory} {a : Nat} {v : Byte} (hv : v ≠ 0) (h : m.wf = true)
    (ha : ∀ c ∈ m, c.1 ≠ a) : (m.insert a v).wf = true := by
  induction m with
  | nil => exact (Memory.wf_cons a v []).2 ⟨hv, by simp, rfl⟩
  | cons c rest ih =>
    obtain ⟨y, w⟩ := c
    obtain ⟨hw, hlt, hr⟩ := (Memory.wf_cons y w rest).1 h
    unfold Memory.insert
    split
    · rename_i hay
      rw [Memory.wf_cons]
      refine ⟨hv, fun c hc => ?_, h⟩
      rcases List.mem_cons.1 hc with hc | hc
      · rw [hc]; exact hay
      · exact Nat.lt_trans hay (hlt c hc)
    · rename_i hay
      have hya : y ≠ a := ha (y, w) List.mem_cons_self
      rw [Memory.wf_cons]
      refine ⟨hw, fun c hc => ?_, ih hr fun c hc => ha c (List.mem_cons_of_mem _ hc)⟩
      rcases Memory.mem_insert hc with hc | hc
      · rw [hc]; exact by omega
      · exact hlt c hc

/-- Every write keeps the canonical form. -/
theorem Memory.wf_write {m : Memory} (a : Nat) (v : Byte) (h : m.wf = true) :
    (m.write a v).wf = true := by
  unfold Memory.write
  split
  · exact Memory.wf_erase a h
  · exact Memory.wf_insert ‹_› (Memory.wf_erase a h) (Memory.not_mem_erase m a)

/-- The reset memory is in canonical form. -/
theorem Memory.wf_reset : State.reset.buf.wf = true := rfl

end Sys2Proof.Machine
end

