-- ==== Sys2Proof/Laws/PerInstr.lean ====
section
/-! SUPPORT. What is said of every instruction one constructor at a time: its command word carries its
operands in the fields of R86 and nothing outside them. -/

namespace Sys2Proof

theorem fieldA_toNat (w : Word) : (fieldA w).toNat = w.toNat % 256 := by
  simp [fieldA]

theorem fieldB_toNat (w : Word) : (fieldB w).toNat = w.toNat / 256 % 256 := by
  simp [fieldB, Nat.shiftRight_eq_div_pow]

theorem fieldOp_toNat (w : Word) : (fieldOp w).toNat = w.toNat / 65536 % 4 := by
  simp [fieldOp, Nat.shiftRight_eq_div_pow]

theorem fieldZero_toNat (w : Word) : (fieldZero w).toNat = w.toNat / 262144 := by
  have := w.isLt
  simp [fieldZero, Nat.shiftRight_eq_div_pow]
  omega

/-- The value of a word in format `C` (R95). -/
theorem formatC_toNat (op : BitVec 2) (b a : Byte) :
    (formatC op b a).toNat = op.toNat * 65536 + b.toNat * 256 + a.toNat := by
  have h1 := op.isLt
  have h2 := b.isLt
  have h3 := a.isLt
  simp only [formatC, BitVec.toNat_append]
  rw [← Nat.shiftLeft_add_eq_or_of_lt (by omega), ← Nat.shiftLeft_add_eq_or_of_lt (by omega),
    ← Nat.shiftLeft_add_eq_or_of_lt (by omega)]
  simp [Nat.shiftLeft_eq]
  omega

/-- The fields of a word in format `C`. -/
theorem fields_formatC (op : BitVec 2) (b a : Byte) :
    fieldZero (formatC op b a) = 0 ∧ fieldOp (formatC op b a) = op ∧
      fieldB (formatC op b a) = b ∧ fieldA (formatC op b a) = a := by
  have h1 := op.isLt
  have h2 := b.isLt
  have h3 := a.isLt
  refine ⟨?_, ?_, ?_, ?_⟩ <;> apply BitVec.eq_of_toNat_eq
  · rw [fieldZero_toNat, formatC_toNat, show (0 : BitVec 14).toNat = 0 from rfl]; omega
  · rw [fieldOp_toNat, formatC_toNat]; omega
  · rw [fieldB_toNat, formatC_toNat]; omega
  · rw [fieldA_toNat, formatC_toNat]; omega

/-- The word of an instruction carries its operands in fields `A` and `B`, an `OP` that is not reserved,
and an empty `ZERO` field (R86 to R88). -/
def Laws.OperandFields.Statement (i : Instr) : Prop :=
  fieldZero (encode i) = 0 ∧ fieldOp (encode i) ≠ 0 ∧
    fieldB (encode i) = Machine.operandB i ∧ fieldA (encode i) = Machine.operandA i

theorem Laws.OperandFields.add (tick : Byte) : Laws.OperandFields.Statement (.add tick) := by
  obtain ⟨h1, h2, h3, h4⟩ := fields_formatC 1 0 tick
  exact ⟨h1, by rw [encode, h2]; decide, h3, h4⟩

theorem Laws.OperandFields.contains (tickMin tickMax : Byte) :
    Laws.OperandFields.Statement (.contains tickMin tickMax) := by
  obtain ⟨h1, h2, h3, h4⟩ := fields_formatC 2 tickMax tickMin
  exact ⟨h1, by rw [encode, h2]; decide, h3, h4⟩

theorem Laws.OperandFields.decay (tickMin tickMax : Byte) :
    Laws.OperandFields.Statement (.decay tickMin tickMax) := by
  obtain ⟨h1, h2, h3, h4⟩ := fields_formatC 3 tickMax tickMin
  exact ⟨h1, by rw [encode, h2]; decide, h3, h4⟩

end Sys2Proof
end

