-- ==== Sys2Proof/Laws/Streams.lean ====
section
/-! SUPPORT. The answers of an index stream, one by one (`44_sequencer.md` R184, R187): what a pull takes of
them, and where they end. -/

namespace Sys2Proof.Machine

theorem answerAt_zero (beats : List BeatWord) (tail : Tail) :
    answerAt beats tail 0 = (nextAnswer beats tail).map fun answer => answer.1 := rfl

theorem answerAt_succ {beats rest : List BeatWord} {tail tail' : Tail} {w : BeatWord}
    (h : nextAnswer beats tail = some (w, rest, tail')) (n : Nat) :
    answerAt beats tail (n + 1) = answerAt rest tail' n := by
  simp only [answerAt, h]

/-- An answered pull takes answer number `0`; the others move up by one. -/
theorem pull_answers {s t : State} {b : Beat} (h : pull s = some (b, t)) :
    t.source.opened = true ∧ t.source.pulls = s.source.pulls + 1 ∧
      (∃ w, answerAt s.source.beats s.source.tail 0 = some w ∧ b = decodeBeat s.cfg.iw w) ∧
      ∀ n, answerAt s.source.beats s.source.tail (n + 1) = answerAt t.source.beats t.source.tail n := by
  obtain ⟨ho, w, rest, tail, hn, hb, rfl⟩ := pull_some h
  exact ⟨ho, rfl, ⟨w, by simp [answerAt_zero, hn], hb⟩, fun n => answerAt_succ hn n⟩

/-- A stream whose tail is not silent answers every pull. -/
theorem answerAt_endless {tail : Tail} (ht : tail ≠ .silent) (beats : List BeatWord) (n : Nat) :
    (answerAt beats tail n).isSome = true := by
  have next : ∀ (bs : List BeatWord) (tl : Tail), tl ≠ .silent →
      ∃ w rest tl', nextAnswer bs tl = some (w, rest, tl') ∧ tl' ≠ .silent := by
    intro bs tl h
    cases bs with
    | cons w rest => exact ⟨w, rest, tl, rfl, h⟩
    | nil =>
      cases tl with
      | silent => exact absurd rfl h
      | cycle w rest => exact ⟨w, rest, _, rfl, h⟩
      | free stream position => exact ⟨_, _, _, rfl, by simp⟩
  induction n generalizing beats tail with
  | zero =>
    obtain ⟨w, rest, tl, h, _⟩ := next beats tail ht
    simp [answerAt_zero, h]
  | succ n ih =>
    obtain ⟨w, rest, tl, h, h'⟩ := next beats tail ht
    rw [answerAt_succ h]
    exact ih h' rest

/-- A stream that falls silent answers its listed beats and no more. -/
theorem answerAt_silent (beats : List BeatWord) (n : Nat) : answerAt beats .silent n = beats[n]? := by
  induction n generalizing beats with
  | zero => cases beats <;> rfl
  | succ n ih =>
    cases beats with
    | nil => rfl
    | cons w rest => rw [answerAt_succ (nextAnswer_cons w rest .silent), ih, List.getElem?_cons_succ]

/-- The listed beats are the first answers. -/
theorem answerAt_of_lt {beats : List BeatWord} {n : Nat} (h : n < beats.length) (tail : Tail) :
    answerAt beats tail n = some beats[n] := by
  induction n generalizing beats with
  | zero => cases beats with
    | nil => simp at h
    | cons w rest => rfl
  | succ n ih =>
    cases beats with
    | nil => simp at h
    | cons w rest =>
      rw [answerAt_succ (nextAnswer_cons w rest tail), ih (by simpa using h), List.getElem_cons_succ]

/-- Every pull that one step of the machine makes is answered. -/
theorem answerAt_of_lt_burst {src : Source} {n : Nat} (h : n < burst src) :
    (answerAt src.beats src.tail n).isSome = true := by
  by_cases ht : src.tail = .silent
  · have hl : n < src.beats.length := by simpa [burst, ht, lap] using h
    rw [answerAt_of_lt hl]; rfl
  · exact answerAt_endless ht _ _

end Sys2Proof.Machine
end

