-- ==== Sys2Proof/Tests/Slice0.lean ====
section
/-! SUPPORT. Tests. Expected values are those of `95_test_vectors.md` or of the rule named; words are written
out from the bit layout of R86 and R90. The last section shows, for each statement with hypotheses, concrete
values that meet them. -/

namespace Sys2Proof.Tests

open Sys2Proof Sys2Proof.Machine

/-! ### Helpers -/

/-- An ENC8 engine of `n` bytes with 4-bit indexes. -/
def c8 (n : Nat) : Config := { enc := .enc8, len := n, iw := 4, bufValid := true, lanes := 1 }

/-- An ENC4 engine of `n` bytes with 4-bit indexes and two lanes. -/
def c4 (n : Nat) : Config := { enc := .enc4, len := n, iw := 4, bufValid := true, lanes := 2 }

/-- An idle engine with a buffer and a stream made ready. -/
def at_ (c : Config) (m : Memory) (beats : List BeatWord) : State :=
  present beats .silent { State.resetWith c with buf := m }

/-- What a test looks at: buffer, response, pulls, `Close()`. -/
def seen (o : Host.Outcome State Fault Refusal) : Option (Memory × Response × Nat × Bool) :=
  (nextOf o).map fun t => (t.buf, t.rsp, t.source.pulls, t.source.closed)

/-! ### Well-formedness refuses -/

theorem test_wf_config : (c8 4).wf = true ∧ (c4 2).wf = true := by decide

/-- R9: 16 slots leave no out-of-range index of 4 bits. -/
theorem test_illformed_iw : (c8 16).wf = false ∧ (c4 8).wf = false := by decide

/-- R11: at least one lane. -/
theorem test_illformed_lanes : ({ c8 4 with lanes := 0 } : Config).wf = false := by decide

theorem test_illformed_add_zero : (Instr.add 0).wf (c8 4) = false := by decide

theorem test_illformed_add_range :
    (Instr.add 16).wf (c4 2) = false ∧ (Instr.add 15).wf (c4 2) = true := by decide

theorem test_illformed_contains :
    (Instr.contains 16 3).wf (c4 2) = false ∧ (Instr.contains 3 16).wf (c4 2) = false := by decide

theorem test_illformed_decay :
    (Instr.decay 16 3).wf (c4 2) = false ∧ (Instr.decay 3 16).wf (c4 2) = false := by decide

theorem test_illformed_beat : (Beat.item 16).wf 4 = false ∧ (Beat.item 15).wf 4 = true := by decide

theorem test_illformed_beat_word : BeatWord.wf 4 64 = false ∧ BeatWord.wf 4 63 = true := by decide

/-! ### Decoding -/

/-- `ZERO` 0, `OP` 01, `B` 0, `A` 00000101. -/
theorem test_decode_add :
    decode 0b00000000000000_01_00000000_00000101#32 = .ok (.add 5) := by decide

/-- `A` = 250, `B` = 3. -/
theorem test_decode_contains :
    decode 0b00000000000000_10_00000011_11111010#32 = .ok (.contains 250 3) := by decide

/-- `A` = 6, `B` = 10. -/
theorem test_decode_decay :
    decode 0b00000000000000_11_00001010_00000110#32 = .ok (.decay 6 10) := by decide

/-- The illegal words of program P6. -/
theorem test_decode_illegal :
    decode 0x00000000#32 = .error .opReserved ∧ decode 0x00000005#32 = .error .opReserved ∧
      decode 0x00010105#32 = .error .addOperandB ∧ decode 0x00040005#32 = .error .zeroFieldSet ∧
      decode 0x80020A00#32 = .error .zeroFieldSet ∧ decode 0xFFFFFFFF#32 = .error .zeroFieldSet := by
  decide

theorem test_decode_table_word :
    decodeTableWord 32 0x000203FA = some (.contains 250 3) ∧
      decodeTableWord 32 0x00010105 = none := by decide

/-- R90: `KIND` 00, 01, 10 and the reserved 11 above a 4-bit `IDX`. -/
theorem test_decode_beats :
    decodeBeat 4 0b00_1101 = .item 13 ∧ decodeBeat 4 0b01_1111 = .done ∧
      decodeBeat 4 0b10_0000 = .bad ∧ decodeBeat 4 0b11_0011 = .bad := by decide

/-! ### Units -/

/-- Table 2.1. -/
theorem test_sel : sel (c4 4) 6 = (3, true) ∧ sel (c4 4) 7 = (3, false) := by decide

/-- Table 2.3. -/
theorem test_nibPut :
    nibPut 0xA3 true 0xF = 0xF3 ∧ nibPut 0xA3 false 0 = 0xA0 ∧ nibPut 0xF9 false 4 = 0xF4 := by decide

/-- Table 2.5: `0` is fresh in a wrapping window and is not kept; the lower bound is excluded. -/
theorem test_fresh :
    fresh 252 250 3 = true ∧ fresh 10 250 3 = false ∧ fresh 250 250 3 = false ∧
      fresh 3 250 3 = true ∧ fresh 0 250 3 = true ∧ keep 0 250 3 = false ∧ fresh 7 7 7 = false := by
  decide

/-- Table 2.7. -/
theorem test_cw : (c8 0).cw = 1 ∧ (c8 8).cw = 4 ∧ (c8 255).cw = 8 ∧ (c8 256).cw = 9 ∧ (c4 2).cw = 3 := by
  decide

/-- Section 3.3: the response of P4 step 1 packs to `0x709`, whatever `IW`. -/
theorem test_packed : (faultResponse .iaIndex 7).packed (c4 2) = 0x709 := by decide

/-- Rewriting a byte with `0x00` takes its entry away. -/
theorem test_memory_canonical :
    Memory.write [(1, 5), (3, 7)] 2 9 = [(1, 5), (2, 9), (3, 7)] ∧
      Memory.write [(1, 5), (3, 7)] 3 0 = [(1, 5)] := by decide

/-! ### Commands -/

/-- S2, ENC4, `LEN = 4`: `add([7,3,5], tick=9)`. -/
theorem test_add : seen (exec (.add 9) (at_ (c4 4) [] [7, 3, 5, 16])) =
    some ([(1, 9), (2, 9), (3, 9)], okResponse 3, 4, false) := by decide

/-- P4 step 1: `add([1,3,7,0], tick=9) -> fault(IA_INDEX, 7)`, `BUF = [09 09]`. -/
theorem test_add_fault : seen (exec (.add 9) (at_ (c4 2) [] [1, 3, 7, 0, 16])) =
    some ([(0, 9), (1, 9)], faultResponse .iaIndex 7, 3, true) := by decide

/-- P3 step 5: the third slot is outside `(250, 3]`. -/
theorem test_contains :
    seen (exec (.contains 250 3) (at_ (c8 4) [(0, 0xFC), (1, 1), (2, 10)] [0, 1, 2, 16])) =
      some ([(0, 0xFC), (1, 1), (2, 10)], okResponse 0, 3, true) := by decide

/-- P5 step 6: `BUF = [10 7F]`, `contains([3,2], 14, 7) -> true`. -/
theorem test_contains_enc4 :
    seen (exec (.contains 14 7) (at_ (c4 2) [(0, 0x10), (1, 0x7F)] [3, 2, 16])) =
      some ([(0, 0x10), (1, 0x7F)], okResponse 1, 3, false) := by decide

/-- R187 with R149: on the endless stream 0, 2, 2, ... of occupied fresh slots CONTAINS still runs after a
stretch of it; on 0, 3, 0, 3, ... it ends at slot 3, which is empty. -/
theorem test_contains_endless :
    (nextOf (exec (.contains 3 10) (present [0] (.cycle 2 []) (at_ (c8 4) [(0, 4), (2, 10)] [])))).map
        State.phase = some .contains ∧
      seen (exec (.contains 3 10) (present [] (.cycle 0 [3]) (at_ (c8 4) [(0, 4), (2, 10)] []))) =
        some ([(0, 4), (2, 10)], okResponse 0, 2, true) := by decide

/-- P3 step 8. -/
theorem test_decay : seen (exec (.decay 250 3) (at_ (c8 4) [(0, 0xFC), (1, 1), (2, 10)] [])) =
    some ([(0, 0xFC), (1, 1)], okResponse 2, 0, false) := by decide

/-- The bytes of R164's example, window `(2, 5]`: `56 27 34 05` becomes `50 00 34 05`, count 4. -/
theorem test_decay_enc4 :
    seen (exec (.decay 2 5) (at_ (c4 4) [(0, 0x56), (1, 0x27), (2, 0x34), (3, 0x05)] [])) =
      some ([(0, 0x50), (2, 0x34), (3, 0x05)], okResponse 4, 0, false) := by decide

/-- The bytes of `test_decay_enc4` scanned by two lanes, interleaved out of order: the count is 4 again. -/
theorem test_decay_interleaved :
    (nextOf (interleavedScan [(1, 3), (0, 1), (1, 0), (0, 2)] [0, 0]
        (acceptInstr (.decay 2 5) (at_ (c4 4) [(0, 0x56), (1, 0x27), (2, 0x34), (3, 0x05)] [])))).map
      (fun t => (t.buf, t.acc)) = some ([(0, 0x50), (2, 0x34), (3, 0x05)], 4) := by decide

/-- P6 step 4: an illegal word. -/
theorem test_step_illegal :
    seen (step { State.resetWith (c8 2) with host := [.command 0x00010105#32 [0, 16] .silent] }) =
      some ([], faultResponse .iaCommand 0, 0, false) := by decide

/-- The first instruction after reset, placed as the host places it: R231, ADD and DECAY count `0`. -/
theorem test_step_reset :
    seen (step (State.reset.withFetchWord 32 0x00010005)) = some ([], okResponse 0, 1, false) ∧
      seen (step (State.reset.withFetchWord 32 0x00030A06)) = some ([], okResponse 0, 0, false) := by
  decide

/-- R230: the reset event empties the store. -/
theorem test_step_reset_event :
    seen (step { at_ (c8 4) [(2, 10)] [] with host := [.reset] }) =
      some ([], Response.zero, 0, false) := by decide

/-! ### Values that meet the hypotheses of the statements -/

/-- Slots 4, 0, 10, 0 in ENC8. -/
def s8 (beats : List BeatWord) : State := at_ (c8 4) [(0, 4), (2, 10)] beats

/-- Slots 5, 0, 0, 9 in ENC4. -/
def s4 (beats : List BeatWord) : State := at_ (c4 2) [(0, 0x50), (1, 0x09)] beats

/-- A state that runs a command whose stream is open. -/
def running (p : Phase) (a b : Byte) (s : State) : State := openStream p (latch a b s)

theorem witness_DecodeRejectsExactlyTheIllegalWords :
    IllegalWord 0x0001FF00#32 ∧ decode 0x0003FFFF#32 = .ok (.decay 255 255) := by
  unfold IllegalWord; decide

theorem witness_BeatFieldsDecode :
    3 < 4 ∧ 15 < 2 ^ 4 ∧ (Beat.item 15).wf 4 = true ∧ Beat.done.wf 4 = true ∧ Beat.bad.wf 4 = true := by
  decide

theorem witness_PackedResponseHoldsItsFields :
    (okResponse 7).value < 2 ^ (c4 2).cw ∧ (faultResponse .iaIndex 15).info < 2 ^ (c4 2).iw := by decide

theorem witness_SelIsABijection :
    3 < (c8 4).nslots ∧ (c8 4).enc = .enc8 ∧ 3 < (c8 4).len ∧
      3 < (c4 2).nslots ∧ (c4 2).enc = .enc4 ∧ 1 < (c4 2).len := by decide

/-- Slots 2 and 3 share byte 1 in ENC4, the even one in its high half. -/
theorem witness_SlotsLieInTheirBytes :
    3 < (s8 []).cfg.nslots ∧ (s8 []).cfg.enc = .enc8 ∧ 3 < (s4 []).cfg.nslots ∧
      (s4 []).cfg.enc = .enc4 ∧ 2 % 2 = 0 ∧ 3 % 2 = 1 := by decide

theorem witness_SlotReadAfterSlotWrite :
    3 < (s8 []).cfg.nslots ∧ (255 : Byte).toNat ≤ (s8 []).cfg.tmax ∧
      3 < (s4 []).cfg.nslots ∧ (15 : Byte).toNat ≤ (s4 []).cfg.tmax := by decide

/-- Slot 2 is the other nibble of slot 3's byte; byte 0 is another byte. -/
theorem witness_SlotWriteKeepsEveryOtherSlot :
    3 < (s4 []).cfg.nslots ∧ 2 ≠ 3 ∧ (sel (s4 []).cfg 2).1 = (sel (s4 []).cfg 3).1 ∧
      0 ≠ (sel (s4 []).cfg 3).1 := by decide

theorem witness_FreshFollowsTheWindow :
    (4 : Byte).toNat < (5 : Byte).toNat ∧ (3 : Byte).toNat < (250 : Byte).toNat ∧
      (7 : Byte).toNat = (7 : Byte).toNat := by decide

theorem witness_FreshIsOneModularInequality :
    (0 : Byte).toNat ≤ (c4 2).tmax ∧ (15 : Byte).toNat ≤ (c4 2).tmax ∧ (255 : Byte).toNat ≤ (c8 4).tmax := by
  decide

theorem witness_FreshAtItsBounds :
    (15 : Byte).toNat ≤ (c4 2).tmax ∧ (0 : Byte).toNat ≤ (c4 2).tmax ∧ (15 : Byte).toNat ≤ (c8 4).tmax ∧
      (0 : Byte).toNat ≤ (c8 4).tmax ∧ (15 : Byte) ≠ 0 := by decide

theorem witness_WindowAdmitsItsSize :
    (0 : Byte).toNat ≤ (c4 2).tmax ∧ (15 : Byte).toNat ≤ (c4 2).tmax := by decide

theorem witness_ResetSatisfiesTheInvariant : (c8 15).wf = true ∧ (c4 7).wf = true := by decide

theorem witness_ResetEventAbandonsTheCommand :
    ({ running .add 5 0 (s8 [1]) with host := [.reset] } : State).host = .reset :: [] := rfl

/-- Cut before its first beat, and cut after its response. -/
theorem witness_ResetDuringACommand :
    (s8 []).phase = .idle ∧
      (nextOf (stepN engineStep 0 (acceptWord 0x00010005#32 (present [1, 16] .silent (s8 []))))).map
        State.phase = some .add ∧
      (nextOf (stepN engineStep 2 (acceptWord 0x00010005#32 (present [1, 16] .silent (s8 []))))).map
        State.phase = some .idle := by decide

/-- An ADD of tick 9 that has marked slot 3 and waits. -/
def waiting : State :=
  { running .add 9 0 (at_ (c4 2) [(1, 0x09)] []) with acc := 1, sent := [okResponse 4] }

/-- A DECAY that has passed byte 0. -/
def scanning : State :=
  { startScan (latch 2 9 (s4 [])) with acc := 1, scan := 1, rsp := faultResponse .iaIndex 15 }

theorem legal_reset (c : Config) : Response.zero.Legal c :=
  ⟨rfl, by simp [Response.zero], by simp [Response.zero], fun h => absurd rfl h, fun _ => rfl⟩

theorem waiting_inv : Inv waiting where
  config := by decide
  canonical := by decide
  inBuffer := by decide
  accBound := by decide
  scanBound := by decide
  checked := by decide
  adding := by decide
  scanning := by decide
  stream := by decide
  response := legal_reset _
  delivered := by
    intro r hr
    have hr : r = okResponse 4 := by simpa [waiting] using hr
    subst hr
    exact ⟨rfl, by decide, by decide, fun h => absurd rfl h, fun _ => rfl⟩

theorem scanning_inv : Inv scanning where
  config := by decide
  canonical := by decide
  inBuffer := by decide
  accBound := by decide
  scanBound := by decide
  checked := by decide
  adding := by decide
  scanning := by decide
  stream := by decide
  response := ⟨rfl, by decide, by decide, fun _ => rfl, fun h => absurd rfl h⟩
  delivered := by intro r hr; simp [scanning, s4, at_, State.resetWith, startScan, latch, present] at hr

theorem witness_StepKeepsTheInvariant :
    (Inv waiting ∧ ∃ t, step waiting = .next t) ∧ (Inv scanning ∧ ∃ t, step scanning = .next t) :=
  ⟨⟨waiting_inv, _, rfl⟩, scanning_inv, _, rfl⟩

theorem witness_NoStepChangesTheConfiguration :
    ∃ t, step { s8 [] with host := [.command 0x00030A06#32 [] .silent] } = .next t := ⟨_, rfl⟩

theorem witness_StepRunsTheDecodedInstruction :
    (s8 []).phase = .idle ∧ decode 0x0002FF00#32 = .ok (.contains 0 255) ∧
      decodeTableWord 32 0x00010005 = some (.add 5) := by decide

theorem witness_IllegalWordFaultsAtOnce : (s8 []).phase = .idle ∧ IllegalWord 0x00040005#32 := by
  unfold IllegalWord; decide

theorem witness_BusyEngineAcceptsNothing :
    ready waiting = false ∧ (∀ rest, waiting.host ≠ .reset :: rest) ∧ ∃ t, step waiting = .next t :=
  ⟨by decide, (fun rest h => by cases h), _, rfl⟩

/-- With `END` the response comes; without it the command waits, and on an endless stream it still runs. -/
theorem witness_OneResponseForEachAcceptedWord :
    (s8 []).phase = .idle ∧
      (nextOf (step { s8 [] with host := [.command 0x00010005#32 [1, 16] .silent] })).map State.phase =
        some .idle ∧
      (nextOf (step { s8 [] with host := [.command 0x00010005#32 [1] .silent] })).map State.phase =
        some .add ∧
      (nextOf (step { s8 [] with host := [.command 0x00010005#32 [1] (.cycle 2 [0])] })).map
        (fun t => (t.phase, t.source.pulls)) = some (.add, 3) := by decide

/-- Beats: item 3 (the last slot), `END`, `BAD`, item 4 (the first out of range); a beat that is listed, and
one of an endless stream. -/
theorem witness_RunningPhaseTransitions_add :
    (running .add 5 0 (s8 [3])).phase = .add ∧ (running .add 5 0 (s8 [3])).source.opened = true ∧
      nextAnswer [3] .silent = some (3, [], .silent) ∧
      nextAnswer [] (.cycle 16 [3]) = some (16, [3], .cycle 16 [3]) ∧
      decodeBeat 4 3 = .item 3 ∧ 3 < (c8 4).nslots ∧ decodeBeat 4 16 = .done ∧
      decodeBeat 4 32 = .bad ∧ decodeBeat 4 4 = .item 4 ∧ (c8 4).nslots ≤ 4 := by decide

theorem witness_RunningPhaseTransitions_contains :
    (running .contains 3 10 (s8 [2])).phase = .contains ∧
      (running .contains 3 10 (s8 [2])).source.opened = true ∧
      keep (slotVal (s8 []) 2) (windowBound (c8 4) 3) (windowBound (c8 4) 10) = true ∧
      keep (slotVal (s8 []) 3) (windowBound (c8 4) 3) (windowBound (c8 4) 10) = false := by decide

theorem witness_RunningPhaseTransitions_decay :
    scanning.phase = .decay ∧ scanning.scan < scanning.cfg.len ∧
      ({ scanning with scan := 2 } : State).cfg.len ≤ 2 := by decide

theorem witness_InstructionIsItsEngineSteps :
    (s8 [1, 16]).phase = .idle ∧ (s8 [1, 16]).source.tail = .silent ∧
      (s8 [1, 16]).source.beats.length ≤ 5 ∧ (s8 [1, 16]).cfg.len + 1 ≤ 5 ∧
      waiting.phase = .add ∧ (∀ rest, waiting.host ≠ .reset :: rest) ∧
      scanning.phase = .decay ∧ (∀ rest, scanning.host ≠ .reset :: rest) :=
  ⟨by decide, by decide, by decide, by decide, by decide, (fun rest h => by cases h), by decide,
    (fun rest h => by cases h)⟩

/-- Each cause at the first operand that raises it, and an operand that passes. -/
theorem witness_PreChecksInTheirOrder :
    (s4 []).phase = .idle ∧ (s4 []).source.opened = false ∧
      firstDefect { c4 2 with bufValid := false } (.add 0) = some .iaBuffer ∧
      firstDefect (c4 2) (.add 0) = some .iaTickZero ∧
      firstDefect (c4 2) (.add 16) = some .iaTickRange ∧
      firstDefect (c4 2) (.decay 0 16) = some .iaTickRange ∧
      firstDefect (c4 2) (.contains 16 0) = some .iaTickRange ∧
      firstDefect (c4 2) (.add 15) = none ∧ firstDefect (c4 2) (.contains 0 15) = none ∧
      firstDefect (c4 2) (.decay 15 0) = none := by decide

theorem witness_NextCommandIgnoresStaleRegisters :
    (s8 [1, 16]).phase = .idle ∧ (latch 9 9 { s8 [1, 16] with sent := [okResponse 1] }).phase = .idle ∧
      ∃ t, exec (.add 5) (s8 [1, 16]) = .next t := ⟨by decide, by decide, _, rfl⟩

theorem witness_UnansweredPullWaits :
    (s8 [0, 2]).phase = .idle ∧ (s8 [0, 2]).cfg.bufValid = true ∧
      (∀ i ∈ [0, 2], i < (c8 4).nslots ∧ i < 2 ^ (c8 4).iw) ∧
      (s8 [0, 2]).source.beats = items (c8 4) [0, 2] ∧ (s8 [0, 2]).source.tail = .silent ∧
      (s8 [0, 2]).host = [] ∧
      (Instr.add 255).wf (c8 4) = true ∧ (Instr.contains 3 10).wf (c8 4) = true ∧
      (∀ i ∈ [0, 2], keep (slotVal (s8 [0, 2]) i) 3 10 = true) := by decide

/-- Slot 0, then slots 2 and 1 for ever. -/
theorem endless_items : EndlessItems (c8 4) [0] (.cycle 2 [1]) := by
  have go : ∀ k, (∃ w i, answerAt [2, 1] (.cycle 2 [1]) k = some w ∧ decodeBeat 4 w = .item i ∧ i < 4) ∧
      (∃ w i, answerAt [1] (.cycle 2 [1]) k = some w ∧ decodeBeat 4 w = .item i ∧ i < 4) ∧
      ∃ w i, answerAt [] (.cycle 2 [1]) k = some w ∧ decodeBeat 4 w = .item i ∧ i < 4 := by
    intro k
    induction k with
    | zero => exact ⟨⟨2, 2, by decide⟩, ⟨1, 1, by decide⟩, 2, 2, by decide⟩
    | succ k ih => exact ⟨ih.2.1, ih.2.2, ih.2.1⟩
  intro k
  cases k with
  | zero => exact ⟨0, 0, by decide⟩
  | succ k => exact (go k).2.2

/-- `s8` with that endless stream made ready: slots 0 and 2 hold 4 and 10, slot 1 is empty. -/
def endless : State := present [0] (.cycle 2 [1]) (s8 [])

theorem witness_AddOnAnEndlessStreamNeverEnds :
    endless.phase = .idle ∧ endless.cfg.bufValid = true ∧ (Instr.add 255).wf endless.cfg = true ∧
      EndlessItems endless.cfg endless.source.beats endless.source.tail ∧ endless.host = [] :=
  ⟨by decide, by decide, by decide, endless_items, rfl⟩

/-- Item 1, the third answer, fails in every window; the others pass `(3, 10]`. -/
theorem witness_ContainsOnAnEndlessStream :
    endless.phase = .idle ∧ endless.cfg.bufValid = true ∧ (Instr.contains 3 10).wf endless.cfg = true ∧
      EndlessItems endless.cfg endless.source.beats endless.source.tail ∧ endless.host = [] ∧
      answerAt endless.source.beats endless.source.tail 2 = some 1 ∧
      decodeBeat endless.cfg.iw 1 = .item 1 ∧ keep (slotVal endless 1) 3 10 = false ∧
      keep (slotVal endless 0) 3 10 = true ∧ keep (slotVal endless 2) 3 10 = true :=
  ⟨by decide, by decide, by decide, endless_items, rfl, by decide, by decide, by decide, by decide,
    by decide⟩

theorem witness_AddMarksExactlyTheListedSlots :
    (s4 [3, 1, 3, 16]).phase = .idle ∧ (s4 []).cfg.bufValid = true ∧ (Instr.add 15).wf (c4 2) = true ∧
      (∀ i ∈ [3, 1, 3], i < (c4 2).nslots ∧ i < 2 ^ (c4 2).iw) ∧
      (s4 [3, 1, 3, 16]).source.beats = items (c4 2) [3, 1, 3] ++ endBeat (c4 2) :: [] := by decide

/-- A `BAD` beat, a beat of the reserved kind, and the first index out of range. -/
theorem witness_FaultedAddKeepsThePrefix :
    (s4 [1, 32, 0]).source.beats = items (c4 2) [1] ++ 32 :: [0] ∧ decodeBeat 4 32 = .bad ∧
      decodeBeat 4 48 = .bad ∧ (s4 [1, 4, 0]).source.beats = items (c4 2) [1] ++ 4 :: [0] ∧
      decodeBeat 4 4 = .item 4 ∧ (c4 2).nslots ≤ 4 ∧ (s4 [1, 4, 0]).phase = .idle ∧
      (s4 [1, 4, 0]).cfg.bufValid = true ∧ (Instr.add 15).wf (c4 2) = true ∧
      (∀ i ∈ [1], i < (c4 2).nslots ∧ i < 2 ^ (c4 2).iw) := by decide

theorem witness_AddOccupancyLaw :
    (s4 []).phase = .idle ∧ (s4 []).cfg.bufValid = true ∧ (Instr.add 1).wf (c4 2) = true ∧ (Instr.add 15).wf (c4 2) = true ∧
      [1, 2].Nodup ∧ (∀ i ∈ [1, 2], slotVal (s4 []) i = 0) ∧
      (∀ i ∈ [1, 2], i < (c4 2).nslots ∧ i < 2 ^ (c4 2).iw) := by decide

theorem witness_AddOfAnEmptySequence :
    (s4 [16]).phase = .idle ∧ (s4 [16]).cfg.bufValid = true ∧ (s4 [16]).source.opened = false ∧
      (s4 [16]).source.beats = endBeat (c4 2) :: [] ∧ (15 : Byte) ≠ 0 ∧
      (15 : Byte).toNat ≤ (c4 2).tmax ∧ (c4 2).tmax < (16 : Byte).toNat := by decide

theorem witness_AddNeverEmptiesASlot :
    (s4 [3, 1, 16]).phase = .idle ∧ 3 < (c4 2).nslots ∧ slotVal (s4 []) 3 ≠ 0 ∧
      ∃ t, exec (.add 15) (s4 [3, 1, 16]) = .next t ∧ t.phase = .idle ∧ t.rsp.status = .ok :=
  ⟨by decide, by decide, by decide, _, rfl, by decide, by decide⟩

/-- A command that ends, and one that waits. -/
theorem witness_AddCountIsBounded :
    (s4 []).phase = .idle ∧
      (∃ t, exec (.add 15) (present [3, 1, 16] .silent (s4 [])) = .next t ∧ t.phase = .idle) ∧
      ∃ t, exec (.add 15) (present [3, 1] .silent (s4 [])) = .next t ∧ t.phase ≠ .idle :=
  ⟨by decide, ⟨_, rfl, by decide⟩, _, rfl, by decide⟩

/-- Items 0 and 2 pass `(3, 10]`; then `END`, an item that fails, `BAD`, the first index out of range. -/
theorem witness_ContainsStopsAtTheFirstFailure :
    (s8 [0, 2, 16]).phase = .idle ∧ (s8 []).cfg.bufValid = true ∧ (Instr.contains 3 10).wf (c8 4) = true ∧
      (∀ i ∈ [0, 2], i < (c8 4).nslots ∧ i < 2 ^ (c8 4).iw) ∧
      (∀ i ∈ [0, 2], keep (slotVal (s8 []) i) 3 10 = true) ∧
      (s8 [0, 2, 16, 9]).source.beats = items (c8 4) [0, 2] ++ 16 :: [9] ∧ decodeBeat 4 16 = .done ∧
      decodeBeat 4 3 = .item 3 ∧ 3 < (c8 4).nslots ∧ keep (slotVal (s8 []) 3) 3 10 = false ∧
      decodeBeat 4 32 = .bad ∧ decodeBeat 4 4 = .item 4 ∧ (c8 4).nslots ≤ 4 := by decide

/-- `s8` with these bounds latched. -/
def window (a b : Byte) : State := { s8 [] with a := a, b := b }

/-- Slot 1 is empty. Slot 0 holds 4: outside `(4, 9]` and `(2, 3]`, outside the wrapping `(4, 3]`, inside
`(3, 4]`. -/
theorem witness_ContainsItemVerdict :
    1 < (window 4 9).cfg.nslots ∧ (window 4 9).a.toNat ≤ (window 4 9).cfg.tmax ∧
      (window 4 9).b.toNat ≤ (window 4 9).cfg.tmax ∧ slotVal (window 4 9) 1 = 0 ∧
      ((window 4 9).a.toNat ≤ (window 4 9).b.toNat ∧
        (slotVal (window 4 9) 0).toNat ≤ (window 4 9).a.toNat) ∧
      ((window 2 3).a.toNat ≤ (window 2 3).b.toNat ∧
        (window 2 3).b.toNat < (slotVal (window 2 3) 0).toNat) ∧
      ((window 4 3).b.toNat < (window 4 3).a.toNat ∧
        (window 4 3).b.toNat < (slotVal (window 4 3) 0).toNat ∧
        (slotVal (window 4 3) 0).toNat ≤ (window 4 3).a.toNat) ∧
      keep (slotVal (window 3 4) 0) (window 3 4).a (window 3 4).b = true := by decide

theorem witness_ContainsWritesNothing :
    (s8 []).phase = .idle ∧
      ∃ t, exec (.contains 3 10) (present [0, 3, 16] .silent (s8 [])) = .next t ∧ t.phase = .idle :=
  ⟨by decide, _, rfl, by decide⟩

theorem witness_ContainsOfAnEmptySequence :
    (s4 [16]).phase = .idle ∧ (s4 [16]).cfg.bufValid = true ∧ (s4 [16]).source.opened = false ∧
      (s4 [16]).source.beats = endBeat (c4 2) :: [] ∧ (15 : Byte).toNat ≤ (c4 2).tmax ∧
      (c4 2).tmax < (16 : Byte).toNat := by decide

/-- An empty slot in a wrapping window, and an occupied slot outside the window. -/
theorem witness_ContainsSentinelLaw :
    (s8 [0, 3, 9]).phase = .idle ∧ (s8 []).cfg.bufValid = true ∧ (Instr.contains 250 9).wf (c8 4) = true ∧
      (∀ i ∈ [0, 3], i < (c8 4).nslots ∧ i < 2 ^ (c8 4).iw) ∧ slotVal (s8 []) 3 = 0 ∧
      fresh (slotVal (s8 []) 2) 250 9 = false ∧
      (s8 [0, 3, 9]).source.beats = items (c8 4) [0, 3] ++ [9] := by decide

theorem witness_ContainsSeesTheAddedTick :
    (s8 []).phase = .idle ∧ (s8 []).cfg.bufValid = true ∧
      (∀ i ∈ [3], i < (c8 4).nslots ∧ i < 2 ^ (c8 4).iw) ∧ (Instr.add 252).wf (c8 4) = true ∧
      (Instr.contains 250 3).wf (c8 4) = true := by decide

/-- ENC8, and ENC4 at the last byte, where slot 3 is live and slot 2 is empty. -/
theorem witness_DecayByteStep :
    3 < (s8 []).cfg.len ∧ (s8 []).cfg.enc = .enc8 ∧ 1 < (s4 []).cfg.len ∧ (s4 []).cfg.enc = .enc4 ∧
      (0 : Byte).toNat = (s4 []).a.toNat % 16 ∧ (0 : Byte).toNat = (s4 []).b.toNat % 16 ∧
      3 < (s4 []).cfg.nslots ∧ (sel (s4 []).cfg 3).1 = 1 ∧ slotVal (s4 []) 3 ≠ 0 := by decide

theorem witness_DecayPostState :
    (s4 []).phase = .idle ∧ (s4 []).cfg.bufValid = true ∧ (Instr.decay 15 0).wf (c4 2) = true := by decide

theorem witness_DecayIsIdempotent :
    (s8 []).phase = .idle ∧ (s8 []).cfg.bufValid = true ∧ (Instr.decay 255 0).wf (c8 4) = true := by decide

theorem witness_DecayCountNeverGrows :
    ∃ t v, (s8 []).phase = .idle ∧ (s8 []).cfg.bufValid = true ∧ (Instr.decay 3 10).wf (c8 4) = true ∧
      (Instr.decay 0 255).wf (c8 4) = true ∧ exec (.decay 3 10) (s8 []) = .next t ∧ t.phase = .idle ∧
      exec (.decay 0 255) t = .next v := 
  ⟨_, _, by decide, by decide, by decide, by decide, rfl, by decide, rfl⟩

/-- Equal bounds, the census window, and the first window that is neither. -/
theorem witness_DecayDegenerateWindows :
    (c4 2).bufValid = true ∧ (Instr.decay 7 7).wf (c4 2) = true ∧ (Instr.decay 0 15).wf (c4 2) = true ∧
      (15 : Byte).toNat = (c4 2).tmax ∧ (Instr.decay 0 14).wf (c4 2) = true ∧
      (14 : Byte).toNat ≠ (c4 2).tmax ∧ (s4 []).cfg = c4 2 ∧ (s4 []).phase = .idle := by decide

theorem witness_DecayAgreesForEveryLaneAssignment :
    (s4 []).phase = .idle ∧ (s4 []).cfg.bufValid = true ∧ (Instr.decay 2 9).wf (c4 2) = true ∧
      [[1], [0]].length = (s4 []).cfg.lanes ∧
      ([[1], [0]] : List (List Nat)).flatten.Perm (List.range (s4 []).cfg.len) := by decide

/-- Lane 1 takes byte 1 before lane 0 takes byte 0. -/
theorem witness_DecayAgreesForEveryInterleaving :
    (s4 []).phase = .idle ∧ (s4 []).cfg.bufValid = true ∧ (Instr.decay 2 9).wf (c4 2) = true ∧
      (∀ e ∈ [(1, 1), (0, 0)], e.1 < (s4 []).cfg.lanes) ∧
      (([(1, 1), (0, 0)] : List (Nat × Nat)).map fun e => e.2).Perm (List.range (s4 []).cfg.len) := by
  decide

theorem witness_ContainsAfterDecay :
    (s8 []).phase = .idle ∧ (s8 []).cfg.bufValid = true ∧ (Instr.decay 3 9).wf (c8 4) = true ∧
      (∀ i ∈ [0, 3], i < (c8 4).nslots ∧ i < 2 ^ (c8 4).iw) := by decide

/-- An ADD of tick 9 to slot 3 has taken effect and waits for its next beat. -/
theorem witness_EveryTickWasAdded :
    Traced [.command 0x00010009#32 [3] .silent] waiting ∧ ∃ t, step waiting = .next t := by
  refine ⟨⟨[.command 0x00010009#32 [3] .silent], rfl, ?_, fun _ => ⟨by decide, 0x00010009#32, [3], .silent,
    1, by decide, by decide, ?_⟩⟩, _, rfl⟩
  · intro i hi
    have hi : i < 4 := hi
    have h : ∀ i < 4, slotVal waiting i = 0 ∨ (i = 3 ∧ slotVal waiting i = 9) := by decide
    rcases h i hi with h | ⟨h3, h9⟩
    · exact .inl h
    · refine .inr ?_
      rw [h9, h3]
      exact ⟨0x00010009#32, [3], .silent, by decide, by decide, 0, 3, by decide, by decide⟩
  · intro k
    rw [Nat.add_comm]
    cases k <;> rfl

/-- The ENC8 engine that holds the slots of `s4`. -/
def twin (h : List HostEvent) : State := { at_ (c8 4) [(0, 5), (3, 9)] [] with host := h }

theorem witness_TheTwoEncodingsAgree :
    SameStore (twin [.command 0x0001000F#32 [1, 16] .silent])
        { s4 [] with host := [.command 0x0001000F#32 [1, 16] .silent] } ∧
      (∀ e ∈ [HostEvent.command 0x0001000F#32 [1, 16] .silent, .command 0x00030F00#32 [] .silent, .reset],
        e.narrow = true) ∧
      (c8 4).enc = .enc8 ∧ (c4 2).enc = .enc4 ∧ (c8 4).len = 2 * (c4 2).len ∧ (c8 4).iw = (c4 2).iw :=
  ⟨⟨rfl, rfl, rfl, rfl, rfl, by decide, rfl, by decide, rfl, rfl, fun h => absurd rfl h, rfl, rfl, rfl, rfl,
    rfl⟩, by decide, rfl, rfl, rfl, rfl⟩

end Sys2Proof.Tests
end

section
/-! PROOFS. The invariants of the engine's state (`10_state.md`): the reset values, the ring, the configuration,
the engine's invariant, and where every stored tick came from.

A step of the machine is a reset, or an acceptance, or neither, followed by a row of engine steps
(`step_runs`), and an engine step is one of the moves of `EngineMove`. So an invariant of the machine is shown
for the moves, for the acceptance of a word and for reset. -/

namespace Sys2Proof.Machine

/-! ### What a step is made of -/

/-- What one engine step can do: the rows of the transition table of R183, the unanswered pull and the idle
engine as `wait`. -/
inductive EngineMove (s : State) : State → Prop
  | wait : EngineMove s s
  | badBeat {t : State} (running : s.phase = .add ∨ s.phase = .contains)
      (pulled : pull s = some (.bad, t)) : EngineMove s (raise .miStream 0 t)
  | badIndex {t : State} {i : Nat} (running : s.phase = .add ∨ s.phase = .contains)
      (pulled : pull s = some (.item i, t)) (outside : ¬ i < t.cfg.nslots) :
      EngineMove s (raise .iaIndex i t)
  | addMarks {t : State} {i : Nat} (adding : s.phase = .add) (pulled : pull s = some (.item i, t))
      (inside : i < t.cfg.nslots) : EngineMove s (addMarked i t)
  | addEnds {t : State} (adding : s.phase = .add) (pulled : pull s = some (.done, t)) :
      EngineMove s (respond .ok .none t.acc 0 (endStream t))
  | containsPasses {t : State} {i : Nat} (testing : s.phase = .contains)
      (pulled : pull s = some (.item i, t)) (inside : i < t.cfg.nslots)
      (passed : passes t i = true) : EngineMove s t
  | containsFails {t : State} {i : Nat} (testing : s.phase = .contains)
      (pulled : pull s = some (.item i, t)) (inside : i < t.cfg.nslots)
      (failed : passes t i = false) : EngineMove s (respond .ok .none 0 0 (close t))
  | containsEnds {t : State} (testing : s.phase = .contains) (pulled : pull s = some (.done, t)) :
      EngineMove s (respond .ok .none 1 0 (endStream t))
  | decayPasses (scanning : s.phase = .decay) (inside : s.scan < s.cfg.len) :
      EngineMove s (advanceScan (decayedState s.scan s))
  | decayEnds (scanning : s.phase = .decay) (done : ¬ s.scan < s.cfg.len) :
      EngineMove s (respond .ok .none s.acc 0 s)

/-- An outcome has one next state. -/
theorem engineMove_of_next_eq {s t u : State} {o : Host.Outcome State Fault Refusal} (hs : o = .next s)
    (ht : o = .next t) (h : EngineMove u s) : EngineMove u t := by
  cases hs.symm.trans ht
  exact h

theorem addStep_move {s t : State} (h : addStep s = .next t) : EngineMove s t := by
  obtain hw | ⟨hp, b, u, hq, hc⟩ := addStep_cases s
  · exact engineMove_of_next_eq hw h .wait
  · rcases hc with ⟨rfl, he⟩ | ⟨rfl, he⟩ | ⟨i, rfl, hi, he⟩ | ⟨i, rfl, hi, he⟩
    · exact engineMove_of_next_eq he h (.badBeat (.inl hp) hq)
    · exact engineMove_of_next_eq he h (.addEnds hp hq)
    · exact engineMove_of_next_eq he h (.addMarks hp hq hi)
    · exact engineMove_of_next_eq he h (.badIndex (.inl hp) hq hi)

theorem containsStep_move {s t : State} (h : containsStep s = .next t) : EngineMove s t := by
  obtain hw | ⟨hp, b, u, hq, hc⟩ := containsStep_cases s
  · exact engineMove_of_next_eq hw h .wait
  · rcases hc with ⟨rfl, he⟩ | ⟨rfl, he⟩ | ⟨i, rfl, hi, hk, he⟩ | ⟨i, rfl, hi, hk, he⟩ |
      ⟨i, rfl, hi, he⟩
    · exact engineMove_of_next_eq he h (.badBeat (.inr hp) hq)
    · exact engineMove_of_next_eq he h (.containsEnds hp hq)
    · exact engineMove_of_next_eq he h (.containsPasses hp hq hi hk)
    · exact engineMove_of_next_eq he h (.containsFails hp hq hi hk)
    · exact engineMove_of_next_eq he h (.badIndex (.inr hp) hq hi)

theorem decayStep_move {s t : State} (h : decayStep s = .next t) : EngineMove s t := by
  rcases decayStep_cases s with ⟨-, he⟩ | ⟨hp, hs, he⟩ | ⟨hp, hs, he⟩
  · exact engineMove_of_next_eq he h .wait
  · exact engineMove_of_next_eq he h (.decayPasses hp hs)
  · exact engineMove_of_next_eq he h (.decayEnds hp hs)

/-- The engine goes from one state to another by moves in a row. -/
def Runs : State → State → Prop := Relation.ReflTransGen EngineMove

theorem runs_of_stepN {f : State → Host.Outcome State Fault Refusal}
    (hf : ∀ s t, f s = .next t → EngineMove s t) {n : Nat} {s t : State}
    (h : stepN f n s = .next t) : Runs s t :=
  stepN_keeps (P := Runs s) (fun u v hu hv => hu.tail (hf u v hv)) .refl h

/-- What every move keeps, a run keeps. -/
theorem runs_keeps {P : State → Prop} (hP : ∀ s t, P s → EngineMove s t → P t) {s t : State}
    (h : Runs s t) (hs : P s) : P t := by
  induction h with
  | refl => exact hs
  | tail _ hm ih => exact hP _ _ ih hm

theorem engineStep_move {s t : State} (h : engineStep s = .next t) : EngineMove s t := by
  unfold engineStep at h
  cases hp : s.phase <;> rw [hp] at h
  case idle => exact engineMove_of_next_eq rfl h .wait
  case add => exact addStep_move h
  case contains => exact containsStep_move h
  case decay => exact decayStep_move h

theorem continueCommand_runs {s t : State} (h : continueCommand s = .next t) : Runs s t := by
  unfold continueCommand at h
  cases hp : s.phase <;> rw [hp] at h
  case idle => cases h; exact .refl
  case add => exact runs_of_stepN (fun _ _ => addStep_move) h
  case contains => exact runs_of_stepN (fun _ _ => containsStep_move) h
  case decay => exact runs_of_stepN (fun _ _ => decayStep_move) h

/-- The step for a word presented to an idle engine is its acceptance and a run (R181). -/
theorem runWord_runs {w : Word} {s t : State} (hp : s.phase = .idle) (h : runWord w s = .next t) :
    Runs (acceptWord w s) t := by
  unfold runWord at h
  unfold acceptWord
  cases hd : decode w with
  | error e =>
    rw [hd] at h
    cases h
    exact .refl
  | ok i =>
    rw [hd] at h
    cases i with
    | add tick =>
      simp only [exec, execAdd, hp, if_true] at h
      exact runs_of_stepN (fun _ _ => addStep_move) h
    | contains lo hi =>
      simp only [exec, execContains, hp, if_true] at h
      exact runs_of_stepN (fun _ _ => containsStep_move) h
    | decay lo hi =>
      simp only [exec, execDecay, hp, if_true] at h
      exact runs_of_stepN (fun _ _ => decayStep_move) h

theorem cutCommand_runs {w : Word} {n : Nat} {s t : State} (h : cutCommand w n s = .next t) :
    ∃ u, Runs (acceptWord w s) u ∧ t = hostReset u := by
  obtain ⟨u, hu, ht⟩ := andThen_eq_next h
  cases ht
  exact ⟨u, runs_of_stepN (fun _ _ => engineStep_move) hu, rfl⟩

/-- Every step of the machine: a reset, a word that runs, a word that is cut by a reset, or the running command
carried on. -/
theorem step_runs {s t : State} (h : step s = .next t) :
    (∃ rest, s.host = .reset :: rest ∧ t = hostReset (dropEvent s)) ∨
      (s.phase = .idle ∧ ∃ w beats tail rest, s.host = .command w beats tail :: rest ∧
        Runs (acceptWord w (present beats tail (dropEvent s))) t) ∨
      (s.phase = .idle ∧ ∃ w beats tail n rest u, s.host = .commandCut w beats tail n :: rest ∧
        Runs (acceptWord w (present beats tail (dropEvent s))) u ∧ t = hostReset u) ∨
      Runs s t := by
  rcases step_cases s with ⟨rest, hh, he⟩ | ⟨hp, w, beats, tail, rest, hh, he⟩ |
    ⟨hp, w, beats, tail, n, rest, hh, he⟩ | ⟨-, -, he⟩ <;> rw [he] at h
  · cases h
    exact .inl ⟨rest, hh, rfl⟩
  · exact .inr (.inl ⟨hp, w, beats, tail, rest, hh, runWord_runs hp h⟩)
  · obtain ⟨u, hu, ht⟩ := cutCommand_runs h
    exact .inr (.inr (.inl ⟨hp, w, beats, tail, n, rest, u, hh, hu, ht⟩))
  · exact .inr (.inr (.inr (continueCommand_runs h)))

/-- Every case of the acceptance of a word: a fault, or the command that starts with valid operands. -/
theorem acceptWord_cases (w : Word) (s : State) :
    (∃ c x y, acceptWord w s = raise c 0 (latch x y s)) ∨
      (∃ tick, decode w = .ok (.add tick) ∧ s.cfg.bufValid = true ∧ tick ≠ 0 ∧
        tick.toNat ≤ s.cfg.tmax ∧ acceptWord w s = openStream .add (latch tick 0 s)) ∨
      (∃ lo hi, s.cfg.bufValid = true ∧ lo.toNat ≤ s.cfg.tmax ∧ hi.toNat ≤ s.cfg.tmax ∧
        acceptWord w s = openStream .contains (latch lo hi s)) ∨
      (∃ lo hi, s.cfg.bufValid = true ∧ lo.toNat ≤ s.cfg.tmax ∧ hi.toNat ≤ s.cfg.tmax ∧
        acceptWord w s = startScan (latch lo hi s)) := by
  unfold acceptWord
  cases hd : decode w with
  | error e => exact .inl ⟨.iaCommand, fieldA w, fieldB w, rfl⟩
  | ok i =>
    cases i with
    | add tick =>
      rcases acceptAdd_cases tick s with ⟨c, -, he⟩ | ⟨hv, h0, hr, he⟩
      · exact .inl ⟨c, tick, 0, he⟩
      · exact .inr (.inl ⟨tick, rfl, hv, h0, hr, he⟩)
    | contains lo hi =>
      rcases acceptContains_cases lo hi s with ⟨c, -, he⟩ | ⟨hv, hlo, hhi, he⟩
      · exact .inl ⟨c, lo, hi, he⟩
      · exact .inr (.inr (.inl ⟨lo, hi, hv, hlo, hhi, he⟩))
    | decay lo hi =>
      rcases acceptDecay_cases lo hi s with ⟨c, -, he⟩ | ⟨hv, hlo, hhi, he⟩
      · exact .inl ⟨c, lo, hi, he⟩
      · exact .inr (.inr (.inr ⟨lo, hi, hv, hlo, hhi, he⟩))

/-- Acceptance leaves the configuration, the buffer and the HOST's list. -/
theorem acceptWord_frame (w : Word) (s : State) :
    (acceptWord w s).cfg = s.cfg ∧ (acceptWord w s).buf = s.buf ∧ (acceptWord w s).host = s.host := by
  rcases acceptWord_cases w s with ⟨c, x, y, he⟩ | ⟨tick, -, -, -, -, he⟩ | ⟨lo, hi, -, -, -, he⟩ |
    ⟨lo, hi, -, -, -, he⟩ <;> rw [he] <;> exact ⟨rfl, rfl, rfl⟩

/-! ### What the item step of ADD and the byte step of DECAY leave unchanged -/

@[simp] theorem addMarked_cfg (i : Nat) (s : State) : (addMarked i s).cfg = s.cfg := by simp [addMarked]

@[simp] theorem addMarked_phase (i : Nat) (s : State) : (addMarked i s).phase = s.phase := by
  simp [addMarked]

@[simp] theorem addMarked_a (i : Nat) (s : State) : (addMarked i s).a = s.a := by simp [addMarked]

@[simp] theorem addMarked_b (i : Nat) (s : State) : (addMarked i s).b = s.b := by simp [addMarked]

@[simp] theorem addMarked_scan (i : Nat) (s : State) : (addMarked i s).scan = s.scan := by
  simp [addMarked]

@[simp] theorem addMarked_rsp (i : Nat) (s : State) : (addMarked i s).rsp = s.rsp := by simp [addMarked]

@[simp] theorem addMarked_source (i : Nat) (s : State) : (addMarked i s).source = s.source := by
  simp [addMarked]

@[simp] theorem addMarked_host (i : Nat) (s : State) : (addMarked i s).host = s.host := by
  simp [addMarked]

@[simp] theorem addMarked_sent (i : Nat) (s : State) : (addMarked i s).sent = s.sent := by
  simp [addMarked]

@[simp] theorem addMarked_buf (i : Nat) (s : State) :
    (addMarked i s).buf = s.buf.write (sel s.cfg i).1
      (slotPut s.cfg (s.buf.read (sel s.cfg i).1) (sel s.cfg i).2 s.a) := by
  simp [addMarked]

@[simp] theorem addMarked_acc (i : Nat) (s : State) :
    (addMarked i s).acc = s.acc + if slotVal s i = 0 then 1 else 0 := by
  simp only [addMarked, countEmpty_acc, zero_eq_true]
  split <;> rfl

@[simp] theorem decayedState_cfg (x : Nat) (s : State) : (decayedState x s).cfg = s.cfg := rfl

@[simp] theorem decayedState_phase (x : Nat) (s : State) : (decayedState x s).phase = s.phase := rfl

@[simp] theorem decayedState_host (x : Nat) (s : State) : (decayedState x s).host = s.host := rfl

/-- An answered pull changes the INDEX SOURCE's record and nothing else; the stream stays open. -/
theorem pull_frame {s t : State} {b : Beat} (h : pull s = some (b, t)) :
    s.source.opened = true ∧ t.source.opened = true ∧ t = { s with source := t.source } := by
  obtain ⟨ho, w, rest, tail, -, -, rfl⟩ := pull_some h
  exact ⟨ho, ho, rfl⟩

theorem pull_cfg {s t : State} {b : Beat} (h : pull s = some (b, t)) : t.cfg = s.cfg := by
  rw [(pull_frame h).2.2]

theorem pull_buf {s t : State} {b : Beat} (h : pull s = some (b, t)) : t.buf = s.buf := by
  rw [(pull_frame h).2.2]

theorem pull_phase {s t : State} {b : Beat} (h : pull s = some (b, t)) : t.phase = s.phase := by
  rw [(pull_frame h).2.2]

theorem pull_a {s t : State} {b : Beat} (h : pull s = some (b, t)) : t.a = s.a := by
  rw [(pull_frame h).2.2]

theorem pull_host {s t : State} {b : Beat} (h : pull s = some (b, t)) : t.host = s.host := by
  rw [(pull_frame h).2.2]

/-- No move of the engine changes the construction parameters or the HOST's list. -/
theorem move_cfg_host {s t : State} (h : EngineMove s t) : t.cfg = s.cfg ∧ t.host = s.host := by
  cases h with
  | wait => exact ⟨rfl, rfl⟩
  | badBeat _ hq => simp [pull_cfg hq, pull_host hq]
  | badIndex _ hq _ => simp [pull_cfg hq, pull_host hq]
  | addMarks _ hq _ => simp [pull_cfg hq, pull_host hq]
  | addEnds _ hq => simp [pull_cfg hq, pull_host hq]
  | containsPasses _ hq _ _ => exact ⟨pull_cfg hq, pull_host hq⟩
  | containsFails _ hq _ _ => simp [pull_cfg hq, pull_host hq]
  | containsEnds _ hq => simp [pull_cfg hq, pull_host hq]
  | decayPasses _ _ => exact ⟨rfl, rfl⟩
  | decayEnds _ _ => exact ⟨rfl, rfl⟩

theorem runs_cfg_host {s t : State} (h : Runs s t) : t.cfg = s.cfg ∧ t.host = s.host :=
  runs_keeps (P := fun u => u.cfg = s.cfg ∧ u.host = s.host)
    (fun _ _ hu hm => ⟨(move_cfg_host hm).1.trans hu.1, (move_cfg_host hm).2.trans hu.2⟩) h ⟨rfl, rfl⟩

/-- An accepted word that has run leaves the configuration, and the HOST's list without the word. -/
theorem presented_cfg_host {w : Word} {beats : List BeatWord} {tail : Tail} {s t : State}
    (h : Runs (acceptWord w (present beats tail (dropEvent s))) t) :
    t.cfg = s.cfg ∧ t.host = s.host.tail := by
  obtain ⟨hcfg, -, hhost⟩ := acceptWord_frame w (present beats tail (dropEvent s))
  exact ⟨(runs_cfg_host h).1.trans hcfg, (runs_cfg_host h).2.trans hhost⟩

/-! ### The configuration -/

theorem step_cfg {s t : State} (h : step s = .next t) : t.cfg = s.cfg := by
  rcases step_runs h with ⟨_, -, rfl⟩ | ⟨-, w, beats, tail, _, -, hr⟩ |
    ⟨-, w, beats, tail, n, _, u, -, hr, rfl⟩ | hr
  · rfl
  · exact (presented_cfg_host hr).1
  · exact (presented_cfg_host hr).1
  · exact (runs_cfg_host hr).1

/-- The `ENC` strap (R6). -/
theorem strap_eq (e : Enc) : e.strap = if e = .enc8 then 0 else 1 := by cases e <;> rfl

/-- Settles O23: a step is a reset, an acceptance or a run, and none of them writes `cfg`. -/
theorem noStepChangesTheConfiguration : Obligations.NoStepChangesTheConfiguration := by
  intro s t h
  have hcfg := step_cfg h
  exact ⟨hcfg, by simp only [readStraps, hcfg], by simp only [readStraps, strap_eq]⟩

/-! ### The ring -/

/-- Settles O56. -/
theorem everySlotLiesInTheRing : Obligations.EverySlotLiesInTheRing :=
  fun s i => slotGet_le_tmax s.cfg (s.buf.read (sel s.cfg i).1) (sel s.cfg i).2

/-! ### Slots after a write -/

theorem slotGet_zero (c : Config) (hi : Bool) : slotGet c 0 hi = 0 := by
  unfold slotGet
  cases c.enc
  · rfl
  · cases hi <;> rfl

/-- The slots are read from the configuration and the buffer alone. -/
theorem slotVal_congr {s t : State} (hcfg : t.cfg = s.cfg) (hbuf : t.buf = s.buf) (i : Nat) :
    slotVal t i = slotVal s i := by
  simp only [slotVal, hcfg, hbuf]

theorem slotVal_of_buf_nil {s : State} (h : s.buf = []) (i : Nat) : slotVal s i = 0 := by
  simp only [slotVal, h, Memory.read, slotGet_zero]

theorem slotVal_addMarked_same {s : State} (ha : s.a.toNat ≤ s.cfg.tmax) (i : Nat) :
    slotVal (addMarked i s) i = s.a := by
  simp [slotVal, Memory.read_write, slotGet_slotPut_same _ _ ha]

theorem slotVal_addMarked_other {i j : Nat} (hne : j ≠ i) (s : State) :
    slotVal (addMarked i s) j = slotVal s j := by
  simp only [slotVal, addMarked_cfg, addMarked_buf, Memory.read_write]
  split
  · rename_i hb
    obtain ⟨he, hs⟩ := sel_other hne hb
    rw [hs, slotGet_slotPut_other he, hb]
  · rfl

theorem decaySlot_eq (lo hi v : Byte) : decaySlot lo hi v = 0 ∨ decaySlot lo hi v = v := by
  unfold decaySlot
  split
  · exact .inr rfl
  · exact .inl rfl

/-- A slot of the byte that the byte step leaves is the slot of the byte, tested on its own (R163, R164). -/
theorem slotGet_decayByte (c : Config) (a b v : Byte) (hi : Bool) :
    slotGet c (decayByte c a b v) hi =
      decaySlot (windowBound c a) (windowBound c b) (slotGet c v hi) := by
  have widen : ∀ (lo up : Byte) (n : Nibble),
      (lowNibble (decaySlot lo up (n.setWidth 8))).setWidth 8 = decaySlot lo up (n.setWidth 8) := by
    intro lo up n
    rcases decaySlot_eq lo up (n.setWidth 8) with h | h <;> rw [h]
    · rfl
    · rw [lowNibble_setWidth]
  unfold slotGet decayByte
  cases c.enc
  · rfl
  · cases hi
    · simp only [nibGet_pack_low, widen]
    · simp only [nibGet_pack_high, widen]

theorem decayedState_read (x y : Nat) (s : State) :
    (decayedState x s).buf.read y = if y = x then decayedByte s x else s.buf.read y := by
  unfold decayedState
  by_cases hsame : decayedByte s x = s.buf.read x
  · rw [if_pos hsame]
    split
    · rename_i hy; rw [hy, hsame]
    · rfl
  · rw [if_neg hsame, Memory.read_write]

/-- The byte step at an address tests the slots of that byte and keeps the others. -/
theorem slotVal_decayedState (x j : Nat) (s : State) :
    slotVal (decayedState x s) j =
      if (sel s.cfg j).1 = x then decaySlot (windowBound s.cfg s.a) (windowBound s.cfg s.b) (slotVal s j)
      else slotVal s j := by
  simp only [slotVal, decayedState_cfg, decayedState_read]
  split
  · rename_i hx; rw [decayedByte, slotGet_decayByte, hx]
  · rfl

theorem slotVal_decayedState_cases (x j : Nat) (s : State) :
    slotVal (decayedState x s) j = 0 ∨ slotVal (decayedState x s) j = slotVal s j := by
  rw [slotVal_decayedState]
  split
  · exact decaySlot_eq _ _ _
  · exact .inr rfl

/-! ### Reset -/

/-- Settles O17. -/
theorem resetLeavesTheStoreEmpty : Obligations.ResetLeavesTheStoreEmpty := fun _ =>
  ⟨rfl, fun _ => rfl, slotVal_of_buf_nil rfl, rfl, rfl, rfl, rfl, rfl, rfl, rfl⟩

/-! ### Where a tick came from (R34) -/

theorem markedBy_mono {c : Config} {past later : List HostEvent} (hsub : past ⊆ later) {i : Nat}
    {v : Byte} (h : MarkedBy c past i v) : MarkedBy c later i v := by
  obtain ⟨w, beats, tail, hmem, hrest⟩ := h
  exact ⟨w, beats, tail, hsub hmem, hrest⟩

/-- Every slot in range is empty or was marked by an ADD of the past. -/
def SlotsMarked (past : List HostEvent) (s : State) : Prop :=
  ∀ i < s.cfg.nslots, slotVal s i = 0 ∨ MarkedBy s.cfg past i (slotVal s i)

theorem slotsMarked_mono {past later : List HostEvent} (hsub : past ⊆ later) {s : State}
    (h : SlotsMarked past s) : SlotsMarked later s :=
  fun i hi => (h i hi).imp id (markedBy_mono hsub)

theorem slotsMarked_congr {past : List HostEvent} {s t : State} (hcfg : t.cfg = s.cfg)
    (hbuf : t.buf = s.buf) (h : SlotsMarked past s) : SlotsMarked past t := by
  intro i hi
  rw [slotVal_congr hcfg hbuf, hcfg]
  exact h i (hcfg ▸ hi)

theorem slotsMarked_of_buf_nil {past : List HostEvent} {s : State} (h : s.buf = []) :
    SlotsMarked past s :=
  fun i _ => .inl (slotVal_of_buf_nil h i)

theorem markedSince_of_ne_add {past : List HostEvent} {s : State} (hs : SlotsMarked past s)
    (hp : s.phase ≠ .add) : MarkedSince past s :=
  ⟨hs, fun h => absurd h hp⟩

/-- A pull moves on in the running ADD's stream. -/
theorem markedSince_pull {past : List HostEvent} {s t : State} {b : Beat} (hs : MarkedSince past s)
    (hq : pull s = some (b, t)) : MarkedSince past t := by
  obtain ⟨-, -, -, hnext⟩ := pull_answers hq
  refine ⟨slotsMarked_congr (pull_cfg hq) (pull_buf hq) hs.slots, fun hp => ?_⟩
  obtain ⟨hring, w, beats, tail, n, hmem, hdec, hans⟩ := hs.adding (pull_phase hq ▸ hp)
  rw [pull_a hq, pull_cfg hq]
  refine ⟨hring, w, beats, tail, n + 1, hmem, hdec, fun k => ?_⟩
  rw [← hnext, hans, Nat.add_assoc, Nat.add_comm 1]

/-- The item that a running ADD pulls is an item of its own stream. -/
theorem markedBy_of_pull {past : List HostEvent} {s t : State} {i : Nat} (hs : MarkedSince past s)
    (hp : s.phase = .add) (hq : pull s = some (.item i, t)) : MarkedBy s.cfg past i s.a := by
  obtain ⟨-, -, ⟨bw, hbw, hitem⟩, -⟩ := pull_answers hq
  obtain ⟨-, w, beats, tail, n, hmem, hdec, hans⟩ := hs.adding hp
  exact ⟨w, beats, tail, hmem, hdec, n, bw, (hans 0).symm.trans hbw, hitem.symm⟩

theorem markedSince_addMarked {past : List HostEvent} {s : State} {i : Nat} (hs : MarkedSince past s)
    (hp : s.phase = .add) (hi : MarkedBy s.cfg past i s.a) : MarkedSince past (addMarked i s) := by
  obtain ⟨hring, -⟩ := hs.adding hp
  refine ⟨fun j hj => ?_, by simpa using hs.adding⟩
  rw [addMarked_cfg] at hj ⊢
  by_cases hji : j = i
  · rw [hji, slotVal_addMarked_same hring]
    exact .inr hi
  · rw [slotVal_addMarked_other hji]
    exact hs.slots j hj

theorem slotsMarked_decayedState {past : List HostEvent} {s : State} (x : Nat)
    (hs : SlotsMarked past s) : SlotsMarked past (decayedState x s) := by
  intro j hj
  rcases slotVal_decayedState_cases x j s with h | h <;> rw [h]
  · exact .inl rfl
  · exact hs j hj

theorem markedSince_move {past : List HostEvent} {s t : State} (hs : MarkedSince past s)
    (h : EngineMove s t) : MarkedSince past t := by
  have ended : ∀ {b u v}, pull s = some (b, u) → v.cfg = u.cfg → v.buf = u.buf → v.phase = .idle →
      MarkedSince past v := fun hq hcfg hbuf hp =>
    markedSince_of_ne_add (slotsMarked_congr hcfg hbuf (markedSince_pull hs hq).slots) (by simp [hp])
  cases h with
  | wait => exact hs
  | badBeat _ hq => exact ended hq rfl rfl rfl
  | badIndex _ hq _ => exact ended hq rfl rfl rfl
  | addMarks hp hq _ =>
    refine markedSince_addMarked (markedSince_pull hs hq) ((pull_phase hq).trans hp) ?_
    rw [pull_cfg hq, pull_a hq]
    exact markedBy_of_pull hs hp hq
  | addEnds _ hq => exact ended hq rfl rfl rfl
  | containsPasses _ hq _ _ => exact markedSince_pull hs hq
  | containsFails _ hq _ _ => exact ended hq rfl rfl rfl
  | containsEnds _ hq => exact ended hq rfl rfl rfl
  | decayPasses hp _ =>
    exact markedSince_of_ne_add
      (slotsMarked_congr rfl rfl (slotsMarked_decayedState s.scan hs.slots)) (by simp [hp])
  | decayEnds _ _ => exact markedSince_of_ne_add (slotsMarked_congr rfl rfl hs.slots) (by simp)

/-- Acceptance of a word that the past holds with its stream: an ADD that starts is one of the past's. -/
theorem markedSince_acceptWord {past : List HostEvent} {s : State} {w : Word}
    (hs : SlotsMarked past s) (hmem : .command w s.source.beats s.source.tail ∈ past) :
    MarkedSince past (acceptWord w s) := by
  obtain ⟨hcfg, hbuf, -⟩ := acceptWord_frame w s
  have hslots := slotsMarked_congr hcfg hbuf hs
  rcases acceptWord_cases w s with ⟨c, x, y, he⟩ | ⟨tick, hdec, -, -, hring, he⟩ |
    ⟨lo, hi, -, -, -, he⟩ | ⟨lo, hi, -, -, -, he⟩ <;> rw [he] at hslots ⊢
  · exact markedSince_of_ne_add hslots (by simp)
  · exact ⟨hslots, fun _ => ⟨hring, w, s.source.beats, s.source.tail, 0, hmem, hdec,
      fun k => by rw [Nat.zero_add]; rfl⟩⟩
  · exact markedSince_of_ne_add hslots (by simp)
  · exact markedSince_of_ne_add hslots (by simp)

/-- A reset state is traced to any past. -/
theorem traced_hostReset {past : List HostEvent} (s : State) :
    Traced (past ++ s.host) (hostReset s) :=
  ⟨past, rfl, markedSince_of_ne_add (slotsMarked_of_buf_nil rfl) (by simp)⟩

theorem traced_boot (c : Config) (h : List HostEvent) : Traced h (boot c h) :=
  ⟨[], rfl, markedSince_of_ne_add (slotsMarked_of_buf_nil rfl) (by simp [boot, State.resetWith])⟩

theorem step_keeps_traced {h : List HostEvent} {s t : State} (hs : Traced h s)
    (hstep : step s = .next t) : Traced h t := by
  obtain ⟨past, rfl, hm⟩ := hs
  rcases step_runs hstep with ⟨rest, hh, rfl⟩ | ⟨-, w, beats, tail, rest, hh, hr⟩ |
    ⟨-, w, beats, tail, n, rest, u, hh, hr, rfl⟩ | hr
  · have := traced_hostReset (past := past ++ [.reset]) (dropEvent s)
    simpa [hh] using this
  · obtain ⟨-, hhost⟩ := presented_cfg_host hr
    have hslots : SlotsMarked (past ++ [.command w beats tail]) (present beats tail (dropEvent s)) :=
      slotsMarked_congr rfl rfl (slotsMarked_mono (List.subset_append_left _ _) hm.slots)
    refine ⟨past ++ [.command w beats tail], by simp [hh, hhost], ?_⟩
    exact runs_keeps (fun _ _ => markedSince_move) hr (markedSince_acceptWord hslots (by simp))
  · obtain ⟨-, hhost⟩ := presented_cfg_host hr
    have := traced_hostReset (past := past ++ [.commandCut w beats tail n]) u
    simpa [hh, hhost] using this
  · obtain ⟨-, hhost⟩ := runs_cfg_host hr
    exact ⟨past, by rw [hhost], runs_keeps (fun _ _ => markedSince_move) hr hm⟩

/-- Settles O57: the past grows by the events that the machine takes; while ADD runs, its stream is the rest of
the stream of one of them. -/
theorem everyTickWasAdded : Obligations.EveryTickWasAdded :=
  ⟨traced_boot, fun _ _ _ => step_keeps_traced⟩

/-! ### Responses (R93) -/

theorem nslots_lt_two_pow_cw (c : Config) : c.nslots < 2 ^ c.cw := by
  unfold Config.cw
  split
  · rename_i h; rw [h]; decide
  · exact Nat.lt_log2_self

theorem one_lt_two_pow_cw (c : Config) : 1 < 2 ^ c.cw := by
  apply Nat.one_lt_two_pow
  unfold Config.cw
  split <;> omega

theorem legal_okResponse {c : Config} {v : Nat} (h : v < 2 ^ c.cw) : (okResponse v).Legal c :=
  ⟨rfl, h, Nat.two_pow_pos _, fun hc => absurd rfl hc, fun _ => rfl⟩

theorem legal_faultResponse {c : Config} {cause : Cause} {info : Nat} (h : info < 2 ^ c.iw)
    (hinfo : cause ≠ .iaIndex → info = 0) : (faultResponse cause info).Legal c :=
  ⟨rfl, Nat.two_pow_pos _, h, fun _ => rfl, hinfo⟩

/-- An index that is pulled fits the index width (R90). -/
theorem pull_item_lt {s t : State} {i : Nat} (h : pull s = some (.item i, t)) : i < 2 ^ s.cfg.iw := by
  obtain ⟨-, w, rest, tail, -, hd, -⟩ := pull_some h
  unfold decodeBeat at hd
  split at hd
  · cases hd; exact Nat.mod_lt _ (Nat.two_pow_pos _)
  · split at hd <;> cases hd

/-! ### Counts (R25, R35, R167) -/

/-- Counting over a range after one place has changed to true. -/
theorem countP_range_set {p q : Nat → Bool} {i : Nat} (hq : q i = true) (h : ∀ j, j ≠ i → q j = p j)
    (n : Nat) :
    (List.range n).countP q = (List.range n).countP p + if i < n ∧ p i = false then 1 else 0 := by
  induction n with
  | zero => simp
  | succ n ih =>
    simp only [List.range_succ, List.countP_append, List.countP_singleton, ih]
    by_cases hn : n = i
    · subst hn; cases hp : p n <;> simp [hq]
    · have : i < n + 1 ↔ i < n := by omega
      rw [h n hn]
      simp only [this]
      omega

theorem live_eq_true (v : Byte) : live v = true ↔ v ≠ 0 := by simp [live, zero]

theorem liveCount_le_nslots (s : State) : liveCount s ≤ s.cfg.nslots := by
  simpa [liveCount] using
    List.countP_le_length (p := fun i => live (slotVal s i)) (l := List.range s.cfg.nslots)

/-- The item step of ADD occupies one slot more if the slot was empty, and none otherwise (R35). -/
theorem liveCount_addMarked {s : State} {i : Nat} (hi : i < s.cfg.nslots) (ha : s.a ≠ 0)
    (hring : s.a.toNat ≤ s.cfg.tmax) :
    liveCount (addMarked i s) = liveCount s + if slotVal s i = 0 then 1 else 0 := by
  have hsame : live (slotVal (addMarked i s) i) = true := by
    rwa [slotVal_addMarked_same hring, live_eq_true]
  have hother : ∀ j, j ≠ i → live (slotVal (addMarked i s) j) = live (slotVal s j) :=
    fun j hj => by rw [slotVal_addMarked_other hj]
  unfold liveCount
  rw [addMarked_cfg, countP_range_set hsame hother]
  simp [hi, live, zero]

theorem liveInByte_le (c : Config) (v : Byte) : liveInByte c v ≤ c.slotsPerByte := by
  unfold liveInByte Config.slotsPerByte
  cases c.enc
  · dsimp only; split <;> omega
  · dsimp only; split <;> split <;> omega

/-! ### The engine's invariant -/

theorem inBuffer_write {m : Memory} {n x : Nat} (hm : ∀ c ∈ m, c.1 < n) (hx : x < n) (v : Byte) :
    ∀ c ∈ m.write x v, c.1 < n := by
  intro c hc
  rcases Memory.mem_write hc with h | h
  · rw [h]; exact hx
  · exact hm c h

theorem opened_eq_false {s : State} (hs : Inv s) (hadd : s.phase ≠ .add)
    (hcontains : s.phase ≠ .contains) : s.source.opened = false := by
  rw [Bool.eq_false_iff, ne_eq, hs.stream]
  exact fun h => h.elim hadd hcontains

/-- The count fits the `VALUE` field of a response (R10, R25). -/
theorem acc_lt_two_pow_cw {s : State} (hs : Inv s) : s.acc < 2 ^ s.cfg.cw :=
  hs.accBound.trans_lt (nslots_lt_two_pow_cw s.cfg)

/-- A reset engine, whatever the outside agents remember. -/
theorem inv_reset {c : Config} (hc : c.wf = true) {src : Source} (hsrc : src.opened = false)
    (host : List HostEvent) {sent : List Response} (hsent : ∀ r ∈ sent, r.Legal c) :
    Inv { State.resetWith c with source := src, host := host, sent := sent } where
  config := hc
  canonical := rfl
  inBuffer := by simp [State.resetWith]
  accBound := Nat.zero_le _
  scanBound := Nat.zero_le _
  checked := fun h => absurd rfl h
  adding := fun h => by cases h
  scanning := fun h => by cases h
  stream := by simp [hsrc, State.resetWith]
  response := legal_okResponse (Nat.two_pow_pos _)
  delivered := hsent

theorem inv_resetWith {c : Config} (hc : c.wf = true) : Inv (State.resetWith c) :=
  inv_reset hc (src := Source.none) rfl [] (by simp)

/-- Settles O18. -/
theorem resetSatisfiesTheInvariant : Obligations.ResetSatisfiesTheInvariant :=
  ⟨fun _ => inv_resetWith, inv_resetWith (by decide)⟩

theorem inv_hostReset {s : State} (hs : Inv s) : Inv (hostReset s) :=
  inv_reset hs.config rfl s.host hs.delivered

/-- The HOST's list and the source's record are free, but for whether the stream is open. -/
theorem inv_outside {s : State} (hs : Inv s) {src : Source} (h : src.opened = s.source.opened)
    (host : List HostEvent) : Inv { s with source := src, host := host } :=
  { hs with stream := by rw [h]; exact hs.stream }

theorem inv_pull {s t : State} {b : Beat} (hs : Inv s) (hq : pull s = some (b, t)) : Inv t := by
  obtain ⟨hopen, hopen', ht⟩ := pull_frame hq
  rw [ht]
  exact inv_outside hs (hopen'.trans hopen.symm) s.host

/-- A command that ends: its stream, if it has one, is no longer open, and a legal response is delivered. -/
theorem inv_respond {s : State} (hs : Inv s) {src : Source} (hsrc : src.opened = false) {r : Response}
    (hr : r.Legal s.cfg) :
    Inv (respond r.status r.cause r.value r.info { s with source := src }) :=
  { hs with
    checked := fun h => absurd rfl h
    adding := fun h => by cases h
    scanning := fun h => by cases h
    stream := by simp [hsrc]
    response := hr
    delivered := by
      intro r' hr'
      rcases List.mem_append.1 hr' with h | h
      · exact hs.delivered r' h
      · rw [List.mem_singleton.1 h]; exact hr }

theorem inv_raise {s : State} (hs : Inv s) {cause : Cause} {info : Nat} (h : info < 2 ^ s.cfg.iw)
    (hinfo : cause ≠ .iaIndex → info = 0) : Inv (raise cause info s) :=
  inv_respond hs (src := (close s).source) rfl (legal_faultResponse h hinfo)

/-- An idle engine that latches a word's operands is still idle; none of them has been checked. -/
theorem inv_latch {s : State} (hs : Inv s) (hp : s.phase = .idle) (x y : Byte) : Inv (latch x y s) :=
  { hs with
    accBound := Nat.zero_le _
    scanBound := Nat.zero_le _
    checked := fun h => absurd hp h
    adding := fun h => by cases hp.symm.trans h
    scanning := fun _ => Nat.zero_le _ }

theorem inv_openStream {s : State} (hs : Inv s) {p : Phase} (hp : p = .add ∨ p = .contains)
    (hacc : s.acc = 0)
    (hchecked : s.cfg.bufValid = true ∧ s.a.toNat ≤ s.cfg.tmax ∧ s.b.toNat ≤ s.cfg.tmax)
    (htick : p = .add → s.a ≠ 0) : Inv (openStream p s) :=
  { hs with
    checked := fun _ => hchecked
    adding := fun h => ⟨htick h, by rw [openStream_acc, hacc]; exact Nat.zero_le _⟩
    scanning := fun _ => by rw [openStream_acc, hacc]; exact Nat.zero_le _
    stream := by simpa using hp }

theorem inv_startScan {s : State} (hs : Inv s) (hp : s.phase = .idle) (hacc : s.acc = 0)
    (hchecked : s.cfg.bufValid = true ∧ s.a.toNat ≤ s.cfg.tmax ∧ s.b.toNat ≤ s.cfg.tmax) :
    Inv (startScan s) :=
  { hs with
    checked := fun _ => hchecked
    adding := fun h => by cases h
    scanning := fun _ => by rw [startScan_acc, hacc]; exact Nat.zero_le _
    stream := by simpa [hp] using hs.stream }

theorem inv_acceptWord {s : State} (hs : Inv s) (hp : s.phase = .idle) (w : Word) :
    Inv (acceptWord w s) := by
  rcases acceptWord_cases w s with ⟨c, x, y, he⟩ | ⟨tick, -, hv, h0, hring, he⟩ |
    ⟨lo, hi, hv, hlo, hhi, he⟩ | ⟨lo, hi, hv, hlo, hhi, he⟩ <;> rw [he]
  · exact inv_raise (inv_latch hs hp x y) (Nat.two_pow_pos _) fun _ => rfl
  · exact inv_openStream (inv_latch hs hp tick 0) (.inl rfl) rfl ⟨hv, hring, Nat.zero_le _⟩ fun _ => h0
  · exact inv_openStream (inv_latch hs hp lo hi) (.inr rfl) rfl ⟨hv, hlo, hhi⟩ fun h => by cases h
  · exact inv_startScan (inv_latch hs hp lo hi) hp rfl ⟨hv, hlo, hhi⟩

/-- The item step of ADD counts a slot exactly when it occupies one more. -/
theorem inv_addMarked {s : State} {i : Nat} (hs : Inv s) (hp : s.phase = .add)
    (hi : i < s.cfg.nslots) : Inv (addMarked i s) := by
  obtain ⟨htick, hcounted⟩ := hs.adding hp
  obtain ⟨hv, hring, hb⟩ := hs.checked (by simp [hp])
  have hacc : (addMarked i s).acc ≤ liveCount (addMarked i s) := by
    rw [addMarked_acc, liveCount_addMarked hi htick hring]
    omega
  exact
    { config := by simpa using hs.config
      canonical := by rw [addMarked_buf]; exact Memory.wf_write _ _ hs.canonical
      inBuffer := by
        rw [addMarked_buf, addMarked_cfg]
        exact inBuffer_write hs.inBuffer (sel_lt_len hi) _
      accBound := hacc.trans (liveCount_le_nslots _)
      scanBound := by simpa using hs.scanBound
      checked := fun _ => by simpa using ⟨hv, hring, hb⟩
      adding := fun _ => ⟨by simpa using htick, hacc⟩
      scanning := fun h => by simp [hp] at h
      stream := by simpa using hs.stream
      response := by simpa using hs.response
      delivered := by simpa using hs.delivered }

/-- The byte step of DECAY counts at most the slots of the byte it passes. -/
theorem inv_decayByte {s : State} (hs : Inv s) (hp : s.phase = .decay) (hlt : s.scan < s.cfg.len) :
    Inv (advanceScan (decayedState s.scan s)) := by
  have hacc : (decayedState s.scan s).acc ≤ s.cfg.slotsPerByte * (s.scan + 1) := by
    have := hs.scanning hp
    have := liveInByte_le s.cfg (decayedByte s s.scan)
    simp only [decayedState, Nat.mul_add, Nat.mul_one]
    omega
  have hbuf : (decayedState s.scan s).buf.wf = true ∧
      ∀ c ∈ (decayedState s.scan s).buf, c.1 < s.cfg.len := by
    unfold decayedState
    by_cases hsame : decayedByte s s.scan = s.buf.read s.scan
    · rw [if_pos hsame]; exact ⟨hs.canonical, hs.inBuffer⟩
    · rw [if_neg hsame]
      exact ⟨Memory.wf_write _ _ hs.canonical, inBuffer_write hs.inBuffer hlt _⟩
  exact
    { hs with
      canonical := hbuf.1
      inBuffer := hbuf.2
      accBound := hacc.trans (Nat.mul_le_mul_left _ hlt)
      scanBound := hlt
      adding := fun h => by cases hp.symm.trans h
      scanning := fun _ => hacc }

theorem inv_move {s t : State} (hs : Inv s) (h : EngineMove s t) : Inv t := by
  cases h with
  | wait => exact hs
  | badBeat _ hq => exact inv_raise (inv_pull hs hq) (Nat.two_pow_pos _) fun _ => rfl
  | badIndex _ hq _ =>
    exact inv_raise (inv_pull hs hq) (pull_cfg hq ▸ pull_item_lt hq) fun h => absurd rfl h
  | addMarks hp hq hi => exact inv_addMarked (inv_pull hs hq) ((pull_phase hq).trans hp) hi
  | @addEnds u _ hq =>
    have hu := inv_pull hs hq
    exact inv_respond hu (src := (endStream u).source) rfl (legal_okResponse (acc_lt_two_pow_cw hu))
  | containsPasses _ hq _ _ => exact inv_pull hs hq
  | @containsFails u _ _ hq _ _ =>
    exact inv_respond (inv_pull hs hq) (src := (close u).source) rfl
      (legal_okResponse (Nat.two_pow_pos _))
  | @containsEnds u _ hq =>
    exact inv_respond (inv_pull hs hq) (src := (endStream u).source) rfl
      (legal_okResponse (one_lt_two_pow_cw _))
  | decayPasses hp hlt => exact inv_decayByte hs hp hlt
  | decayEnds hp _ =>
    exact inv_respond hs (opened_eq_false hs (by simp [hp]) (by simp [hp]))
      (legal_okResponse (acc_lt_two_pow_cw hs))

/-- An accepted word keeps the invariant as long as it runs. -/
theorem inv_presented {w : Word} {beats : List BeatWord} {tail : Tail} {s t : State} (hs : Inv s)
    (hp : s.phase = .idle) (h : Runs (acceptWord w (present beats tail (dropEvent s))) t) : Inv t := by
  have hclosed := opened_eq_false hs (by simp [hp]) (by simp [hp])
  have hpresent : Inv (present beats tail (dropEvent s)) := inv_outside hs hclosed.symm s.host.tail
  exact runs_keeps (fun _ _ => inv_move) h (inv_acceptWord hpresent hp w)

/-- Settles O21: the moves of the engine, the acceptance of a word and reset each keep the invariant. -/
theorem stepKeepsTheInvariant : Obligations.StepKeepsTheInvariant := by
  intro s t hs h
  rcases step_runs h with ⟨rest, -, rfl⟩ | ⟨hp, w, beats, tail, rest, -, hr⟩ |
    ⟨hp, w, beats, tail, n, rest, u, -, hr, rfl⟩ | hr
  · exact inv_hostReset (inv_outside hs rfl s.host.tail)
  · exact inv_presented hs hp hr
  · exact inv_hostReset (inv_presented hs hp hr)
  · exact runs_keeps (fun _ _ => inv_move) hr hs

end Sys2Proof.Machine
end

section
/-! PROOFS. The Slot Buffer (`20_memory.md`): which byte addresses exist, that no step leaves them, and where in
its byte each slot lies. -/

namespace Sys2Proof.Machine

/-! ### Byte addresses (R50) -/

theorem memRead_eq_error_iff (s : State) (a : Nat) :
    memRead s a = .error (.outsideBuffer a) ↔ s.cfg.len ≤ a := by
  unfold memRead
  split <;> simp <;> omega

theorem memWrite_eq_error_iff (s : State) (a : Nat) (v : Byte) :
    memWrite s a v = .error (.outsideBuffer a) ↔ s.cfg.len ≤ a := by
  unfold memWrite
  split <;> simp <;> omega

/-- Settles O12. -/
theorem onlyBufferAddressesExist : Obligations.OnlyBufferAddressesExist :=
  fun s a v => ⟨memRead_eq_error_iff s a, memWrite_eq_error_iff s a v⟩

/-! ### Every step has a next state (R58)

Each case of the three engine steps answers a next state (`addStep_cases` and its siblings): an item is accessed
only after its range check, and the scanner stops at `LEN`. Runs of engine steps, commands and the machine's step
inherit it. -/

theorem addStep_total (s : State) : ∃ t, addStep s = .next t := by
  rcases addStep_cases s with he | ⟨-, b, t, -, ⟨-, he⟩ | ⟨-, he⟩ | ⟨i, -, -, he⟩ | ⟨i, -, -, he⟩⟩
  all_goals exact ⟨_, he⟩

theorem containsStep_total (s : State) : ∃ t, containsStep s = .next t := by
  rcases containsStep_cases s with he | ⟨-, b, t, -, ⟨-, he⟩ | ⟨-, he⟩ | ⟨i, -, -, -, he⟩ |
    ⟨i, -, -, -, he⟩ | ⟨i, -, -, he⟩⟩
  all_goals exact ⟨_, he⟩

theorem decayStep_total (s : State) : ∃ t, decayStep s = .next t := by
  rcases decayStep_cases s with ⟨-, he⟩ | ⟨-, -, he⟩ | ⟨-, -, he⟩
  all_goals exact ⟨_, he⟩

theorem engineStep_total (s : State) : ∃ t, engineStep s = .next t := by
  unfold engineStep
  cases s.phase with
  | idle => exact ⟨s, rfl⟩
  | add => exact addStep_total s
  | contains => exact containsStep_total s
  | decay => exact decayStep_total s

/-- Steps that each have a next state have one in a row. -/
theorem stepN_total {f : State → Host.Outcome State Fault Refusal} (hf : ∀ s, ∃ t, f s = .next t)
    (n : Nat) (s : State) : ∃ t, stepN f n s = .next t := by
  induction n generalizing s with
  | zero => exact ⟨s, rfl⟩
  | succ n ih =>
    obtain ⟨u, hu⟩ := hf s
    rw [stepN_succ, hu, andThen_next]
    exact ih u

theorem addFinish_total (s : State) : ∃ t, addFinish s = .next t := stepN_total addStep_total _ s

theorem containsFinish_total (s : State) : ∃ t, containsFinish s = .next t :=
  stepN_total containsStep_total _ s

theorem decayFinish_total (s : State) : ∃ t, decayFinish s = .next t :=
  stepN_total decayStep_total _ s

theorem continueCommand_total (s : State) : ∃ t, continueCommand s = .next t := by
  unfold continueCommand
  cases s.phase with
  | idle => exact ⟨s, rfl⟩
  | add => exact addFinish_total s
  | contains => exact containsFinish_total s
  | decay => exact decayFinish_total s

/-- An idle engine runs the command, a busy one accepts nothing (R186). -/
theorem exec_total (i : Instr) (s : State) : ∃ t, exec i s = .next t := by
  by_cases hp : s.phase = .idle
  · cases i with
    | add tick => simpa only [exec, execAdd, hp, if_true] using addFinish_total _
    | contains lo hi => simpa only [exec, execContains, hp, if_true] using containsFinish_total _
    | decay lo hi => simpa only [exec, execDecay, hp, if_true] using decayFinish_total _
  · refine ⟨s, ?_⟩
    cases i <;> simp only [exec, execAdd, execContains, execDecay, hp, if_false]

theorem runWord_total (w : Word) (s : State) : ∃ t, runWord w s = .next t := by
  unfold runWord
  cases decode w with
  | ok i => exact exec_total i s
  | error e => exact ⟨_, rfl⟩

theorem cutCommand_total (w : Word) (n : Nat) (s : State) : ∃ t, cutCommand w n s = .next t := by
  obtain ⟨u, hu⟩ := stepN_total engineStep_total n (acceptWord w s)
  exact ⟨hostReset u, by rw [cutCommand, hu, andThen_next]⟩

theorem step_total (s : State) : ∃ t, step s = .next t := by
  rcases step_cases s with ⟨_, -, he⟩ | ⟨-, w, beats, tail, _, -, he⟩ |
    ⟨-, w, beats, tail, n, _, -, he⟩ | ⟨-, -, he⟩ <;> rw [he]
  · exact ⟨_, rfl⟩
  · exact runWord_total w _
  · exact cutCommand_total w n _
  · exact continueCommand_total s

/-- Settles O22. -/
theorem noStepLeavesTheBuffer : Obligations.NoStepLeavesTheBuffer := ⟨step_total, exec_total⟩

/-! ### The nibbles of a byte as numbers (R111, R112) -/

theorem nibGet_high_toNat (b : Byte) : (nibGet b true).toNat = b.toNat / 16 := by
  have hb := b.isLt
  simp only [nibGet, if_true, BitVec.extractLsb'_toNat, Nat.shiftRight_eq_div_pow]
  omega

theorem nibGet_low_toNat (b : Byte) : (nibGet b false).toNat = b.toNat % 16 := by
  simp [nibGet]

theorem lowNibble_toNat (v : Byte) : (lowNibble v).toNat = v.toNat % 16 := by
  simp [lowNibble]

theorem pack_toNat (h l : Nibble) : (pack h l).toNat = 16 * h.toNat + l.toNat := by
  have hl := l.isLt
  rw [pack, BitVec.toNat_append, ← Nat.shiftLeft_add_eq_or_of_lt hl, Nat.shiftLeft_eq, Nat.mul_comm]

/-! ### The slots of a byte as numbers (R52, R53, R114, R115) -/

theorem slotGet_enc4_high_toNat {c : Config} (he : c.enc = .enc4) (b : Byte) :
    (slotGet c b true).toNat = b.toNat / 16 := by
  rw [slotGet, he]
  exact (BitVec.toNat_setWidth_of_le (by decide)).trans (nibGet_high_toNat b)

theorem slotGet_enc4_low_toNat {c : Config} (he : c.enc = .enc4) (b : Byte) :
    (slotGet c b false).toNat = b.toNat % 16 := by
  rw [slotGet, he]
  exact (BitVec.toNat_setWidth_of_le (by decide)).trans (nibGet_low_toNat b)

theorem slotPut_enc4_high_toNat {c : Config} (he : c.enc = .enc4) (b v : Byte) :
    (slotPut c b true v).toNat = 16 * (v.toNat % 16) + b.toNat % 16 := by
  simp only [slotPut, he, nibPut, if_true, pack_toNat, lowNibble_toNat, nibGet_low_toNat]

theorem slotPut_enc4_low_toNat {c : Config} (he : c.enc = .enc4) (b v : Byte) :
    (slotPut c b false v).toNat = 16 * (b.toNat / 16) + v.toNat % 16 := by
  simp only [slotPut, he, nibPut, Bool.false_eq_true, if_false, pack_toNat, lowNibble_toNat,
    nibGet_high_toNat]

theorem sel_enc8 {c : Config} (he : c.enc = .enc8) (i : Nat) : sel c i = (i, true) := by
  rw [sel, he]

theorem sel_enc4 {c : Config} (he : c.enc = .enc4) (i : Nat) :
    sel c i = (i / 2, decide (i % 2 = 0)) := by
  rw [sel, he]; rfl

/-- A slot write in range succeeds, and leaves in the slot's byte that byte with the slot replaced. -/
theorem slotWrite_read {s : State} {i : Nat} (h : i < s.cfg.nslots) (v : Byte) :
    ∃ t, slotWrite s i v = .ok t ∧ t.buf.read (sel s.cfg i).1 =
      slotPut s.cfg (s.buf.read (sel s.cfg i).1) (sel s.cfg i).2 v :=
  ⟨_, slotWrite_of_lt h v, by rw [Memory.read_write, if_pos rfl]⟩

/-- Settles O9: the slot is the byte in ENC8, and in ENC4 the half of it that the parity of `i` selects. -/
theorem slotsLieInTheirBytes : Obligations.SlotsLieInTheirBytes := by
  intro s i v hi
  obtain ⟨t, hw, ht⟩ := slotWrite_read hi v
  refine ⟨t, slotRead_of_lt hi, hw, fun he => ?enc8, fun he => ?enc4⟩
  case enc8 =>
    rw [sel_enc8 he] at ht
    refine ⟨Config.nslots_enc8 he, by rw [sel_enc8 he], ?_, ?_⟩
    · simp only [slotVal, sel_enc8 he, slotGet, he]
    · simpa only [slotPut, he] using ht
  case enc4 =>
    refine ⟨Config.nslots_enc4 he, sel_enc4 he i, fun heven => ?_, fun hodd => ?_⟩
    · have hsel : sel s.cfg i = (i / 2, true) := by rw [sel_enc4 he, decide_eq_true heven]
      rw [hsel] at ht
      rw [slotVal, hsel, ht]
      exact ⟨slotGet_enc4_high_toNat he _, slotPut_enc4_high_toNat he _ v⟩
    · have hsel : sel s.cfg i = (i / 2, false) := by rw [sel_enc4 he, hodd]; rfl
      rw [hsel] at ht
      rw [slotVal, hsel, ht]
      exact ⟨slotGet_enc4_low_toNat he _, slotPut_enc4_low_toNat he _ v⟩

end Sys2Proof.Machine
end

section
/-! PROOFS. The encodings of `30_encoding.md`: the command word, the beat of the index stream and the packed
response.

The decoder is the inverse of the encoder (`decode_eq_ok_iff`), so what is said of the words that decode to a
command is said of the word that encodes it. -/

namespace Sys2Proof.Machine

/-! ### The command word (R86 to R89) -/

/-- The decoder on a word in format `C`: the operation that `OP` selects (R87), and no other field but the
`B` field of ADD can make the word illegal (R89). -/
theorem decode_formatC (op : BitVec 2) (b a : Byte) :
    decode (formatC op b a) =
      if op = 0 then .error .opReserved
      else if op = 1 then (if b ≠ 0 then .error .addOperandB else .ok (.add a))
      else if op = 2 then .ok (.contains a b)
      else .ok (.decay a b) := by
  obtain ⟨hzero, hop, hb, ha⟩ := fields_formatC op b a
  rw [decode, hzero, hop, hb, ha, if_neg (not_not_intro rfl)]

theorem decode_encode (i : Instr) : decode (encode i) = .ok i := by
  cases i with
  | add tick => exact decode_formatC 1 0 tick
  | contains tickMin tickMax => exact decode_formatC 2 tickMax tickMin
  | decay tickMin tickMax => exact decode_formatC 3 tickMax tickMin

/-- A word with an empty `ZERO` field is its other fields in format `C` (R86). -/
theorem formatC_fields {w : Word} (h : fieldZero w = 0) :
    formatC (fieldOp w) (fieldB w) (fieldA w) = w := by
  have hzero : w.toNat / 262144 = 0 := by rw [← fieldZero_toNat, h]; rfl
  apply BitVec.eq_of_toNat_eq
  rw [formatC_toNat, fieldOp_toNat, fieldB_toNat, fieldA_toNat]
  omega

/-- R89 in the fields of the word. -/
theorem illegalWord_iff (w : Word) :
    IllegalWord w ↔ fieldZero w ≠ 0 ∨ fieldOp w = 0 ∨ (fieldOp w = 1 ∧ fieldB w ≠ 0) := by
  simp only [IllegalWord, ne_eq, ← BitVec.toNat_inj, fieldZero_toNat, fieldOp_toNat, fieldB_toNat]
  rfl

theorem decode_ne_ok_of_illegal {w : Word} (h : IllegalWord w) (i : Instr) : decode w ≠ .ok i := by
  by_cases hzero : fieldZero w = 0
  · rw [← formatC_fields hzero, decode_formatC]
    rcases (illegalWord_iff w).mp h with hz | hop | ⟨hop, hb⟩
    · exact absurd hzero hz
    · rw [if_pos hop]; nofun
    · rw [hop, if_neg (by decide), if_pos rfl, if_pos hb]; nofun
  · rw [decode, if_pos hzero]; nofun

/-- A word that R89 does not call illegal has one of the three operations, and is the word of that
instruction. -/
theorem exists_encode_of_legal {w : Word} (h : ¬ IllegalWord w) : ∃ i, w = encode i := by
  rw [illegalWord_iff, not_or, not_or, not_not] at h
  obtain ⟨hzero, hop, hadd⟩ := h
  have hw := formatC_fields hzero
  generalize fieldOp w = op at hw hop hadd
  match op with
  | 0 => exact absurd rfl hop
  | 1 =>
    have hb : fieldB w = 0 := not_not.mp fun hb => hadd ⟨rfl, hb⟩
    exact ⟨.add (fieldA w), (hb ▸ hw).symm⟩
  | 2 => exact ⟨.contains (fieldA w) (fieldB w), hw.symm⟩
  | 3 => exact ⟨.decay (fieldA w) (fieldB w), hw.symm⟩

theorem decode_eq_ok_iff {w : Word} {i : Instr} : decode w = .ok i ↔ w = encode i := by
  refine ⟨fun hi => ?_, fun hw => hw ▸ decode_encode i⟩
  obtain ⟨j, rfl⟩ := exists_encode_of_legal fun hill => decode_ne_ok_of_illegal hill i hi
  cases (decode_encode j).symm.trans hi
  rfl

/-- A 32-bit table word is decoded as it stands. -/
theorem decodeTableWord_toNat (w : Word) : decodeTableWord 32 w.toNat = (decode w).toOption := by
  rw [decodeTableWord, Nat.mod_eq_of_lt w.isLt, if_pos w.isLt, BitVec.ofNat_toNat, BitVec.setWidth_eq]
  cases decode w <;> rfl

/-- Settles O1: the table word of an instruction is its command word. -/
theorem encodeThenDecodeIsIdentity : Obligations.EncodeThenDecodeIsIdentity := fun i =>
  ⟨decode_encode i, by rw [decodeTableWord_toNat, decode_encode]; rfl⟩

/-- Settles O3: a word that is not illegal encodes an instruction, and the decoder inverts the encoder. -/
theorem decodeRejectsExactlyTheIllegalWords : Obligations.DecodeRejectsExactlyTheIllegalWords := by
  refine fun w => ⟨⟨decode_ne_ok_of_illegal, fun hnone => ?_⟩, fun i => decode_eq_ok_iff.mp⟩
  by_contra hlegal
  obtain ⟨i, hw⟩ := exists_encode_of_legal hlegal
  exact hnone i (decode_eq_ok_iff.mpr hw)

/-! ### Words by match and mask (R87) -/

/-- The mask of all bits from `k` on keeps the greatest multiple of `2 ^ k`. -/
theorem and_highMask_toNat (w : Word) (k : Nat) :
    (w &&& BitVec.allOnes 32 <<< k).toNat = w.toNat / 2 ^ k * 2 ^ k := by
  have hlt : w.toNat / 2 ^ k * 2 ^ k < 2 ^ 32 := (Nat.div_mul_le_self _ _).trans_lt w.isLt
  rw [← BitVec.shiftLeft_ushiftRight, BitVec.toNat_shiftLeft, BitVec.toNat_ushiftRight,
    Nat.shiftRight_eq_div_pow, Nat.shiftLeft_eq, Nat.mod_eq_of_lt hlt]

/-- The mask of ADD selects by `ZERO`, `OP` and `B`. -/
theorem and_addMask_eq_iff (w : Word) (op : BitVec 2) (b : Byte) :
    w &&& 0xFFFFFF00#32 = formatC op b 0#8 ↔
      w.toNat / 65536 = op.toNat ∧ b.toNat = w.toNat / 256 % 256 := by
  have hb := b.isLt
  have hmask : (w &&& 0xFFFFFF00#32).toNat = w.toNat / 256 * 256 := and_highMask_toNat w 8
  rw [← BitVec.toNat_inj, hmask, formatC_toNat, BitVec.toNat_zero]
  omega

/-- The mask of CONTAINS and DECAY selects by `ZERO` and `OP`. -/
theorem and_windowMask_eq_iff (w : Word) (op : BitVec 2) :
    w &&& 0xFFFF0000#32 = formatC op 0#8 0#8 ↔ w.toNat / 65536 = op.toNat := by
  have hmask : (w &&& 0xFFFF0000#32).toNat = w.toNat / 65536 * 65536 := and_highMask_toNat w 16
  rw [← BitVec.toNat_inj, hmask, formatC_toNat, BitVec.toNat_zero]
  omega

/-- A word in format `C` by its fields as numbers. -/
theorem eq_formatC_iff (w : Word) (op : BitVec 2) (b a : Byte) :
    w = formatC op b a ↔
      w.toNat / 65536 = op.toNat ∧ a.toNat = w.toNat % 256 ∧ b.toNat = w.toNat / 256 % 256 := by
  have ha := a.isLt
  have hb := b.isLt
  rw [← BitVec.toNat_inj, formatC_toNat]
  omega

/-- The words of CONTAINS and DECAY by match and mask, with the operand fields of R88. -/
theorem eq_formatC_iff_windowMask (w : Word) (op : BitVec 2) (hi lo : Byte) :
    w = formatC op hi lo ↔ w &&& 0xFFFF0000#32 = formatC op 0#8 0#8 ∧
      lo.toNat = w.toNat % 256 ∧ hi.toNat = w.toNat / 256 % 256 := by
  rw [eq_formatC_iff, and_windowMask_eq_iff]

/-- The words of ADD by match and mask, with the operand field of R88. -/
theorem eq_formatC_iff_addMask (w : Word) (op : BitVec 2) (b tick : Byte) :
    w = formatC op b tick ↔
      w &&& 0xFFFFFF00#32 = formatC op b 0#8 ∧ tick.toNat = w.toNat % 256 := by
  rw [eq_formatC_iff, and_addMask_eq_iff, and_assoc, @and_comm (tick.toNat = _)]

/-- Settles O2: the match values of R87 are the words in format `C` with empty operand fields. -/
theorem decodeAcceptsExactlyTheMaskedWords : Obligations.DecodeAcceptsExactlyTheMaskedWords := fun w =>
  ⟨fun tick => decode_eq_ok_iff.trans (eq_formatC_iff_addMask w 1 0 tick),
    fun lo hi => decode_eq_ok_iff.trans (eq_formatC_iff_windowMask w 2 hi lo),
    fun lo hi => decode_eq_ok_iff.trans (eq_formatC_iff_windowMask w 3 hi lo)⟩

/-! ### Beats (R90, R91) -/

theorem beatKind_of_fields {iw kind idx : Nat} (hk : kind < 4) (hi : idx < 2 ^ iw) :
    beatKind iw (kind * 2 ^ iw + idx) = kind := by
  rw [beatKind, Nat.mul_comm, Nat.mul_add_div (Nat.two_pow_pos iw), Nat.div_eq_of_lt hi,
    Nat.add_zero, Nat.mod_eq_of_lt hk]

theorem beatIndex_of_fields {iw idx : Nat} (kind : Nat) (hi : idx < 2 ^ iw) :
    beatIndex iw (kind * 2 ^ iw + idx) = idx :=
  Nat.mul_add_mod_of_lt hi

/-- What a beat decodes to, by its `KIND` and its `IDX`. -/
theorem decodeBeat_of_fields {iw kind idx : Nat} (hk : kind < 4) (hi : idx < 2 ^ iw) :
    decodeBeat iw (kind * 2 ^ iw + idx) =
      if kind = 0 then .item idx else if kind = 1 then .done else .bad := by
  rw [decodeBeat, beatKind_of_fields hk hi, beatIndex_of_fields kind hi]

theorem beatWord_wf_of_fields {iw kind idx : Nat} (hk : kind < 4) (hi : idx < 2 ^ iw) :
    BeatWord.wf iw (kind * 2 ^ iw + idx) = true := by
  rw [BeatWord.wf, decide_eq_true_iff, Nat.pow_add, Nat.mul_comm (2 ^ iw)]
  calc kind * 2 ^ iw + idx < (kind + 1) * 2 ^ iw := by rw [Nat.add_one_mul]; omega
    _ ≤ 2 ^ 2 * 2 ^ iw := Nat.mul_le_mul_right _ hk

/-- The fields of the beat that stands for an answer (R90). -/
theorem encodeBeat_fields {iw : Nat} {b : Beat} (h : b.wf iw = true) :
    ∃ kind idx, kind < 4 ∧ idx < 2 ^ iw ∧ encodeBeat iw b = kind * 2 ^ iw + idx ∧
      b = if kind = 0 then .item idx else if kind = 1 then .done else .bad := by
  cases b with
  | item i => exact ⟨0, i, by decide, of_decide_eq_true h, by simp [encodeBeat], rfl⟩
  | done => exact ⟨1, 0, by decide, Nat.two_pow_pos iw, by simp [encodeBeat], rfl⟩
  | bad => exact ⟨2, 0, by decide, Nat.two_pow_pos iw, rfl, rfl⟩

/-- Settles O5: every beat the stream can carry has a `KIND` and an `IDX`, and decodes by them. -/
theorem beatFieldsDecode : Obligations.BeatFieldsDecode := by
  refine ⟨fun iw kind idx => decodeBeat_of_fields, fun iw b hb => ?_⟩
  obtain ⟨kind, idx, hk, hi, he, heq⟩ := encodeBeat_fields hb
  rw [he]
  exact ⟨(decodeBeat_of_fields hk hi).trans heq.symm, beatWord_wf_of_fields hk hi⟩

/-! ### The packed response (R92) -/

/-- The lowest `k` bits of a word, and what stands above them. -/
theorem mod_and_div_of_low_field {k x : Nat} (hx : x < 2 ^ k) (rest : Nat) :
    (x + 2 ^ k * rest) % 2 ^ k = x ∧ (x + 2 ^ k * rest) / 2 ^ k = rest := by
  rw [Nat.add_mul_mod_self_left, Nat.mod_eq_of_lt hx, Nat.add_mul_div_left _ _ (Nat.two_pow_pos k),
    Nat.div_eq_of_lt hx, Nat.zero_add]
  exact ⟨rfl, rfl⟩

/-- R92 read from the bottom: each field has the rest of the word above it. -/
theorem packed_eq (c : Config) (r : Response) :
    r.packed c = r.status.code.toNat +
      2 ^ 2 * (r.cause.code.toNat + 2 ^ 3 * (r.value + 2 ^ c.cw * r.info)) := by
  rw [Response.packed, Nat.pow_add]
  ring

/-- Settles O6, by taking the fields off the packed word from the bottom. -/
theorem packedResponseHoldsItsFields : Obligations.PackedResponseHoldsItsFields := by
  intro c r hv hi
  obtain ⟨hstatus, habove2⟩ := mod_and_div_of_low_field r.status.code.isLt
    (r.cause.code.toNat + 2 ^ 3 * (r.value + 2 ^ c.cw * r.info))
  obtain ⟨hcause, habove3⟩ := mod_and_div_of_low_field r.cause.code.isLt (r.value + 2 ^ c.cw * r.info)
  obtain ⟨hvalue, habove⟩ := mod_and_div_of_low_field hv r.info
  rw [← packed_eq] at hstatus habove2
  have habove5 : r.packed c / 2 ^ 5 = r.value + 2 ^ c.cw * r.info := by
    rw [Nat.pow_add 2 2 3, ← Nat.div_div_eq_div_mul, habove2, habove3]
  have hinfo : r.packed c / 2 ^ (c.cw + 5) = r.info := by
    rw [Nat.add_comm, Nat.pow_add, ← Nat.div_div_eq_div_mul, habove5, habove]
  have htop : r.packed c < 2 ^ c.iw * 2 ^ (c.cw + 5) := by
    rwa [← Nat.div_lt_iff_lt_mul (Nat.two_pow_pos _), hinfo]
  refine ⟨hstatus, by rw [habove2, hcause], by rw [habove5, hvalue],
    by rw [hinfo, Nat.mod_eq_of_lt hi], ?_⟩
  rwa [← Nat.pow_add, ← Nat.add_assoc, Nat.add_comm c.iw] at htop

/-! ### Words written out by hand -/

/-- Settles O4, by running the decoder on the six words. -/
theorem sampleWordsDecode : Obligations.SampleWordsDecode := by
  unfold Obligations.SampleWordsDecode
  decide

end Sys2Proof.Machine
end

section
/-! PROOFS. The functional units (`40_units.md`): the bit-select unit, reading and writing one slot, and the
ring-tick comparator with the size of its window. -/

namespace Sys2Proof.Machine

/-! ### The bit-select unit (R110) -/

/-- Two slots of one byte differ in the select bit (`sel_other`), so no two slots share a place. -/
theorem sel_injective (c : Config) {i j : Nat} (h : sel c i = sel c j) : i = j := by
  by_contra hne
  obtain ⟨-, hbit⟩ := sel_other hne (congrArg Prod.fst h)
  rw [h] at hbit
  exact Bool.self_ne_not _ hbit

/-- The slot at a half of a byte in ENC4: the even one in the high half (R53). -/
theorem sel_enc4_surjective {c : Config} (he : c.enc = .enc4) {addr : Nat} (h : addr < c.len) (hi : Bool) :
    ∃ i, i < c.nslots ∧ sel c i = (addr, hi) := by
  simp only [Config.nslots_enc4 he, sel_enc4 he, Prod.mk.injEq]
  cases hi with
  | true => exact ⟨2 * addr, by omega, by omega, decide_eq_true (by omega)⟩
  | false => exact ⟨2 * addr + 1, by omega, by omega, decide_eq_false (by omega)⟩

/-- Settles O8. -/
theorem selIsABijection : Obligations.SelIsABijection := by
  intro c
  refine ⟨fun i => sel_lt_len, fun i j => sel_injective c, fun he addr h => ?enc8,
    fun he addr hi h => sel_enc4_surjective he h hi⟩
  exact ⟨addr, by rwa [Config.nslots_enc8 he], by rw [sel_enc8 he]⟩

/-! ### Reading and writing one slot (R114 to R117) -/

theorem slotRead_eq (s : State) (i : Nat) :
    slotRead s i =
      if (sel s.cfg i).1 < s.cfg.len then .ok (slotVal s i) else .error (.outsideBuffer (sel s.cfg i).1) := by
  by_cases hlt : (sel s.cfg i).1 < s.cfg.len
  · simp only [slotRead, memRead, slotVal, hlt, if_true]
  · simp only [slotRead, memRead, hlt, if_false]

/-- A slot read depends on the configuration and on the slot's value, in range or not. -/
theorem slotRead_congr {s t : State} {i : Nat} (hcfg : t.cfg = s.cfg) (hval : slotVal t i = slotVal s i) :
    slotRead t i = slotRead s i := by
  rw [slotRead_eq, slotRead_eq, hcfg, hval]

theorem slotWrite_frame {s t : State} {i : Nat} {v : Byte} (h : slotWrite s i v = .ok t) :
    t = { s with buf := t.buf } := by
  obtain ⟨-, rfl⟩ := slotWrite_ok h
  rfl

theorem slotWrite_cfg {s t : State} {i : Nat} {v : Byte} (h : slotWrite s i v = .ok t) :
    t.cfg = s.cfg := by
  rw [slotWrite_frame h]

theorem slotWrite_read_other {s t : State} {i : Nat} {v : Byte} (h : slotWrite s i v = .ok t) {addr : Nat}
    (hne : addr ≠ (sel s.cfg i).1) : t.buf.read addr = s.buf.read addr := by
  obtain ⟨-, rfl⟩ := slotWrite_ok h
  rw [Memory.read_write, if_neg hne]

/-- A slot write leaves the slots that the item step of ADD leaves with the value in its tick latch, so what is
known of the slots after that step holds after every slot write. -/
theorem slotVal_slotWrite {s t : State} {i : Nat} {v : Byte} (h : slotWrite s i v = .ok t) (j : Nat) :
    slotVal t j = slotVal (addMarked i { s with a := v }) j := by
  obtain ⟨-, rfl⟩ := slotWrite_ok h
  exact slotVal_congr (by rw [addMarked_cfg]) (by rw [addMarked_buf]) j

theorem slotVal_slotWrite_same {s t : State} {i : Nat} {v : Byte} (h : slotWrite s i v = .ok t)
    (hv : v.toNat ≤ s.cfg.tmax) : slotVal t i = v :=
  (slotVal_slotWrite h i).trans (slotVal_addMarked_same (s := { s with a := v }) hv i)

theorem slotVal_slotWrite_other {s t : State} {i j : Nat} {v : Byte} (h : slotWrite s i v = .ok t)
    (hne : j ≠ i) : slotVal t j = slotVal s j :=
  (slotVal_slotWrite h j).trans (slotVal_addMarked_other hne { s with a := v })

/-- Settles O10. -/
theorem slotReadAfterSlotWrite : Obligations.SlotReadAfterSlotWrite := by
  intro s i v hi hv
  obtain ⟨t, hw, -⟩ := slotWrite_read hi v
  refine ⟨t, hw, ?_⟩
  rw [slotRead_of_lt (by rwa [slotWrite_cfg hw]), slotVal_slotWrite_same hw hv]

/-- Settles O11. -/
theorem slotWriteKeepsEveryOtherSlot : Obligations.SlotWriteKeepsEveryOtherSlot := by
  intro s i v hi
  obtain ⟨t, hw, -⟩ := slotWrite_read hi v
  exact ⟨t, hw, fun j hne => slotRead_congr (slotWrite_cfg hw) (slotVal_slotWrite_other hw hne),
    fun addr => slotWrite_read_other hw, slotWrite_frame hw⟩

/-! ### The comparator at the bounds of its window (R118, R120) -/

theorem fresh_of_wrap {v lo hi : Byte} (h : hi.toNat < lo.toNat) :
    fresh v lo hi = true ↔ lo.toNat < v.toNat ∨ v.toNat ≤ hi.toNat := by
  rw [fresh_iff]
  omega

theorem fresh_of_not_wrap {v lo hi : Byte} (h : lo.toNat ≤ hi.toNat) :
    fresh v lo hi = true ↔ lo.toNat < v.toNat ∧ v.toNat ≤ hi.toNat := by
  rw [fresh_iff]
  omega

theorem fresh_lower (lo hi : Byte) : fresh lo lo hi = false := by
  rw [Bool.eq_false_iff, Ne, fresh_iff]
  omega

theorem fresh_upper {lo hi : Byte} (h : lo ≠ hi) : fresh hi lo hi = true := by
  have hne : lo.toNat ≠ hi.toNat := fun he => h (BitVec.eq_of_toNat_eq he)
  rw [fresh_iff]
  omega

theorem fresh_of_eq_bounds (v lo : Byte) : fresh v lo lo = false := by
  rw [Bool.eq_false_iff, Ne, fresh_of_not_wrap le_rfl]
  omega

theorem fresh_zero_iff (lo hi : Byte) : fresh 0 lo hi = true ↔ hi.toNat < lo.toNat := by
  simp [fresh_iff]

/-- Settles O13. -/
theorem freshFollowsTheWindow : Obligations.FreshFollowsTheWindow := by
  refine fun v lo hi => ⟨fun h => fresh_of_not_wrap h.le, fresh_of_wrap, fun h =>
    ⟨fresh_of_not_wrap h.ge, ?_⟩⟩
  obtain rfl : hi = lo := BitVec.eq_of_toNat_eq h
  exact fresh_of_eq_bounds v hi

/-- Settles O15: bounds in the ring reach the comparator unchanged in either encoding. -/
theorem freshAtItsBounds : Obligations.FreshAtItsBounds := by
  intro c c' v lo hi hlo hhi hlo' hhi'
  rw [windowBound_of_inRing hlo, windowBound_of_inRing hhi, windowBound_of_inRing hlo',
    windowBound_of_inRing hhi']
  exact ⟨rfl, fresh_lower lo hi, fresh_upper, fun h => h ▸ fresh_of_eq_bounds v lo, fresh_zero_iff lo hi⟩

/-! ### The comparator in the ring (R121) -/

/-- A difference of two ring values, or one less, has its representative one turn up when it is negative. -/
theorem emod_of_one_turn {d m : Int} (hlow : -m ≤ d) (hhigh : d < m) :
    d % m = if d < 0 then d + m else d := by
  split
  · rw [← Int.add_emod_right, Int.emod_eq_of_lt (by omega) (by omega)]
  · exact Int.emod_eq_of_lt (by omega) hhigh

/-- Settles O14: the representatives are the distances from `lo + 1` up to `v` and from `lo` up to `hi`, each
one turn further when it crosses the ring's boundary. -/
theorem freshIsOneModularInequality : Obligations.FreshIsOneModularInequality := by
  intro c v lo hi hv hlo hhi
  have hring : (c.ring : Int) = c.tmax + 1 := by simp [Config.ring]
  rw [emod_of_one_turn (by omega) (by omega), emod_of_one_turn (by omega) (by omega), fresh_iff]
  split <;> split <;> omega

/-! ### The size of a window (R126) -/

theorem ring_le_256 (c : Config) : c.ring ≤ 256 := by
  unfold Config.ring
  cases he : c.enc with
  | enc8 => rw [Config.tmax_enc8 he]
  | enc4 => rw [Config.tmax_enc4 he]; omega

theorem tmax_ne_zero (c : Config) : c.tmax ≠ 0 := by
  cases he : c.enc with
  | enc8 => rw [Config.tmax_enc8 he]; decide
  | enc4 => rw [Config.tmax_enc4 he]; decide

theorem toNat_of_lt_ring {c : Config} {n : Nat} (h : n < c.ring) : (BitVec.ofNat 8 n).toNat = n := by
  have := ring_le_256 c
  rw [BitVec.toNat_ofNat, Nat.mod_eq_of_lt (by omega)]

theorem countP_range_interval (a b n : Nat) :
    ((List.range n).countP fun v => decide (a < v ∧ v ≤ b)) = min b (n - 1) - a := by
  induction n with
  | zero => simp
  | succ n ih =>
    simp only [List.range_succ, List.countP_append, List.countP_singleton, ih, decide_eq_true_eq]
    split <;> omega

/-- A window that does not wrap is an interval of the ring, one that wraps the complement of one. -/
theorem freshCount_eq (c : Config) {lo hi : Byte} (hlo : lo.toNat ≤ c.tmax) (hhi : hi.toNat ≤ c.tmax) :
    ((List.range c.ring).countP fun v => fresh (BitVec.ofNat 8 v) lo hi) =
      if hi.toNat < lo.toNat then c.ring - lo.toNat + hi.toNat else hi.toNat - lo.toNat := by
  have hring : c.ring = c.tmax + 1 := rfl
  by_cases hw : hi.toNat < lo.toNat
  · have houtside : ((List.range c.ring).countP fun v => !fresh (BitVec.ofNat 8 v) lo hi) =
        lo.toNat - hi.toNat := by
      rw [List.countP_congr (q := fun v => decide (hi.toNat < v ∧ v ≤ lo.toNat)), countP_range_interval]
      · omega
      · intro v hv
        rw [Bool.not_eq_true', Bool.eq_false_iff, Ne, fresh_of_wrap hw,
          toNat_of_lt_ring (List.mem_range.mp hv), decide_eq_true_eq]
        omega
    have htotal := List.length_eq_countP_add_countP (fun v => fresh (BitVec.ofNat 8 v) lo hi)
      (l := List.range c.ring)
    rw [List.length_range] at htotal
    simp only [Bool.not_eq_true, Bool.decide_eq_false] at htotal
    rw [if_pos hw]
    omega
  · rw [if_neg hw, List.countP_congr (q := fun v => decide (lo.toNat < v ∧ v ≤ hi.toNat)),
      countP_range_interval]
    · omega
    · intro v hv
      rw [fresh_of_not_wrap (by omega), toNat_of_lt_ring (List.mem_range.mp hv), decide_eq_true_eq]

/-- Of the ring values in a window only `0` is no tick, and it is there exactly when the window wraps. -/
theorem freshCount_eq_keepCount (c : Config) (lo hi : Byte) :
    ((List.range c.ring).countP fun v => fresh (BitVec.ofNat 8 v) lo hi) =
      ((List.range c.ring).countP fun v => keep (BitVec.ofNat 8 v) lo hi) +
        if hi.toNat < lo.toNat then 1 else 0 := by
  have hticks : ∀ v ∈ List.range c.tmax,
      fresh (BitVec.ofNat 8 (v + 1)) lo hi = true ↔ keep (BitVec.ofNat 8 (v + 1)) lo hi = true := by
    intro v hv
    have hnat : (BitVec.ofNat 8 (v + 1)).toNat = v + 1 :=
      toNat_of_lt_ring (c := c) (Nat.succ_lt_succ (List.mem_range.mp hv))
    have hne : BitVec.ofNat 8 (v + 1) ≠ 0 := fun h => by simp [h] at hnat
    rw [keep_iff, and_iff_right hne]
  have hzeroFresh : fresh (BitVec.ofNat 8 0) lo hi = true ↔ hi.toNat < lo.toNat := fresh_zero_iff lo hi
  have hzeroKeep : keep (BitVec.ofNat 8 0) lo hi = false := rfl
  rw [Config.ring, List.range_succ_eq_map, List.countP_cons, List.countP_cons, List.countP_map,
    List.countP_map]
  simp only [hzeroFresh, hzeroKeep, Bool.false_eq_true, if_false, Nat.add_zero]
  exact congrArg (· + _) (List.countP_congr hticks)

/-- The lower bound and `TMAX` are the ticks that a narrower window leaves out. -/
theorem keeps_every_tick_iff (c : Config) {lo hi : Byte} (hlo : lo.toNat ≤ c.tmax)
    (hhi : hi.toNat ≤ c.tmax) :
    (∀ v : Byte, v ≠ 0 → v.toNat ≤ c.tmax → keep v lo hi = true) ↔
      lo.toNat = 0 ∧ hi.toNat = c.tmax := by
  constructor
  · intro h
    have hlo0 : lo = 0 := by
      by_contra hne
      have hfresh := ((keep_iff ..).mp (h lo hne hlo)).2
      rw [fresh_lower] at hfresh
      exact Bool.false_ne_true hfresh
    subst hlo0
    refine ⟨rfl, le_antisymm hhi ?_⟩
    have hnat : (BitVec.ofNat 8 c.tmax).toNat = c.tmax := toNat_of_lt_ring (c := c) (Nat.lt_succ_self _)
    have hne : BitVec.ofNat 8 c.tmax ≠ 0 := fun h0 => tmax_ne_zero c (by rw [← hnat, h0]; rfl)
    have hfresh := ((keep_iff ..).mp (h _ hne hnat.le)).2
    rw [fresh_of_not_wrap (Nat.zero_le _), hnat] at hfresh
    exact hfresh.2
  · rintro ⟨hl, hh⟩ v hv hle
    have hpos : v.toNat ≠ 0 := fun h0 => hv (BitVec.eq_of_toNat_eq h0)
    rw [keep_iff, fresh_of_not_wrap (by omega)]
    exact ⟨hv, by omega, by omega⟩

/-- Settles O16. -/
theorem windowAdmitsItsSize : Obligations.WindowAdmitsItsSize := by
  intro c lo hi hlo hhi
  have hring : c.ring = c.tmax + 1 := rfl
  have hfresh := freshCount_eq c hlo hhi
  have hkeep := freshCount_eq_keepCount c lo hi
  refine ⟨?ringValues, ?ticks, fresh_zero_iff lo hi, keeps_every_tick_iff c hlo hhi⟩
  case ringValues =>
    rw [hfresh, emod_of_one_turn (by omega) (by omega)]
    split <;> split <;> omega
  case ticks =>
    rw [hfresh] at hkeep
    split at hkeep <;> split <;> omega

end Sys2Proof.Machine
end

section
/-! PROOFS. ADD (`41_add.md`).

Where a running ADD stands is said by the state it began in, the items it has marked and the source's side of the
stream (`Marked`). An answered pull and the item step lead from one such state to the next (`marked_pull`,
`marked_addMarked`). So ADD, on any stream, has failed a pre-check or stands, or has ended, in such a state
(`exec_add_outcome`), and on items in range and one more beat the items marked are those listed
(`exec_add_of_items`). -/

namespace Sys2Proof.Machine

/-! ### Acceptance -/

theorem add_wf_iff (c : Config) (tick : Byte) :
    (Instr.add tick).wf c = true ↔ tick ≠ 0 ∧ tick.toNat ≤ c.tmax := by
  simp [Instr.wf]

/-- The state in which ADD begins to pull, once its operand has been checked (R130, R180, R183). -/
abbrev addStarted (tick : Byte) (s : State) : State := openStream .add (latch tick 0 s)

theorem acceptAdd_of_legal {s : State} {tick : Byte} (hv : s.cfg.bufValid = true) (h0 : tick ≠ 0)
    (hring : tick.toNat ≤ s.cfg.tmax) : acceptAdd tick s = addStarted tick s := by
  rw [acceptAdd, (tickDefect_none_iff s.cfg tick).2 ⟨hv, h0, hring⟩]

theorem exec_add_of_idle {s : State} (hp : s.phase = .idle) (tick : Byte) :
    exec (.add tick) s = addFinish (acceptAdd tick s) := by
  simp only [exec, execAdd, hp, if_true]

theorem addFinish_of_ne {s : State} (h : s.phase ≠ .add) : addFinish s = .next s :=
  stepN_of_fixed (addStep_of_ne h) _

/-- A tick that fails a pre-check ends ADD at its acceptance (R135). -/
theorem exec_add_of_defect {s : State} {tick : Byte} {c : Cause} (hp : s.phase = .idle)
    (h : tickDefect s.cfg tick = some c) :
    exec (.add tick) s = .next (raise c 0 (latch tick 0 s)) := by
  have haccept : acceptAdd tick s = raise c 0 (latch tick 0 s) := by rw [acceptAdd, h]
  rw [exec_add_of_idle hp, haccept, addFinish_of_ne (by simp)]

theorem tickDefect_zero {c : Config} (hv : c.bufValid = true) : tickDefect c 0 = some .iaTickZero := by
  simp [tickDefect, hv, zero]

theorem tickDefect_of_tmax_lt {c : Config} {tick : Byte} (hv : c.bufValid = true)
    (h : c.tmax < tick.toNat) : tickDefect c tick = some .iaTickRange := by
  have h0 : zero tick = false := by
    rw [zero_eq_false]
    rintro rfl
    exact Nat.not_lt_zero _ h
  simp [tickDefect, tickInRing, hv, h0, h]

/-- A pre-check that fails leaves the source's side of a stream that is not open, so nothing is closed. -/
theorem raise_latch_source {s : State} (ho : s.source.opened = false) (c : Cause) (info : Nat) (x y : Byte) :
    (raise c info (latch x y s)).source = s.source :=
  (congrArg State.source (close_of_not_opened (s := latch x y s) ho) :)

/-- ADD ends where its response comes within the stretch of one step of the machine. -/
theorem exec_add_of_ends {s u t : State} {tick : Byte} {n : Nat} (hp : s.phase = .idle)
    (hv : s.cfg.bufValid = true) (hwf : (Instr.add tick).wf s.cfg = true) (hn : n < burst s.source)
    (hitems : stepN addStep n (addStarted tick s) = .next u) (hlast : addStep u = .next t)
    (ht : t.phase = .idle) : exec (.add tick) s = .next t := by
  obtain ⟨h0, hring⟩ := (add_wf_iff s.cfg tick).1 hwf
  have hburst : burst (addStarted tick s).source = n + 1 + (burst s.source - (n + 1)) :=
    (Nat.add_sub_of_le hn).symm
  rw [exec_add_of_idle hp, acceptAdd_of_legal hv h0 hring, addFinish, hburst, stepN_add, stepN_add, hitems,
    andThen_next, stepN_succ, hlast, andThen_next, stepN_zero, andThen_next,
    stepN_of_fixed (addStep_of_ne (by simp [ht]))]

/-! ### The count of distinct empty slots (R134) -/

theorem emptyAmong_nil (s : State) : emptyAmong s [] = 0 := by
  simp [emptyAmong]

theorem emptyAmong_le_nslots (s : State) (is : List Nat) : emptyAmong s is ≤ s.cfg.nslots :=
  List.countP_le_length.trans_eq List.length_range

/-- One more item counts if it is the first of its slot and the slot is empty. -/
theorem emptyAmong_concat (s : State) (is : List Nat) {i : Nat} (hi : i < s.cfg.nslots) :
    emptyAmong s (is ++ [i]) = emptyAmong s is + if i ∉ is ∧ slotVal s i = 0 then 1 else 0 := by
  unfold emptyAmong
  by_cases h0 : slotVal s i = 0
  · rw [countP_range_set (i := i) (p := fun j => decide (j ∈ is) && zero (slotVal s j))]
    · simp [hi, h0, zero]
    · simp [h0, zero]
    · intro j hj
      simp [hj]
  · rw [if_neg (fun h => h0 h.2), Nat.add_zero]
    refine List.countP_congr fun j _ => ?_
    by_cases hj : j = i
    · rw [hj, (zero_eq_false _).2 h0, Bool.and_false, Bool.and_false]
    · simp [hj]

theorem emptyAmong_eq_zero {s : State} {is : List Nat} (h : ∀ i ∈ is, slotVal s i ≠ 0) :
    emptyAmong s is = 0 := by
  rw [emptyAmong, List.countP_eq_zero]
  intro i _ hi
  simp only [Bool.and_eq_true, decide_eq_true_eq, zero_eq_true] at hi
  exact h i hi.1 hi.2

theorem emptyAmong_eq_length {s : State} {is : List Nat} (hin : ∀ i ∈ is, i < s.cfg.nslots)
    (hd : is.Nodup) (h0 : ∀ i ∈ is, slotVal s i = 0) : emptyAmong s is = is.length := by
  rw [emptyAmong, List.countP_eq_length_filter]
  refine ((List.perm_ext_iff_of_nodup (List.nodup_range.filter _) hd).2 fun i => ?_).length_eq
  simp only [List.mem_filter, List.mem_range, Bool.and_eq_true, decide_eq_true_eq, zero_eq_true]
  exact ⟨fun h => h.2.1, fun h => ⟨hin i h, h, h0 i h⟩⟩

/-! ### ADD under way -/

/-- ADD, which began in `s`, has marked the items `is` and stands in `u` (R130 to R134). -/
structure Marked (s : State) (is : List Nat) (u : State) : Prop where
  slots : ∀ j, slotVal u j = if j ∈ is then s.a else slotVal s j
  bytes : ∀ addr, (∀ i ∈ is, (sel s.cfg i).1 ≠ addr) → u.buf.read addr = s.buf.read addr
  count : u.acc = s.acc + emptyAmong s is
  occupied : liveCount u = liveCount s + emptyAmong s is
  frame : u = { s with buf := u.buf, acc := u.acc, source := u.source }

theorem marked_nil (s : State) : Marked s [] s where
  slots := by simp
  bytes := fun _ _ => rfl
  count := by rw [emptyAmong_nil, Nat.add_zero]
  occupied := by rw [emptyAmong_nil, Nat.add_zero]
  frame := rfl

section
variable {s u v : State} {is : List Nat} {b : Beat} {i : Nat}

theorem Marked.cfg_eq (h : Marked s is u) : u.cfg = s.cfg := by rw [h.frame]

theorem Marked.phase_eq (h : Marked s is u) : u.phase = s.phase := by rw [h.frame]

theorem Marked.a_eq (h : Marked s is u) : u.a = s.a := by rw [h.frame]

/-- A pull touches the source's side alone. -/
theorem marked_pull (h : Marked s is u) (hq : pull u = some (b, v)) : Marked s is v := by
  obtain ⟨-, -, hv⟩ := pull_frame hq
  rw [hv]
  exact ⟨h.slots, h.bytes, h.count, h.occupied, congrArg (fun w => { w with source := v.source }) h.frame⟩

/-- After the items `is` a slot is empty if it was empty before and is none of them. -/
theorem Marked.slot_eq_zero_iff (h : Marked s is u) (ha : s.a ≠ 0) (i : Nat) :
    slotVal u i = 0 ↔ i ∉ is ∧ slotVal s i = 0 := by
  rw [h.slots]
  by_cases hi : i ∈ is
  · simpa [hi] using ha
  · simp [hi]

/-- The item step marks one item more: the tick replaces what the slot held, and the slot counts if it was
empty (R130 to R132). -/
theorem marked_addMarked (h : Marked s is u) (ha : s.a ≠ 0) (hring : s.a.toNat ≤ s.cfg.tmax)
    (hi : i < s.cfg.nslots) : Marked s (is ++ [i]) (addMarked i u) where
  slots := by
    intro j
    by_cases hj : j = i
    · rw [hj, slotVal_addMarked_same (by rwa [h.a_eq, h.cfg_eq]), h.a_eq]
      simp
    · rw [slotVal_addMarked_other hj, h.slots]
      simp [hj]
  bytes := by
    intro addr hne
    have hlast : addr ≠ (sel s.cfg i).1 := (hne i (by simp)).symm
    rw [addMarked_buf, Memory.read_write, h.cfg_eq, if_neg hlast]
    exact h.bytes addr fun j hj => hne j (List.mem_append_left _ hj)
  count := by
    simp only [addMarked_acc, emptyAmong_concat s is hi, h.slot_eq_zero_iff ha, h.count, Nat.add_assoc]
  occupied := by
    rw [liveCount_addMarked (by rwa [h.cfg_eq]) (by rwa [h.a_eq]) (by rwa [h.a_eq, h.cfg_eq])]
    simp only [emptyAmong_concat s is hi, h.slot_eq_zero_iff ha, h.occupied, Nat.add_assoc]
  frame := by
    have hstep : addMarked i u = { u with buf := (addMarked i u).buf, acc := (addMarked i u).acc } := by
      simp only [addMarked, countEmpty]
      split <;> rfl
    rw [addMarked_source]
    exact hstep.trans
      (congrArg (fun w => { w with buf := (addMarked i u).buf, acc := (addMarked i u).acc }) h.frame)

end

/-! ### What ADD has counted of what it has pulled (R137) -/

theorem itemBeats_succ (c : Config) (beats : List BeatWord) (tail : Tail) (n : Nat) :
    itemBeats c beats tail (n + 1) = itemBeats c beats tail n +
      if (answerAt beats tail n).map (beatKind c.iw) = some 0 then 1 else 0 := by
  simp [itemBeats, List.range_succ, List.countP_append, List.countP_singleton]

theorem beatKind_of_item {iw i : Nat} {w : BeatWord} (h : decodeBeat iw w = .item i) : beatKind iw w = 0 := by
  by_contra hk
  rw [decodeBeat, if_neg hk] at h
  split at h <;> cases h

/-- ADD, which began in `s`, stands in `u` where its pulls have brought the stream, and has counted at most the
`ITEM` beats among them. -/
structure CountsPulls (s u : State) : Prop where
  position : ∀ k, answerAt u.source.beats u.source.tail k =
    answerAt s.source.beats s.source.tail (u.source.pulls + k)
  bound : u.acc ≤ itemBeats s.cfg s.source.beats s.source.tail u.source.pulls

section
variable {s u v : State} {b : Beat} {i : Nat}

theorem countsPulls_pull (h : CountsPulls s u) (hq : pull u = some (b, v)) : CountsPulls s v := by
  obtain ⟨-, hpulls, -, hnext⟩ := pull_answers hq
  obtain ⟨-, -, hv⟩ := pull_frame hq
  refine ⟨fun k => ?_, ?_⟩
  · rw [← hnext, h.position, hpulls, Nat.add_assoc, Nat.add_comm 1]
  · have hacc : v.acc = u.acc := by rw [hv]
    rw [hacc, hpulls, itemBeats_succ]
    exact h.bound.trans (Nat.le_add_right _ _)

/-- The item step counts at most the `ITEM` beat it was pulled for. -/
theorem countsPulls_addMarked (h : CountsPulls s u) (hcfg : u.cfg = s.cfg)
    (hq : pull u = some (.item i, v)) : CountsPulls s (addMarked i v) := by
  obtain ⟨-, hpulls, ⟨w, hw, hitem⟩, -⟩ := pull_answers hq
  obtain ⟨-, -, hv⟩ := pull_frame hq
  have hacc : v.acc = u.acc := by rw [hv]
  have hkind : (answerAt s.source.beats s.source.tail u.source.pulls).map (beatKind s.cfg.iw) = some 0 := by
    have hanswer := (h.position 0).symm.trans hw
    rw [Nat.add_zero] at hanswer
    rw [hanswer, Option.map_some, beatKind_of_item (hcfg ▸ hitem.symm)]
  refine ⟨by simpa using (countsPulls_pull h hq).position, ?_⟩
  rw [addMarked_acc, addMarked_source, hacc, hpulls, itemBeats_succ, if_pos hkind]
  exact Nat.add_le_add h.bound (by split <;> omega)

end

/-! ### Every outcome of ADD -/

/-- What has become of ADD in the state `u`: it still runs, or it has ended there with its count, or with a
fault. -/
inductive AddOutcome (u : State) : State → Prop
  | running : AddOutcome u u
  | ended : AddOutcome u (respond .ok .none u.acc 0 (endStream u))
  | faulted {c : Cause} {info : Nat} (hc : c ≠ .none) : AddOutcome u (raise c info u)

theorem kind_ne_ok {c : Cause} (h : c ≠ .none) : c.kind ≠ .ok := by
  cases c with
  | none => exact absurd rfl h
  | _ => simp [Cause.kind]

section
variable {u t : State}

theorem AddOutcome.cfg_eq (h : AddOutcome u t) : t.cfg = u.cfg := by cases h <;> rfl

theorem AddOutcome.buf_eq (h : AddOutcome u t) : t.buf = u.buf := by cases h <;> rfl

theorem AddOutcome.pulls_eq (h : AddOutcome u t) : t.source.pulls = u.source.pulls := by cases h <;> rfl

theorem AddOutcome.eq_of_ne_idle (h : AddOutcome u t) (ht : t.phase ≠ .idle) : t = u := by
  cases h with
  | running => rfl
  | ended => exact absurd rfl ht
  | faulted _ => exact absurd rfl ht

/-- A fault reports no count (R210). -/
theorem AddOutcome.value_le (h : AddOutcome u t) (hu : u.phase = .add) (ht : t.phase = .idle) :
    t.rsp.value ≤ u.acc := by
  cases h with
  | running => cases hu.symm.trans ht
  | ended => exact Nat.le_refl _
  | faulted _ => exact Nat.zero_le _

theorem AddOutcome.value_of_ok (h : AddOutcome u t) (hu : u.phase = .add) (ht : t.phase = .idle)
    (hok : t.rsp.status = .ok) : t.rsp.value = u.acc := by
  cases h with
  | running => cases hu.symm.trans ht
  | ended => rfl
  | faulted hc => exact absurd hok (kind_ne_ok hc)

end

/-- ADD, which began in `s`, has come to `t`: it has marked some items, and then perhaps ended. -/
def AddCameTo (s t : State) : Prop :=
  ∃ is u, Marked s is u ∧ CountsPulls s u ∧ AddOutcome u t

theorem addCameTo_step {s t t' : State} (ha : s.a ≠ 0) (hring : s.a.toNat ≤ s.cfg.tmax)
    (h : AddCameTo s t) (hstep : addStep t = .next t') : AddCameTo s t' := by
  obtain ⟨is, u, hm, hc, ho⟩ := h
  by_cases ht : t.phase = .idle
  · cases (addStep_of_ne (by simp [ht])).symm.trans hstep
    exact ⟨is, u, hm, hc, ho⟩
  · cases ho.eq_of_ne_idle ht
    rcases addStep_cases t with he | ⟨-, b, v, hq, ⟨-, he⟩ | ⟨-, he⟩ | ⟨i, rfl, hi, he⟩ |
      ⟨i, -, -, he⟩⟩ <;> cases he.symm.trans hstep
    · exact ⟨is, t, hm, hc, .running⟩
    · exact ⟨is, v, marked_pull hm hq, countsPulls_pull hc hq, .faulted (by simp)⟩
    · exact ⟨is, v, marked_pull hm hq, countsPulls_pull hc hq, .ended⟩
    · have hv := marked_pull hm hq
      rw [hv.cfg_eq] at hi
      exact ⟨is ++ [i], _, marked_addMarked hv ha hring hi, countsPulls_addMarked hc hm.cfg_eq hq, .running⟩
    · exact ⟨is, v, marked_pull hm hq, countsPulls_pull hc hq, .faulted (by simp)⟩

/-- Every outcome of ADD, whatever its tick and its stream: a pre-check fails, or it begins with a legal tick
and marks some items. -/
theorem exec_add_outcome {s t : State} {tick : Byte} (hp : s.phase = .idle)
    (h : exec (.add tick) s = .next t) :
    (∃ c, c ≠ Cause.none ∧ t = raise c 0 (latch tick 0 s)) ∨
      (tick ≠ 0 ∧ tick.toNat ≤ s.cfg.tmax ∧ AddCameTo (addStarted tick s) t) := by
  rw [exec_add_of_idle hp] at h
  rcases acceptAdd_cases tick s with ⟨c, hc, he⟩ | ⟨-, h0, hring, he⟩ <;> rw [he] at h
  · rw [addFinish_of_ne (by simp)] at h
    cases h
    exact .inl ⟨c, hc, rfl⟩
  · have hstart : AddCameTo (addStarted tick s) (addStarted tick s) :=
      ⟨[], _, marked_nil _, ⟨fun k => by rw [openStream_source, Nat.zero_add], Nat.zero_le _⟩, .running⟩
    exact .inr ⟨h0, hring, stepN_keeps (fun _ _ => addCameTo_step h0 hring) hstart h⟩

/-! ### ADD on items in range -/

theorem decodeBeat_item {iw i : Nat} (h : i < 2 ^ iw) : decodeBeat iw (encodeBeat iw (.item i)) = .item i :=
  (beatFieldsDecode.2 iw (.item i) (decide_eq_true h)).1

theorem decodeBeat_endBeat (c : Config) : decodeBeat c.iw (endBeat c) = .done :=
  (beatFieldsDecode.2 c.iw .done rfl).1

/-- The engine steps for listed items in range: one pull and one mark for each (R133). -/
theorem addSteps_items {s : State} (hp : s.phase = .add) (ha : s.a ≠ 0) (hring : s.a.toNat ≤ s.cfg.tmax)
    {is : List Nat} (hin : AllInRange s.cfg is) {before : List Nat} {u : State} {more : List BeatWord}
    (hm : Marked s before u) (ho : u.source.opened = true) (hb : u.source.beats = items s.cfg is ++ more) :
    ∃ v, stepN addStep is.length u = .next v ∧ Marked s (before ++ is) v ∧
      v.source = { u.source with beats := more, pulls := u.source.pulls + is.length } := by
  induction is generalizing before u with
  | nil =>
    refine ⟨u, rfl, by rwa [List.append_nil], ?_⟩
    rw [show more = u.source.beats from hb.symm]
    rfl
  | cons i is ih =>
    obtain ⟨⟨hi, hfits⟩, hin⟩ := List.forall_mem_cons.1 hin
    have hfirst : u.source.beats = encodeBeat s.cfg.iw (.item i) :: (items s.cfg is ++ more) := hb
    have hq := pull_of_cons ho hfirst
    rw [hm.cfg_eq, decodeBeat_item hfits] at hq
    have hmark := marked_addMarked (marked_pull hm hq) ha hring hi
    have hstep := (addStep_of_item (hm.phase_eq.trans hp) hq).trans
      (addItem_of_lt (by rwa [(marked_pull hm hq).cfg_eq]))
    obtain ⟨v, hrun, hv, hsrc⟩ := ih hin hmark (by rwa [addMarked_source]) (by rw [addMarked_source])
    refine ⟨v, ?_, by simpa using hv, ?_⟩
    · rw [List.length_cons, stepN_succ, hstep, andThen_next, hrun]
    · rw [hsrc, addMarked_source, List.length_cons, Nat.add_comm is.length, ← Nat.add_assoc]

/-- ADD on items in range and one more beat: it comes to the pull of that beat with all of them marked, and
answers what the step for the beat answers, if that ends the command. -/
theorem exec_add_of_items {s : State} {tick : Byte} {is : List Nat} {w : BeatWord} {rest : List BeatWord}
    (hp : s.phase = .idle) (hv : s.cfg.bufValid = true) (hwf : (Instr.add tick).wf s.cfg = true)
    (hin : AllInRange s.cfg is) (hb : s.source.beats = items s.cfg is ++ w :: rest) :
    ∃ u v, Marked (addStarted tick s) is v ∧
      v.source = { s.source with beats := rest, opened := true, pulls := is.length + 1, closed := false } ∧
      u.phase = .add ∧ pull u = some (decodeBeat s.cfg.iw w, v) ∧
      ∀ t, addStep u = .next t → t.phase = .idle → exec (.add tick) s = .next t := by
  obtain ⟨h0, hring⟩ := (add_wf_iff s.cfg tick).1 hwf
  obtain ⟨u, hrun, hm, hsrc⟩ :=
    addSteps_items (s := addStarted tick s) rfl h0 hring hin (marked_nil _) rfl hb
  have hq := pull_of_cons (s := u) (by rw [hsrc]; rfl) (by rw [hsrc])
  rw [hm.cfg_eq] at hq
  refine ⟨u, _, marked_pull hm hq, by rw [hsrc]; simp, hm.phase_eq, hq, fun t => ?_⟩
  refine exec_add_of_ends hp hv hwf ?_ hrun
  have hlength : s.source.beats.length = is.length + (rest.length + 1) := by simp [hb, items]
  rw [burst, hlength]
  omega

/-- What ADD leaves that has marked the items `is` and then ended with the response `r`: the slots, the bytes,
and the rest of the state. -/
def AddLeaves (s : State) (tick : Byte) (is : List Nat) (rest : List BeatWord) (closed : Bool) (r : Response)
    (t : State) : Prop :=
  (∀ i, i < s.cfg.nslots → slotVal t i = if i ∈ is then tick else slotVal s i) ∧
    (∀ addr, (∀ i ∈ is, (sel s.cfg i).1 ≠ addr) → t.buf.read addr = s.buf.read addr) ∧
    t = { s with
      buf := t.buf, a := tick, b := 0, acc := emptyAmong s is, scan := 0
      rsp := r, sent := s.sent ++ [r]
      source := { s.source with beats := rest, opened := false, pulls := is.length + 1, closed := closed } }

theorem addLeaves_of_marked {s v : State} {tick : Byte} {is : List Nat} {rest : List BeatWord} {closed : Bool}
    (r : Response) {src : Source} (hp : s.phase = .idle) (hm : Marked (addStarted tick s) is v)
    (hsrc : src =
      { s.source with beats := rest, opened := false, pulls := is.length + 1, closed := closed }) :
    AddLeaves s tick is rest closed r (respond r.status r.cause r.value r.info { v with source := src }) := by
  have hacc : v.acc = emptyAmong s is := hm.count.trans (Nat.zero_add _)
  have hframe : { v with source := src } =
      { addStarted tick s with buf := v.buf, acc := emptyAmong s is, source := src } := by
    rw [← hacc]
    exact congrArg (fun w => { w with source := src }) hm.frame
  refine ⟨fun i _ => hm.slots i, hm.bytes, ?_⟩
  rw [hframe, hsrc, hp]
  rfl

/-- Settles O36: the marks are those of `exec_add_of_items`, and `END` responds with the count. -/
theorem addMarksExactlyTheListedSlots : Obligations.AddMarksExactlyTheListedSlots := by
  intro s tick is rest hp hv hwf hin hb
  obtain ⟨u, v, hm, hsrc, hu, hq, hends⟩ := exec_add_of_items hp hv hwf hin hb
  rw [decodeBeat_endBeat] at hq
  have hacc : v.acc = emptyAmong s is := hm.count.trans (Nat.zero_add _)
  refine ⟨_, hends _ (addStep_of_done hu hq) rfl, ?_⟩
  rw [hacc]
  exact addLeaves_of_marked (okResponse (emptyAmong s is)) hp hm (by rw [hsrc])

/-- Settles O37: the marks are those of `exec_add_of_items`, and the beat after the items raises its fault. -/
theorem faultedAddKeepsThePrefix : Obligations.FaultedAddKeepsThePrefix := by
  intro s tick is w rest c info hp hv hwf hin hb hfault
  obtain ⟨u, v, hm, hsrc, hu, hq, hends⟩ := exec_add_of_items hp hv hwf hin hb
  have hraise : addStep u = .next (raise c info v) := by
    rcases hfault with ⟨hbad, rfl, rfl⟩ | ⟨hitem, hout, rfl⟩
    · exact addStep_of_bad hu (hbad ▸ hq)
    · exact (addStep_of_item hu (hitem ▸ hq)).trans
        (addItem_of_not_lt (by rw [hm.cfg_eq]; exact Nat.not_lt.2 hout))
  refine ⟨_, hends _ hraise rfl, ?_⟩
  exact addLeaves_of_marked (faultResponse c info) hp hm (by rw [hsrc, Bool.true_or])

/-- ADD on a stream of items in range and `END`: what O36 says of its response and of the slots listed. -/
theorem exec_add_presented {s : State} {tick : Byte} {is : List Nat} (tail : Tail) (hp : s.phase = .idle)
    (hv : s.cfg.bufValid = true) (hwf : (Instr.add tick).wf s.cfg = true) (hin : AllInRange s.cfg is) :
    ∃ t, exec (.add tick) (present (items s.cfg is ++ [endBeat s.cfg]) tail s) = .next t ∧
      t.cfg = s.cfg ∧ t.phase = .idle ∧ t.rsp = okResponse (emptyAmong s is) ∧
      ∀ i ∈ is, slotVal t i = tick := by
  obtain ⟨t, ht, hslots, -, hframe⟩ :=
    addMarksExactlyTheListedSlots (present (items s.cfg is ++ [endBeat s.cfg]) tail s) tick is []
      hp hv hwf hin rfl
  refine ⟨t, ht, by rw [hframe]; rfl, by rw [hframe]; exact hp, by rw [hframe]; rfl, fun i hi => ?_⟩
  rw [hslots i (hin i hi).1, if_pos hi]

/-- Settles O38: the first ADD counts every slot, and leaves each of them with its tick, so the second counts
none. -/
theorem addOccupancyLaw : Obligations.AddOccupancyLaw := by
  intro s tick tick' is tail hp hv hwf hwf' hin hd hempty
  obtain ⟨t, ht, hcfg, hidle, hrsp, hmarked⟩ := exec_add_presented tail hp hv hwf hin
  obtain ⟨u, hu, -, -, hrsp', -⟩ := exec_add_presented (tick := tick') tail hidle (by rwa [hcfg])
    (by rwa [hcfg]) (by rwa [hcfg])
  rw [hcfg] at hu
  have hoccupied : ∀ i ∈ is, slotVal t i ≠ 0 := fun i hi =>
    (hmarked i hi).trans_ne ((add_wf_iff s.cfg tick).1 hwf).1
  refine ⟨t, u, ht, ?_, hu, ?_⟩
  · rw [hrsp, emptyAmong_eq_length (fun i hi => (hin i hi).1) hd hempty]
  · rw [hrsp', emptyAmong_eq_zero hoccupied]

/-- Settles O40: of the outcomes of ADD, one marks nothing; in the other the marks carry the checked tick, and
each that counts occupies one slot more. -/
theorem addNeverEmptiesASlot : Obligations.AddNeverEmptiesASlot := by
  intro s t tick hp h
  rcases exec_add_outcome hp h with ⟨c, hc, rfl⟩ | ⟨h0, hring, is, u, hm, -, ho⟩
  · exact ⟨fun i _ => ⟨.inl rfl, id⟩, fun _ hok => absurd hok (kind_ne_ok hc)⟩
  · have hslot : ∀ i, slotVal t i = if i ∈ is then tick else slotVal s i :=
      fun i => (slotVal_congr ho.cfg_eq ho.buf_eq i).trans (hm.slots i)
    refine ⟨fun i _ => ?_, fun ht hok => ?_⟩
    · rw [hslot]
      split
      · exact ⟨.inr ⟨rfl, h0, hring⟩, fun _ => h0⟩
      · exact ⟨.inl rfl, id⟩
    · have hlive : liveCount t = liveCount u := by
        simp only [liveCount, ho.cfg_eq, slotVal_congr ho.cfg_eq ho.buf_eq]
      rw [hlive, hm.occupied, ho.value_of_ok hm.phase_eq ht hok, hm.count]
      exact congrArg _ (Nat.zero_add _).symm

/-- Settles O41: of the outcomes of ADD, one counts nothing; in the other the count is of distinct slots, each
of them pulled. -/
theorem addCountIsBounded : Obligations.AddCountIsBounded := by
  intro s t tick beats tail hp h
  rcases exec_add_outcome (s := present beats tail s) hp h with ⟨c, -, rfl⟩ | ⟨-, -, is, u, hm, hc, ho⟩
  · exact ⟨fun _ => ⟨Nat.zero_le _, Nat.zero_le _, Nat.two_pow_pos _⟩, fun ht => absurd rfl ht⟩
  · have hpulled : u.acc ≤ itemBeats s.cfg beats tail t.source.pulls := ho.pulls_eq ▸ hc.bound
    have hslots : u.acc ≤ s.cfg.nslots := by
      rw [hm.count]
      exact (Nat.zero_add _).trans_le (emptyAmong_le_nslots _ is)
    have hbounds : ∀ n ≤ u.acc, n ≤ itemBeats s.cfg beats tail t.source.pulls ∧ n ≤ s.cfg.nslots ∧
        n < 2 ^ s.cfg.cw := fun n hn =>
      ⟨hn.trans hpulled, hn.trans hslots, (hn.trans hslots).trans_lt (nslots_lt_two_pow_cw s.cfg)⟩
    refine ⟨fun ht => hbounds _ (ho.value_le hm.phase_eq ht), fun ht => hbounds _ ?_⟩
    rw [ho.eq_of_ne_idle ht]

/-- Settles O39: with a legal tick the first step responds, having marked nothing; a tick that fails its check
ends the command before. -/
theorem addOfAnEmptySequence : Obligations.AddOfAnEmptySequence := by
  intro s tick rest hp hv ho hb
  refine ⟨fun h0 hring => ?legal, fun h0 => ?zero, fun hover => ?range⟩
  case legal =>
    have hq := pull_of_cons (s := addStarted tick s) rfl hb
    rw [openStream_cfg, latch_cfg, decodeBeat_endBeat] at hq
    exact ⟨_, exec_add_of_ends hp hv ((add_wf_iff s.cfg tick).2 ⟨h0, hring⟩) (by simp [burst, hb])
      (stepN_zero _ _) (addStep_of_done rfl hq) rfl, rfl, rfl, rfl⟩
  case zero =>
    exact ⟨_, exec_add_of_defect hp (h0 ▸ tickDefect_zero hv), rfl, raise_latch_source ho _ _ _ _, rfl⟩
  case range =>
    exact ⟨_, exec_add_of_defect hp (tickDefect_of_tmax_lt hv hover), rfl,
      raise_latch_source ho _ _ _ _, rfl⟩

end Sys2Proof.Machine
end

section
/-! PROOFS. CONTAINS (`42_contains.md`).

An item that passes changes nothing but the source's side of the stream, so where a running CONTAINS stands is
said by the state it began in, the pulls it has made and the beats still listed (`containsAt`). On items that pass
and one more beat it comes to that beat, and answers what the step for it answers (`exec_contains_of_items`).
Repeated, CONTAINS runs alike because no engine step of it reads anything but the configuration, the buffer, the
latches and the stream (`containsStep_alike`). -/

namespace Sys2Proof.Machine

/-! ### The verdict of one item (R148) -/

/-- The three ways to fail the keep test: an empty slot, or a value outside a window that does not wrap or of one
that does. -/
theorem keep_eq_false_iff (v lo hi : Byte) :
    keep v lo hi = false ↔
      v = 0 ∨ (lo.toNat ≤ hi.toNat ∧ (v.toNat ≤ lo.toNat ∨ hi.toNat < v.toNat)) ∨
        (hi.toNat < lo.toNat ∧ hi.toNat < v.toNat ∧ v.toNat ≤ lo.toNat) := by
  rw [Bool.eq_false_iff, Ne, keep_iff, not_and_or, not_not]
  refine or_congr_right ?_
  by_cases hwrap : hi.toNat < lo.toNat
  · rw [fresh_of_wrap hwrap]
    omega
  · rw [fresh_of_not_wrap (not_lt.1 hwrap)]
    omega

theorem keep_eq_false_of_empty_or_stale {v lo hi : Byte} (h : v = 0 ∨ fresh v lo hi = false) :
    keep v lo hi = false := by
  rw [Bool.eq_false_iff, Ne, keep_iff]
  rintro ⟨hlive, hfresh⟩
  exact h.elim hlive (ne_false_of_eq_true hfresh)

theorem keep_of_ne_zero {v : Byte} (h : v ≠ 0) (lo hi : Byte) : keep v lo hi = fresh v lo hi := by
  rw [keep, live, (zero_eq_false v).2 h, Bool.not_false, Bool.true_and]

/-- Bounds in the ring reach the comparator as they were latched (R146, R147). -/
theorem passes_of_inRing {s : State} (ha : s.a.toNat ≤ s.cfg.tmax) (hb : s.b.toNat ≤ s.cfg.tmax) (i : Nat) :
    passes s i = keep (slotVal s i) s.a s.b := by
  rw [passes, windowBound_of_inRing ha, windowBound_of_inRing hb]

/-- Settles O43. -/
theorem containsItemVerdict : Obligations.ContainsItemVerdict := by
  intro s i hi ha hb
  rw [← keep_eq_false_iff, ← passes_of_inRing ha hb, Bool.not_eq_false]
  exact ⟨containsItem_of_fails hi, containsItem_of_passes hi⟩

/-! ### Acceptance -/

theorem contains_wf_iff (c : Config) (lo hi : Byte) :
    (Instr.contains lo hi).wf c = true ↔ lo.toNat ≤ c.tmax ∧ hi.toNat ≤ c.tmax := by
  simp [Instr.wf]

theorem exec_contains_of_idle {s : State} (hp : s.phase = .idle) (lo hi : Byte) :
    exec (.contains lo hi) s = containsFinish (acceptContains lo hi s) := by
  simp only [exec, execContains, hp, if_true]

theorem containsFinish_of_ne {s : State} (h : s.phase ≠ .contains) : containsFinish s = .next s :=
  stepN_of_fixed (containsStep_of_ne h) _

/-- A window that fails a pre-check ends CONTAINS at its acceptance (R150). -/
theorem exec_contains_of_defect {s : State} {lo hi : Byte} {c : Cause} (hp : s.phase = .idle)
    (h : windowDefect s.cfg lo hi = some c) :
    exec (.contains lo hi) s = .next (raise c 0 (latch lo hi s)) := by
  have haccept : acceptContains lo hi s = raise c 0 (latch lo hi s) := by rw [acceptContains, h]
  rw [exec_contains_of_idle hp, haccept, containsFinish_of_ne (by simp)]

theorem windowDefect_of_tmax_lt {c : Config} {lo hi : Byte} (hv : c.bufValid = true)
    (h : c.tmax < lo.toNat ∨ c.tmax < hi.toNat) : windowDefect c lo hi = some .iaTickRange := by
  by_cases hlo : lo.toNat ≤ c.tmax
  · have hhi : c.tmax < hi.toNat := h.resolve_left (not_lt.2 hlo)
    simp [windowDefect, tickInRing, hv, hlo, hhi]
  · simp [windowDefect, tickInRing, hv, hlo]

/-! ### CONTAINS on items that pass -/

/-- Where CONTAINS with this window stands, which began in `s`: it has made `n` pulls, every item of them passed,
and `beats` are the listed beats still to come (R145). -/
def containsAt (lo hi : Byte) (n : Nat) (beats : List BeatWord) (s : State) : State :=
  { s with
    phase := .contains, a := lo, b := hi, acc := 0, scan := 0
    source := { s.source with beats := beats, opened := true, pulls := n, closed := false } }

theorem acceptContains_of_legal {s : State} {lo hi : Byte} (hv : s.cfg.bufValid = true)
    (hlo : lo.toNat ≤ s.cfg.tmax) (hhi : hi.toNat ≤ s.cfg.tmax) :
    acceptContains lo hi s = containsAt lo hi 0 s.source.beats s := by
  rw [acceptContains, (windowDefect_none_iff s.cfg lo hi).2 ⟨hv, hlo, hhi⟩]
  rfl

theorem pull_containsAt (lo hi : Byte) (n : Nat) (w : BeatWord) (rest : List BeatWord) (s : State) :
    pull (containsAt lo hi n (w :: rest) s) =
      some (decodeBeat s.cfg.iw w, containsAt lo hi (n + 1) rest s) :=
  pull_of_cons rfl rfl

section
variable {s t : State} {lo hi : Byte} {is : List Nat} {w : BeatWord} {rest : List BeatWord}

theorem passes_containsAt (hwf : (Instr.contains lo hi).wf s.cfg = true) (n : Nat) (beats : List BeatWord)
    (i : Nat) : passes (containsAt lo hi n beats s) i = keep (slotVal s i) lo hi := by
  obtain ⟨hlo, hhi⟩ := (contains_wf_iff s.cfg lo hi).1 hwf
  exact passes_of_inRing (s := containsAt lo hi n beats s) hlo hhi i

/-- The engine steps for listed items that pass: one pull for each, and nothing else (R145, R149). -/
theorem containsSteps_items (hwf : (Instr.contains lo hi).wf s.cfg = true) (hin : AllInRange s.cfg is)
    (hpass : ∀ i ∈ is, keep (slotVal s i) lo hi = true) (n : Nat) (more : List BeatWord) :
    stepN containsStep is.length (containsAt lo hi n (items s.cfg is ++ more) s) =
      .next (containsAt lo hi (n + is.length) more s) := by
  induction is generalizing n with
  | nil => rfl
  | cons i is ih =>
    obtain ⟨⟨hi', hfits⟩, hin⟩ := List.forall_mem_cons.1 hin
    obtain ⟨hkeep, hpass⟩ := List.forall_mem_cons.1 hpass
    have hq := pull_containsAt lo hi n (encodeBeat s.cfg.iw (.item i)) (items s.cfg is ++ more) s
    rw [decodeBeat_item hfits] at hq
    have hstep := (containsStep_of_item rfl hq).trans
      (containsItem_of_passes hi' ((passes_containsAt hwf _ _ i).trans hkeep))
    have hbeats : items s.cfg (i :: is) ++ more =
      encodeBeat s.cfg.iw (.item i) :: (items s.cfg is ++ more) := rfl
    rw [List.length_cons, stepN_succ, hbeats, hstep, andThen_next, ih hin hpass, Nat.add_right_comm,
      Nat.add_assoc]

/-- CONTAINS on items that pass and one more beat comes to the pull of that beat, and answers what the step for
the beat answers, if that ends the command. -/
theorem exec_contains_of_items (hp : s.phase = .idle) (hv : s.cfg.bufValid = true)
    (hwf : (Instr.contains lo hi).wf s.cfg = true) (hin : AllInRange s.cfg is)
    (hpass : ∀ i ∈ is, keep (slotVal s i) lo hi = true) (hb : s.source.beats = items s.cfg is ++ w :: rest)
    (hlast : containsStep (containsAt lo hi is.length (w :: rest) s) = .next t) (ht : t.phase = .idle) :
    exec (.contains lo hi) s = .next t := by
  obtain ⟨hlo, hhi⟩ := (contains_wf_iff s.cfg lo hi).1 hwf
  have hitems := containsSteps_items hwf hin hpass 0 (w :: rest)
  rw [Nat.zero_add] at hitems
  have hburst : burst (containsAt lo hi 0 (items s.cfg is ++ w :: rest) s).source =
      is.length + 1 + (rest.length + lap s.source.tail) := by
    have hlength : (items s.cfg is ++ w :: rest).length = is.length + (rest.length + 1) := by simp [items]
    show (items s.cfg is ++ w :: rest).length + lap s.source.tail = _
    omega
  rw [exec_contains_of_idle hp, acceptContains_of_legal hv hlo hhi, hb, containsFinish, hburst, stepN_add,
    stepN_add, hitems, andThen_next, stepN_succ, hlast, andThen_next, stepN_zero, andThen_next,
    stepN_of_fixed (containsStep_of_ne (by simp [ht]))]

end

/-- Settles O42: CONTAINS comes to the deciding beat by `exec_contains_of_items`, and the step for it responds. -/
theorem containsStopsAtTheFirstFailure : Obligations.ContainsStopsAtTheFirstFailure := by
  intro s lo hi is w rest r closes hp hv hwf hin hpass hb hdecides
  refine exec_contains_of_items hp hv hwf hin hpass hb ?_ hp
  have hq := pull_containsAt lo hi is.length w rest s
  rw [hp]
  rcases hdecides with ⟨hw, rfl, rfl⟩ | ⟨j, hw, hj, hfails, rfl, rfl⟩ | ⟨hw, rfl, rfl⟩ |
    ⟨j, hw, hj, rfl, rfl⟩ <;> rw [hw] at hq
  · exact containsStep_of_done rfl hq
  · exact (containsStep_of_item rfl hq).trans
      (containsItem_of_fails hj ((passes_containsAt hwf _ _ j).trans hfails))
  · exact containsStep_of_bad rfl hq
  · exact (containsStep_of_item rfl hq).trans (containsItem_of_not_lt (Nat.not_lt.2 hj))

/-! ### CONTAINS on items in range -/

section
variable {s : State} {lo hi : Byte} {is : List Nat} {rest : List BeatWord}

/-- Items that all pass and then `END`: the verdict is true (R149). -/
theorem exec_contains_of_all_pass (hp : s.phase = .idle) (hv : s.cfg.bufValid = true)
    (hwf : (Instr.contains lo hi).wf s.cfg = true) (hin : AllInRange s.cfg is)
    (hpass : ∀ i ∈ is, keep (slotVal s i) lo hi = true)
    (hb : s.source.beats = items s.cfg is ++ endBeat s.cfg :: rest) :
    ∃ t, exec (.contains lo hi) s = .next t ∧ t.phase = .idle ∧ t.rsp = okResponse 1 :=
  ⟨_, containsStopsAtTheFirstFailure s lo hi is _ rest _ _ hp hv hwf hin hpass hb
    (.inl ⟨decodeBeat_endBeat s.cfg, rfl, rfl⟩), hp, rfl⟩

/-- Items one of which fails: those before the first that does pass, and at that one the verdict is false,
whatever follows (R149, R153). -/
theorem exec_contains_of_fails (hp : s.phase = .idle) (hv : s.cfg.bufValid = true)
    (hwf : (Instr.contains lo hi).wf s.cfg = true) (hin : AllInRange s.cfg is)
    (hfails : ∃ i ∈ is, keep (slotVal s i) lo hi = false)
    (hb : s.source.beats = items s.cfg is ++ rest) :
    ∃ t, exec (.contains lo hi) s = .next t ∧ t.phase = .idle ∧ t.rsp = okResponse 0 := by
  have hfound : (is.find? fun i => !keep (slotVal s i) lo hi).isSome = true := by
    simpa [List.find?_isSome] using hfails
  obtain ⟨j, hj⟩ := Option.isSome_iff_exists.1 hfound
  obtain ⟨hkeep, before, after, rfl, hbefore⟩ := List.find?_eq_some_iff_append.1 hj
  obtain ⟨hlt, hfits⟩ := hin j (by simp)
  have hsplit : s.source.beats =
      items s.cfg before ++ encodeBeat s.cfg.iw (.item j) :: (items s.cfg after ++ rest) := by
    simp [hb, items]
  exact ⟨_, containsStopsAtTheFirstFailure s lo hi before _ _ _ _ hp hv hwf
    (fun i hi => hin i (by simp [hi])) (by simpa using hbefore) hsplit
    (.inr (.inl ⟨j, decodeBeat_item hfits, hlt, by simpa using hkeep, rfl, rfl⟩)), hp, rfl⟩

/-- CONTAINS on a stream of items in range and `END` is true exactly if every listed slot passes. -/
theorem exec_contains_presented (tail : Tail) (hp : s.phase = .idle) (hv : s.cfg.bufValid = true)
    (hwf : (Instr.contains lo hi).wf s.cfg = true) (hin : AllInRange s.cfg is) :
    ∃ t, exec (.contains lo hi) (present (items s.cfg is ++ [endBeat s.cfg]) tail s) = .next t ∧
      t.phase = .idle ∧
      t.rsp = okResponse (if ∀ i ∈ is, keep (slotVal s i) lo hi = true then 1 else 0) := by
  by_cases hpass : ∀ i ∈ is, keep (slotVal s i) lo hi = true
  · rw [if_pos hpass]
    exact exec_contains_of_all_pass (s := present _ tail s) hp hv hwf hin hpass rfl
  · rw [if_neg hpass]
    have hfails : ∃ i ∈ is, keep (slotVal s i) lo hi = false := by simpa using hpass
    exact exec_contains_of_fails (s := present _ tail s) hp hv hwf hin hfails rfl

end

/-- Settles O46: an empty slot, or a value outside the window, fails the keep test. -/
theorem containsSentinelLaw : Obligations.ContainsSentinelLaw := by
  intro s lo hi is rest hp hv hwf hin hfails hb
  obtain ⟨i, hi', hslot⟩ := hfails
  exact exec_contains_of_fails hp hv hwf hin ⟨i, hi', keep_eq_false_of_empty_or_stale hslot⟩ hb

/-- Settles O47: ADD leaves the slot with its tick, which is never `0`, so CONTAINS tests the tick alone. -/
theorem containsSeesTheAddedTick : Obligations.ContainsSeesTheAddedTick := by
  intro s i tick lo hi tail hp hv hin hadd hwf
  obtain ⟨t, ht, hcfg, hidle, -, hmarked⟩ := exec_add_presented tail hp hv hadd hin
  obtain ⟨u, hu, -, hrsp⟩ := exec_contains_presented (lo := lo) (hi := hi) tail hidle (by rwa [hcfg])
    (by rwa [hcfg]) (by rwa [hcfg])
  rw [hcfg] at hu
  have hkeep : keep (slotVal t i) lo hi = fresh tick lo hi := by
    rw [hmarked i (List.mem_singleton_self i), keep_of_ne_zero ((add_wf_iff s.cfg tick).1 hadd).1]
  exact ⟨t, u, ht, hu, by simpa [hkeep] using hrsp⟩

/-- Settles O45: no item precedes `END`, so none fails; a bound above the ring ends the command before. -/
theorem containsOfAnEmptySequence : Obligations.ContainsOfAnEmptySequence := by
  intro s lo hi rest hp hv ho hb
  refine ⟨fun hring => ?legal, fun hover => ?range⟩
  case legal =>
    obtain ⟨t, ht, hidle, hrsp⟩ :=
      exec_contains_of_all_pass (is := []) hp hv ((contains_wf_iff s.cfg lo hi).2 hring)
        (by simp [AllInRange]) (by simp) hb
    exact ⟨t, ht, hrsp, hidle⟩
  case range =>
    exact ⟨_, exec_contains_of_defect hp (windowDefect_of_tmax_lt hv hover), rfl,
      raise_latch_source ho _ _ _ _⟩

/-! ### CONTAINS writes nothing (R151) -/

theorem containsStep_frame {s t : State} (h : containsStep s = .next t) : t.cfg = s.cfg ∧ t.buf = s.buf := by
  refine ⟨(move_cfg_host (containsStep_move h)).1, ?_⟩
  rcases containsStep_cases s with he | ⟨-, b, u, hq, hc⟩
  · cases he.symm.trans h
    rfl
  · rw [← pull_buf hq]
    rcases hc with ⟨-, he⟩ | ⟨-, he⟩ | ⟨i, -, -, -, he⟩ | ⟨i, -, -, -, he⟩ | ⟨i, -, -, he⟩ <;>
      cases he.symm.trans h <;> rfl

theorem acceptContains_frame (lo hi : Byte) (s : State) :
    (acceptContains lo hi s).cfg = s.cfg ∧ (acceptContains lo hi s).buf = s.buf := by
  rcases acceptContains_cases lo hi s with ⟨c, -, he⟩ | ⟨-, -, -, he⟩ <;> rw [he] <;> exact ⟨rfl, rfl⟩

/-- CONTAINS writes no byte, whatever its window and its stream. -/
theorem exec_contains_frame {s t : State} {lo hi : Byte} (hp : s.phase = .idle)
    (h : exec (.contains lo hi) s = .next t) : t.cfg = s.cfg ∧ t.buf = s.buf := by
  rw [exec_contains_of_idle hp] at h
  refine stepN_keeps (P := fun u => u.cfg = s.cfg ∧ u.buf = s.buf) (fun u v hu hstep => ?_)
    (acceptContains_frame lo hi s) h
  obtain ⟨hcfg, hbuf⟩ := containsStep_frame hstep
  exact ⟨hcfg.trans hu.1, hbuf.trans hu.2⟩

/-! ### Two runs of one CONTAINS (R151) -/

/-- Steps that keep two states related, any number of them keep related. -/
theorem stepN_related {f : State → Host.Outcome State Fault Refusal} {R : State → State → Prop}
    (hf : ∀ s u, R s u → ∃ s' u', f s = .next s' ∧ f u = .next u' ∧ R s' u') {s u : State}
    (h : R s u) (n : Nat) : ∃ s' u', stepN f n s = .next s' ∧ stepN f n u = .next u' ∧ R s' u' := by
  induction n generalizing s u with
  | zero => exact ⟨s, u, rfl, rfl, h⟩
  | succ n ih =>
    obtain ⟨s', u', hs, hu, h'⟩ := hf s u h
    rw [stepN_succ, stepN_succ, hs, hu]
    exact ih h'

/-- Two engines that CONTAINS runs alike in: they agree in all that it reads, and in the response once it has
ended. -/
structure ContainsAlike (s u : State) : Prop where
  cfg : u.cfg = s.cfg
  buf : u.buf = s.buf
  phase : u.phase = s.phase
  a : u.a = s.a
  b : u.b = s.b
  source : u.source = s.source
  rsp : s.phase = .idle → u.rsp = s.rsp

/-- Engines that agree in their configuration and their stream make the same pull. -/
theorem pull_congr {s t u : State} {b : Beat} (hcfg : u.cfg = s.cfg) (hsource : u.source = s.source)
    (h : pull s = some (b, t)) : pull u = some (b, { u with source := t.source }) := by
  obtain ⟨ho, w, rest, tail, hnext, rfl, rfl⟩ := pull_some h
  rw [← hsource] at ho hnext
  rw [pull_of_next ho hnext, hcfg, hsource]

theorem pull_none_congr {s u : State} (hsource : u.source = s.source) (h : pull s = none) : pull u = none := by
  rw [pull_eq_none_iff] at h ⊢
  rwa [hsource]

section
variable {s u : State}

theorem alike_respond (h : ContainsAlike s u) (st : Status) (c : Cause) (v info : Nat) :
    ContainsAlike (respond st c v info s) (respond st c v info u) :=
  ⟨h.cfg, h.buf, rfl, h.a, h.b, h.source, fun _ => rfl⟩

theorem alike_source (h : ContainsAlike s u) {src src' : Source} (hsrc : src' = src) :
    ContainsAlike { s with source := src } { u with source := src' } :=
  ⟨h.cfg, h.buf, h.phase, h.a, h.b, hsrc, h.rsp⟩

theorem alike_close (h : ContainsAlike s u) : ContainsAlike (close s) (close u) :=
  alike_source h (by rw [h.source])

theorem alike_endStream (h : ContainsAlike s u) : ContainsAlike (endStream s) (endStream u) :=
  alike_source h (by rw [h.source])

theorem alike_raise (h : ContainsAlike s u) (c : Cause) (info : Nat) :
    ContainsAlike (raise c info s) (raise c info u) :=
  alike_respond (alike_close h) _ _ _ _

theorem ContainsAlike.slot_eq (h : ContainsAlike s u) (i : Nat) : slotVal u i = slotVal s i :=
  slotVal_congr h.cfg h.buf i

theorem ContainsAlike.passes_eq (h : ContainsAlike s u) (i : Nat) : passes u i = passes s i := by
  rw [passes, passes, h.slot_eq, h.cfg, h.a, h.b]

theorem containsItem_alike (h : ContainsAlike s u) (i : Nat) :
    ∃ s' u', containsItem i s = .next s' ∧ containsItem i u = .next u' ∧ ContainsAlike s' u' := by
  by_cases hi : i < s.cfg.nslots
  · have hi' : i < u.cfg.nslots := by rwa [h.cfg]
    cases hk : passes s i
    · exact ⟨_, _, containsItem_of_fails hi hk, containsItem_of_fails hi' ((h.passes_eq i).trans hk),
        alike_respond (alike_close h) _ _ _ _⟩
    · exact ⟨_, _, containsItem_of_passes hi hk, containsItem_of_passes hi' ((h.passes_eq i).trans hk), h⟩
  · have hi' : ¬ i < u.cfg.nslots := by rwa [h.cfg]
    exact ⟨_, _, containsItem_of_not_lt hi, containsItem_of_not_lt hi', alike_raise h _ _⟩

/-- Engines alike take the same engine step of CONTAINS. -/
theorem containsStep_alike (h : ContainsAlike s u) :
    ∃ s' u', containsStep s = .next s' ∧ containsStep u = .next u' ∧ ContainsAlike s' u' := by
  by_cases hp : s.phase = .contains
  · have hp' : u.phase = .contains := h.phase.trans hp
    cases hq : pull s with
    | none =>
      exact ⟨s, u, containsStep_of_pull_none hq, containsStep_of_pull_none (pull_none_congr h.source hq), h⟩
    | some answer =>
      obtain ⟨b, t⟩ := answer
      have hq' := pull_congr h.cfg h.source hq
      have hpulled : ContainsAlike t { u with source := t.source } := by
        obtain ⟨-, -, ht⟩ := pull_frame hq
        rw [ht]
        exact alike_source h rfl
      cases b with
      | bad => exact ⟨_, _, containsStep_of_bad hp hq, containsStep_of_bad hp' hq', alike_raise hpulled _ _⟩
      | done =>
        exact ⟨_, _, containsStep_of_done hp hq, containsStep_of_done hp' hq',
          alike_respond (alike_endStream hpulled) _ _ _ _⟩
      | item i =>
        rw [containsStep_of_item hp hq, containsStep_of_item hp' hq']
        exact containsItem_alike hpulled i
  · have hp' : u.phase ≠ .contains := by rwa [h.phase]
    exact ⟨s, u, containsStep_of_ne hp, containsStep_of_ne hp', h⟩

/-- The pre-checks read the configuration alone, so they pass for both engines or raise the same fault. -/
theorem acceptContains_alike (lo hi : Byte) (beats : List BeatWord) (tail : Tail) (hcfg : u.cfg = s.cfg)
    (hbuf : u.buf = s.buf) :
    ContainsAlike (acceptContains lo hi (present beats tail s)) (acceptContains lo hi (present beats tail u)) := by
  rw [acceptContains, acceptContains, present_cfg, present_cfg, hcfg]
  cases windowDefect s.cfg lo hi with
  | some c => exact ⟨hcfg, hbuf, rfl, rfl, rfl, rfl, fun _ => rfl⟩
  | none => exact ⟨hcfg, hbuf, rfl, rfl, rfl, rfl, nofun⟩

/-- The same CONTAINS with the same beats, from idle engines of one configuration and one buffer. -/
theorem exec_contains_alike {lo hi : Byte} (beats : List BeatWord) (tail : Tail) (hs : s.phase = .idle)
    (hu : u.phase = .idle) (hcfg : u.cfg = s.cfg) (hbuf : u.buf = s.buf) :
    ∃ t v, exec (.contains lo hi) (present beats tail s) = .next t ∧
      exec (.contains lo hi) (present beats tail u) = .next v ∧ ContainsAlike t v := by
  have hstart := acceptContains_alike lo hi beats tail hcfg hbuf
  rw [exec_contains_of_idle (s := present beats tail s) hs, exec_contains_of_idle (s := present beats tail u) hu,
    containsFinish, containsFinish, hstart.source]
  exact stepN_related (fun _ _ => containsStep_alike) hstart _

end

/-- Settles O44: CONTAINS leaves the buffer (`exec_contains_frame`), so the repeat runs alike. -/
theorem containsWritesNothing : Obligations.ContainsWritesNothing := by
  intro s t lo hi beats tail hp h
  obtain ⟨hcfg, hbuf⟩ := exec_contains_frame (s := present beats tail s) hp h
  refine ⟨hbuf, fun ht u hu hcfg' hbuf' => ?_⟩
  obtain ⟨t', v, ht', hv, halike⟩ :=
    exec_contains_alike beats tail hp hu (hcfg'.trans hcfg) (hbuf'.trans hbuf)
  cases ht'.symm.trans h
  exact ⟨v, hv, halike.buf.trans hbuf, halike.rsp ht, halike.source⟩

end Sys2Proof.Machine
end

section
/-! PROOFS. DECAY (`43_decay.md`).

What a byte step leaves at an address depends on the byte that stood there alone, and a byte decided twice is as it
was decided once (`decayByte_decayByte`). So where a scanner stands is said by the state it began in and the
addresses it has visited, whatever their order (`Scanned`), and what it has counted is a sum over them (`leftIn`).
The engine's own scanner, the lanes in turn and the interleaved lanes each come to such a state with every address
of the buffer visited (`decaySteps_scan`, `lanesScan_scanned`, `interleavedScan_scanned`), and there the buffer and
the count are the same (`exec_decay_agrees`). Slot by slot that is what DECAY leaves (`decayPostState`,
`Decayed`). -/

namespace Sys2Proof.Machine

/-! ### A byte and its slots (R52, R53) -/

/-- A byte is determined by its slots: the byte itself in ENC8, its two halves in ENC4. -/
theorem eq_of_slotGet_eq {c : Config} {v w : Byte} (h : ∀ hi, slotGet c v hi = slotGet c w hi) : v = w := by
  cases he : c.enc with
  | enc8 => simpa only [slotGet, he] using h true
  | enc4 =>
    have hhigh := congrArg BitVec.toNat (h true)
    have hlow := congrArg BitVec.toNat (h false)
    rw [slotGet_enc4_high_toNat he, slotGet_enc4_high_toNat he] at hhigh
    rw [slotGet_enc4_low_toNat he, slotGet_enc4_low_toNat he] at hlow
    exact BitVec.eq_of_toNat_eq (by omega)

/-- Every part of a byte of the buffer that holds a slot is some slot of the store. -/
theorem exists_slot_at (c : Config) {x : Nat} (hx : x < c.len) (hi : Bool) :
    ∃ i, i < c.nslots ∧ (sel c i).1 = x ∧ ∀ b, slotGet c b (sel c i).2 = slotGet c b hi := by
  cases he : c.enc with
  | enc8 => exact ⟨x, by rwa [Config.nslots_enc8 he], by rw [sel_enc8 he], fun b => by simp only [slotGet, he]⟩
  | enc4 =>
    obtain ⟨i, hlt, hsel⟩ := sel_enc4_surjective he hx hi
    exact ⟨i, hlt, by rw [hsel], fun b => by rw [hsel]⟩

/-- Equal slots are equal bytes of the buffer. -/
theorem read_eq_of_slots {s t : State} (hcfg : t.cfg = s.cfg)
    (h : ∀ i, i < s.cfg.nslots → slotVal t i = slotVal s i) {x : Nat} (hx : x < s.cfg.len) :
    t.buf.read x = s.buf.read x := by
  refine eq_of_slotGet_eq (c := s.cfg) fun hi => ?_
  obtain ⟨i, hlt, rfl, hget⟩ := exists_slot_at s.cfg hx hi
  have hslot := h i hlt
  rwa [slotVal, slotVal, hcfg, hget, hget] at hslot

/-! ### The slots a byte step keeps (R122, R163, R164) -/

theorem decaySlot_eq_ite (lo hi v : Byte) :
    decaySlot lo hi v = if v ≠ 0 ∧ fresh v lo hi = true then v else 0 := by
  simp only [decaySlot, keep_iff]

/-- A slot that has been decided stays as it was decided. -/
theorem decaySlot_decaySlot (lo hi v : Byte) : decaySlot lo hi (decaySlot lo hi v) = decaySlot lo hi v := by
  by_cases hkeep : keep v lo hi = true
  · simp only [decaySlot, hkeep, if_true]
  · have hzero : decaySlot lo hi v = 0 := if_neg hkeep
    rw [hzero, decaySlot, ite_self]

theorem decaySlot_of_empty_or_keep {lo hi v : Byte} (h : v ≠ 0 → keep v lo hi = true) : decaySlot lo hi v = v := by
  unfold decaySlot
  split
  · rfl
  · rename_i hcleared
    exact (not_not.1 (mt h hcleared)).symm

theorem decaySlot_of_not_keep {lo hi v : Byte} (h : keep v lo hi = false) : decaySlot lo hi v = 0 := by
  rw [decaySlot, h, if_neg Bool.false_ne_true]

theorem keep_of_decaySlot_ne_zero {lo hi v : Byte} (h : decaySlot lo hi v ≠ 0) : keep v lo hi = true := by
  by_contra hcleared
  exact h (if_neg hcleared)

theorem decayByte_decayByte (c : Config) (a b v : Byte) :
    decayByte c a b (decayByte c a b v) = decayByte c a b v :=
  eq_of_slotGet_eq (c := c) fun hi => by rw [slotGet_decayByte, slotGet_decayByte, decaySlot_decaySlot]

/-- Where every slot of the store stands the test, the byte step leaves every byte. -/
theorem decayedByte_of_slots_kept {s : State}
    (h : ∀ i, i < s.cfg.nslots →
      decaySlot (windowBound s.cfg s.a) (windowBound s.cfg s.b) (slotVal s i) = slotVal s i)
    {x : Nat} (hx : x < s.cfg.len) : decayedByte s x = s.buf.read x := by
  have hread := decayedState_read x x s
  rw [if_pos rfl] at hread
  rw [← hread]
  refine read_eq_of_slots (decayedState_cfg x s) (fun i hi => ?_) hx
  rw [slotVal_decayedState]
  split
  · exact h i hi
  · rfl

/-! ### The live slots of a byte and of the store (R163, R164, R166) -/

/-- The place of slot `k` of byte `n` (R52, R53, R110). -/
theorem sel_slot_of_byte (c : Config) (n : Nat) {k : Nat} (hk : k < c.slotsPerByte) :
    sel c (c.slotsPerByte * n + k) = (n, decide (k = 0)) := by
  cases he : c.enc with
  | enc8 =>
    have hone : c.slotsPerByte = 1 := by rw [Config.slotsPerByte, he]
    obtain rfl : k = 0 := by omega
    rw [sel_enc8 he, hone, Nat.one_mul, Nat.add_zero]
    rfl
  | enc4 =>
    have htwo : c.slotsPerByte = 2 := by rw [Config.slotsPerByte, he]
    rw [sel_enc4 he, htwo, show (2 * n + k) / 2 = n by omega, show (2 * n + k) % 2 = k by omega]

/-- The count of R163 and R164 is the number of occupied slots of the byte. -/
theorem liveInByte_eq_countP (c : Config) (v : Byte) :
    liveInByte c v = (List.range c.slotsPerByte).countP fun k => live (slotGet c v (decide (k = 0))) := by
  cases he : c.enc with
  | enc8 => simp [liveInByte, Config.slotsPerByte, slotGet, he]
  | enc4 =>
    have hlive : ∀ n : Nibble, live (n.setWidth 8) = decide (n ≠ 0) := by decide
    simp [liveInByte, Config.slotsPerByte, slotGet, he, List.range_succ, hlive, List.countP_cons, Nat.add_comm]

/-- The occupied slots that lie in the first `n` bytes, counted byte by byte; `q` says which bytes count. -/
theorem countP_live_slots (s : State) (q : Nat → Bool) (n : Nat) :
    ((List.range (s.cfg.slotsPerByte * n)).countP fun i => q (sel s.cfg i).1 && live (slotVal s i)) =
      ∑ x ∈ Finset.range n, if q x then liveInByte s.cfg (s.buf.read x) else 0 := by
  induction n with
  | zero => rfl
  | succ n ih =>
    rw [Finset.sum_range_succ, ← ih, Nat.mul_succ, List.range_add, List.countP_append, List.countP_map,
      liveInByte_eq_countP]
    congr 1
    have hsel : ∀ k ∈ List.range s.cfg.slotsPerByte, sel s.cfg (s.cfg.slotsPerByte * n + k) = _ :=
      fun k hk => sel_slot_of_byte s.cfg n (List.mem_range.1 hk)
    cases hq : q n with
    | true => exact List.countP_congr fun k hk => by simp [slotVal, hsel k hk, hq]
    | false => exact List.countP_eq_zero.2 fun k hk => by simp [hsel k hk, hq]

theorem liveCount_eq_sum (s : State) :
    liveCount s = ∑ x ∈ Finset.range s.cfg.len, liveInByte s.cfg (s.buf.read x) := by
  have hall := countP_live_slots s (fun _ => true) s.cfg.len
  simp only [Bool.true_and, if_true] at hall
  exact hall

/-- The occupied slots of one byte of the buffer. -/
theorem countP_live_at (s : State) {x : Nat} (hx : x < s.cfg.len) :
    ((List.range s.cfg.nslots).countP fun i => decide ((sel s.cfg i).1 = x) && live (slotVal s i)) =
      liveInByte s.cfg (s.buf.read x) := by
  refine (countP_live_slots s (fun y => decide (y = x)) s.cfg.len).trans ?_
  simp [Finset.sum_ite_eq', hx]

/-- A store with no slot occupied that was empty has no more live slots. -/
theorem liveCount_le_of_slots {s t : State} (hcfg : t.cfg = s.cfg)
    (h : ∀ i, i < s.cfg.nslots → slotVal t i ≠ 0 → slotVal s i ≠ 0) : liveCount t ≤ liveCount s := by
  rw [liveCount, hcfg]
  refine List.countP_mono_left fun i hi hlive => ?_
  rw [live_eq_true] at hlive ⊢
  exact h i (List.mem_range.1 hi) hlive

theorem liveCount_congr {s t : State} (hcfg : t.cfg = s.cfg)
    (h : ∀ i, i < s.cfg.nslots → slotVal t i = slotVal s i) : liveCount t = liveCount s :=
  le_antisymm (liveCount_le_of_slots hcfg fun i hi => by rw [h i hi]; exact id)
    (liveCount_le_of_slots hcfg.symm fun i hi => by rw [h i (by rwa [← hcfg])]; exact id)

theorem liveCount_eq_zero {s : State} (h : ∀ i, i < s.cfg.nslots → slotVal s i = 0) : liveCount s = 0 := by
  refine List.countP_eq_zero.2 fun i hi => ?_
  rw [live_eq_true, not_not]
  exact h i (List.mem_range.1 hi)

/-! ### One byte step -/

/-- An operand latch as the comparator sees it, as a number: whole in ENC8, its low half in ENC4. -/
theorem windowBound_eq_of {c : Config} {x v : Byte} (h8 : c.enc = .enc8 → v = x)
    (h4 : c.enc = .enc4 → v.toNat = x.toNat % 16) : windowBound c x = v := by
  cases he : c.enc with
  | enc8 => rw [h8 he, windowBound, he]
  | enc4 =>
    rw [windowBound, he]
    refine BitVec.eq_of_toNat_eq ?_
    rw [h4 he, BitVec.toNat_setWidth_of_le (by decide), lowNibble_toNat]

/-- Settles O48: the operands of the statement are the bounds that the comparator sees. -/
theorem decayByteStep : Obligations.DecayByteStep := by
  intro s address lo hi hlt h8 h4
  have hlo : windowBound s.cfg s.a = lo := windowBound_eq_of (fun he => (h8 he).1) fun he => (h4 he).1
  have hhi : windowBound s.cfg s.b = hi := windowBound_eq_of (fun he => (h8 he).2) fun he => (h4 he).2
  refine ⟨decayedState address s, byteStep_of_lt hlt, fun i _ hsel => ?slots, fun addr hne => ?bytes, ?frame⟩
  case slots => rw [slotVal_decayedState, if_pos hsel, hlo, hhi, decaySlot_eq_ite]
  case bytes => rw [decayedState_read, if_neg hne]
  case frame =>
    have hcount := countP_live_at (decayedState address s) (x := address) hlt
    rw [decayedState_read, if_pos rfl, decayedState_cfg] at hcount
    rw [hcount]
    rfl

/-! ### A scan under way -/

/-- How many slots the byte steps at these addresses leave in their bytes (R163, R164). -/
def leftIn (s : State) (visited : List Nat) : Nat :=
  (visited.map fun x => liveInByte s.cfg (decayedByte s x)).sum

theorem leftIn_append (s : State) (xs ys : List Nat) : leftIn s (xs ++ ys) = leftIn s xs + leftIn s ys := by
  simp [leftIn]

theorem leftIn_cons (s : State) (x : Nat) (xs : List Nat) :
    leftIn s (x :: xs) = liveInByte s.cfg (decayedByte s x) + leftIn s xs := by
  simp [leftIn]

theorem leftIn_perm (s : State) {xs ys : List Nat} (h : xs.Perm ys) : leftIn s xs = leftIn s ys :=
  (h.map _).sum_eq

/-- A scanner, which began in `s`, has taken the byte steps at the addresses `visited` and stands in `u`. What it
has counted is left out: each lane has a count of its own. -/
structure Scanned (s : State) (visited : List Nat) (u : State) : Prop where
  bytes : ∀ y, u.buf.read y = if y ∈ visited then decayedByte s y else s.buf.read y
  kept : (∀ x ∈ visited, decayedByte s x = s.buf.read x) → u.buf = s.buf
  frame : u = { s with buf := u.buf, acc := u.acc, scan := u.scan }

theorem scanned_nil (s : State) : Scanned s [] s where
  bytes _ := by simp
  kept _ := rfl
  frame := rfl

section
variable {s u : State} {visited : List Nat}

theorem Scanned.cfg_eq (h : Scanned s visited u) : u.cfg = s.cfg := by rw [h.frame]

theorem Scanned.phase_eq (h : Scanned s visited u) : u.phase = s.phase := by rw [h.frame]

/-- Visited or not, a byte will be left as it would have been left at the start. -/
theorem Scanned.decided (h : Scanned s visited u) (y : Nat) : decayedByte u y = decayedByte s y := by
  have hlatches : decayedByte u y = decayByte s.cfg s.a s.b (u.buf.read y) := by
    rw [h.frame]
    rfl
  rw [hlatches, h.bytes]
  split
  · exact decayByte_decayByte s.cfg s.a s.b (s.buf.read y)
  · rfl

/-- The count and the scan pointer are no part of what the byte steps have left. -/
theorem Scanned.recount (h : Scanned s visited u) (acc scan : Nat) :
    Scanned s visited { u with acc := acc, scan := scan } where
  bytes := h.bytes
  kept := h.kept
  frame := by rw [h.frame]

/-- One byte step more, at an address visited before or not. -/
theorem Scanned.step (h : Scanned s visited u) (x : Nat) :
    Scanned s (visited ++ [x]) (decayedState x u) where
  bytes y := by
    rw [decayedState_read, h.bytes, h.decided]
    by_cases hy : y = x
    · rw [if_pos hy, if_pos (by simp [hy]), hy]
    · simp [hy]
  kept hsame := by
    have hbuf := h.kept fun y hy => hsame y (by simp [hy])
    have hx := hsame x (by simp)
    rw [decayedState, h.decided, hbuf, hx, if_pos rfl]
  frame := by rw [decayedState, h.frame]

theorem Scanned.step_acc (h : Scanned s visited u) (x : Nat) :
    (decayedState x u).acc = u.acc + liveInByte s.cfg (decayedByte s x) := by
  rw [← h.decided, ← h.cfg_eq]
  rfl

/-- A slot whose byte has been visited is decided. -/
theorem Scanned.slot_eq (h : Scanned s visited u) {i : Nat} (hi : (sel s.cfg i).1 ∈ visited) :
    slotVal u i = decaySlot (windowBound s.cfg s.a) (windowBound s.cfg s.b) (slotVal s i) := by
  rw [slotVal, h.cfg_eq, h.bytes, if_pos hi, decayedByte, slotGet_decayByte, slotVal]

/-- With every byte visited, what the byte steps have left is the live count of the store. -/
theorem Scanned.liveCount_eq (h : Scanned s (List.range s.cfg.len) u) :
    liveCount u = leftIn s (List.range s.cfg.len) := by
  rw [liveCount_eq_sum, h.cfg_eq]
  refine Finset.sum_congr rfl fun x hx => ?_
  rw [h.bytes, if_pos (by simpa using hx)]

end

/-! ### DECAY and its reference scanner (R160) -/

theorem decay_wf_iff (c : Config) (lo hi : Byte) :
    (Instr.decay lo hi).wf c = true ↔ lo.toNat ≤ c.tmax ∧ hi.toNat ≤ c.tmax := by
  simp [Instr.wf]

/-- The state in which the scanner starts, once the window has been checked (R180, R183). -/
abbrev decayStarted (lo hi : Byte) (s : State) : State := startScan (latch lo hi s)

theorem acceptDecay_of_legal {s : State} {lo hi : Byte} (hv : s.cfg.bufValid = true)
    (hwf : (Instr.decay lo hi).wf s.cfg = true) : acceptDecay lo hi s = decayStarted lo hi s := by
  rw [acceptDecay, (windowDefect_none_iff s.cfg lo hi).2 ⟨hv, (decay_wf_iff s.cfg lo hi).1 hwf⟩]

theorem exec_decay_of_idle {s : State} (hp : s.phase = .idle) (lo hi : Byte) :
    exec (.decay lo hi) s = decayFinish (acceptDecay lo hi s) := by
  simp only [exec, execDecay, hp, if_true]

/-- The engine steps of DECAY for its first `n` bytes. -/
theorem decaySteps_scan {s : State} (hp : s.phase = .decay) (hscan : s.scan = 0) {n : Nat} (hn : n ≤ s.cfg.len) :
    ∃ u, stepN decayStep n s = .next u ∧ Scanned s (List.range n) u ∧ u.scan = n ∧
      u.acc = s.acc + leftIn s (List.range n) := by
  induction n with
  | zero => exact ⟨s, rfl, scanned_nil s, hscan, rfl⟩
  | succ n ih =>
    obtain ⟨u, hu, hscanned, hat, hacc⟩ := ih (Nat.le_of_succ_le hn)
    have hlt : u.scan < u.cfg.len := by rwa [hat, hscanned.cfg_eq]
    have hstep := decayStep_of_lt (hscanned.phase_eq.trans hp) hlt
    rw [hat] at hstep
    refine ⟨advanceScan (decayedState n u), ?steps, ?scanned, congrArg (· + 1) hat, ?count⟩
    case steps => rw [stepN_add, hu, andThen_next, stepN_succ, hstep, andThen_next, stepN_zero]
    case scanned =>
      rw [List.range_succ]
      exact (hscanned.step n).recount _ _
    case count =>
      rw [advanceScan_acc, hscanned.step_acc, hacc, List.range_succ, leftIn_append, Nat.add_assoc]
      rfl

/-- DECAY with a legal window visits every byte and then responds with what it has counted. -/
theorem exec_decay_of_legal {s : State} {lo hi : Byte} (hp : s.phase = .idle) (hv : s.cfg.bufValid = true)
    (hwf : (Instr.decay lo hi).wf s.cfg = true) :
    ∃ u, exec (.decay lo hi) s = .next (respond .ok .none u.acc 0 u) ∧
      Scanned (decayStarted lo hi s) (List.range s.cfg.len) u ∧ u.scan = s.cfg.len ∧
      u.acc = leftIn (decayStarted lo hi s) (List.range s.cfg.len) := by
  obtain ⟨u, hu, hscanned, hat, hacc⟩ :=
    decaySteps_scan (s := decayStarted lo hi s) rfl rfl (le_refl s.cfg.len)
  have hdone : ¬ u.scan < u.cfg.len := by
    rw [hat, hscanned.cfg_eq]
    exact lt_irrefl _
  refine ⟨u, ?_, hscanned, hat, hacc.trans (Nat.zero_add _)⟩
  rw [exec_decay_of_idle hp, acceptDecay_of_legal hv hwf, decayFinish, stepN_add]
  show andThen (stepN decayStep s.cfg.len _) _ = _
  rw [hu, andThen_next, stepN_succ, decayStep_of_not_lt hscanned.phase_eq hdone, andThen_next, stepN_zero]

/-- Settles O49: every slot in range lies in a byte that has been visited, and no other byte has been. -/
theorem decayPostState : Obligations.DecayPostState := by
  intro s lo hi hp hv hwf
  obtain ⟨hlo, hhi⟩ := (decay_wf_iff s.cfg lo hi).1 hwf
  obtain ⟨u, hu, hscanned, hat, hacc⟩ := exec_decay_of_legal hp hv hwf
  have hlive : liveCount (respond .ok .none u.acc 0 u) = u.acc := hscanned.liveCount_eq.trans hacc.symm
  refine ⟨_, hu, fun i hi' => ?slots, fun addr hout => ?bytes, ?frame⟩
  case slots =>
    have hslot := hscanned.slot_eq (i := i) (List.mem_range.2 (sel_lt_len hi'))
    rw [← decaySlot_eq_ite, ← windowBound_of_inRing hlo, ← windowBound_of_inRing hhi]
    exact hslot
  case bytes => exact (hscanned.bytes addr).trans (if_neg (by simpa using hout))
  case frame =>
    rw [hlive, respond, hscanned.frame, hat]
    simp only [okResponse, hp]
    rfl

/-! ### What follows for the store -/

/-- The engine is idle and the store is decided: its slots, and their count as `ACC` and as the response. -/
structure Decayed (lo hi : Byte) (s t : State) : Prop where
  cfg : t.cfg = s.cfg
  idle : t.phase = .idle
  acc : t.acc = liveCount t
  rsp : t.rsp = okResponse (liveCount t)
  slots : ∀ i, i < s.cfg.nslots → slotVal t i = decaySlot lo hi (slotVal s i)

section
variable {s t : State} {lo hi : Byte}

theorem decayed_of_exec_decay (hp : s.phase = .idle) (hv : s.cfg.bufValid = true)
    (hwf : (Instr.decay lo hi).wf s.cfg = true) (h : exec (.decay lo hi) s = .next t) : Decayed lo hi s t := by
  obtain ⟨t', ht', hslots, -, hframe⟩ := decayPostState s lo hi hp hv hwf
  cases ht'.symm.trans h
  exact
    { cfg := by rw [hframe]
      idle := by rw [hframe, hp]
      acc := congrArg State.acc hframe
      rsp := congrArg State.rsp hframe
      slots := fun i hi' => by rw [hslots i hi', decaySlot_eq_ite] }

/-- DECAY writes no byte of a store whose occupied slots are all fresh (log entry 16). -/
theorem exec_decay_keeps_buf (hp : s.phase = .idle) (hv : s.cfg.bufValid = true)
    (hwf : (Instr.decay lo hi).wf s.cfg = true)
    (hkept : ∀ i, i < s.cfg.nslots → decaySlot lo hi (slotVal s i) = slotVal s i)
    (h : exec (.decay lo hi) s = .next t) : t.buf = s.buf := by
  obtain ⟨hlo, hhi⟩ := (decay_wf_iff s.cfg lo hi).1 hwf
  obtain ⟨u, hu, hscanned, -, -⟩ := exec_decay_of_legal hp hv hwf
  cases hu.symm.trans h
  refine hscanned.kept fun x hx => decayedByte_of_slots_kept (fun i hi' => ?_) (List.mem_range.1 hx)
  have hslot := hkept i hi'
  rw [← windowBound_of_inRing hlo, ← windowBound_of_inRing hhi] at hslot
  exact hslot

/-- DECAY never adds to the live count. -/
theorem Decayed.liveCount_le (h : Decayed lo hi s t) : liveCount t ≤ liveCount s := by
  refine liveCount_le_of_slots h.cfg fun i hi' hne => ?_
  rw [h.slots i hi'] at hne
  exact ((keep_iff ..).1 (keep_of_decaySlot_ne_zero hne)).1

/-- The same window keeps every slot as DECAY has left it. -/
theorem Decayed.slot_decided (h : Decayed lo hi s t) {i : Nat} (hi' : i < s.cfg.nslots) :
    decaySlot lo hi (slotVal t i) = slotVal t i := by
  rw [h.slots i hi', decaySlot_decaySlot]

/-- A slot that DECAY has left occupied is in its window. -/
theorem Decayed.keep_iff_ne_zero (h : Decayed lo hi s t) {i : Nat} (hi' : i < s.cfg.nslots) :
    keep (slotVal t i) lo hi = true ↔ slotVal t i ≠ 0 := by
  refine ⟨fun hkeep => ((keep_iff ..).1 hkeep).1, fun hne => ?_⟩
  rw [← h.slot_decided hi'] at hne
  exact keep_of_decaySlot_ne_zero hne

end

/-- Settles O50: the first pass leaves only slots that the second keeps. -/
theorem decayIsIdempotent : Obligations.DecayIsIdempotent := by
  intro s lo hi hp hv hwf
  obtain ⟨t, ht⟩ := exec_total (.decay lo hi) s
  obtain ⟨u, hu⟩ := exec_total (.decay lo hi) t
  have hfirst := decayed_of_exec_decay hp hv hwf ht
  rw [← hfirst.cfg] at hv hwf
  have hsecond := decayed_of_exec_decay hfirst.idle hv hwf hu
  have hbuf : u.buf = t.buf := exec_decay_keeps_buf hfirst.idle hv hwf
    (fun i hi' => hfirst.slot_decided (by rwa [← hfirst.cfg])) hu
  have hcount : liveCount u = liveCount t :=
    liveCount_congr hsecond.cfg fun i _ => slotVal_congr hsecond.cfg hbuf i
  exact ⟨t, u, ht, hu, by rw [hfirst.rsp, hsecond.rsp, hcount], hbuf⟩

/-- Settles O51: each DECAY answers its own live count, and none adds to it. -/
theorem decayCountNeverGrows : Obligations.DecayCountNeverGrows := by
  intro s t u v lo hi lo' hi' hp hv hwf hwf' ht hidle hcfg hbuf hv'
  have hfirst := decayed_of_exec_decay hp hv hwf ht
  rw [← hfirst.cfg, ← hcfg] at hv hwf'
  have hlater := decayed_of_exec_decay hidle hv hwf' hv'
  have hsame : liveCount u = liveCount t := liveCount_congr hcfg fun i _ => slotVal_congr hcfg hbuf i
  have hbound : liveCount t ≤ s.cfg.nslots := hfirst.cfg ▸ liveCount_le_nslots t
  have hvalue : t.rsp.value = liveCount t := congrArg Response.value hfirst.rsp
  have hvalue' : v.rsp.value = liveCount v := congrArg Response.value hlater.rsp
  rw [hvalue, hvalue', hfirst.acc]
  exact ⟨hsame ▸ hlater.liveCount_le, hfirst.liveCount_le, hbound, rfl,
    hbound.trans_lt (nslots_lt_two_pow_cw s.cfg)⟩

/-! ### The degenerate windows (R171) -/

/-- Settles O52: no tick is fresh in a window with equal bounds, every tick is in `(0, TMAX]`, and a window that
keeps every tick is that one (`keeps_every_tick_iff`). -/
theorem decayDegenerateWindows : Obligations.DecayDegenerateWindows := by
  intro c lo hi hv hwf
  obtain ⟨hlo, hhi⟩ := (decay_wf_iff c lo hi).1 hwf
  have hall := keeps_every_tick_iff c hlo hhi
  refine ⟨?equal, ?census, ?narrower⟩
  case equal =>
    rintro rfl s rfl hp
    obtain ⟨t, ht⟩ := exec_total (.decay lo lo) s
    have hpost := decayed_of_exec_decay hp hv hwf ht
    have hclear : ∀ i, i < s.cfg.nslots → slotVal t i = 0 := fun i hi' => by
      rw [hpost.slots i hi', decaySlot_of_not_keep]
      exact keep_eq_false_of_empty_or_stale (.inr (fresh_of_eq_bounds _ lo))
    exact ⟨t, ht, by rw [hpost.rsp, liveCount_eq_zero (by rwa [hpost.cfg])], hclear⟩
  case census =>
    rintro rfl hmax s rfl hp
    obtain ⟨t, ht⟩ := exec_total (.decay 0 hi) s
    have hpost := decayed_of_exec_decay hp hv hwf ht
    have hkept : ∀ i, i < s.cfg.nslots → decaySlot 0 hi (slotVal s i) = slotVal s i := fun i _ =>
      decaySlot_of_empty_or_keep fun hne => hall.2 ⟨rfl, hmax⟩ _ hne (everySlotLiesInTheRing s i)
    have hcount : liveCount t = liveCount s :=
      liveCount_congr hpost.cfg fun i hi' => (hpost.slots i hi').trans (hkept i hi')
    exact ⟨t, ht, by rw [hpost.rsp, hcount], exec_decay_keeps_buf hp hv hwf hkept ht⟩
  case narrower =>
    intro hne
    have hexcluded : ¬ ∀ v : Byte, v ≠ 0 → v.toNat ≤ c.tmax → keep v lo hi = true := fun hkeeps =>
      hne ((hall.1 hkeeps).imp_left fun hzero => BitVec.eq_of_toNat_eq hzero)
    push Not at hexcluded
    obtain ⟨v, hv0, hring, hcleared⟩ := hexcluded
    rw [ne_eq, Bool.not_eq_true] at hcleared
    refine ⟨v, hv0, hring, hcleared, ?_⟩
    rintro s rfl hp
    obtain ⟨t, ht⟩ := exec_total (.decay lo hi) s
    have hslots := (decayed_of_exec_decay hp hv hwf ht).slots
    exact ⟨t, ht, fun i hi' hslot => by rw [hslots i hi', hslot, decaySlot_of_not_keep hcleared]⟩

/-! ### Every way to visit the bytes (R168) -/

section
variable {s : State} {lo hi : Byte}

/-- A scanner that has visited every byte of the buffer once, in whatever order, and has counted what it left there
agrees with DECAY. -/
theorem exec_decay_agrees {u : State} {visited : List Nat} (hp : s.phase = .idle) (hv : s.cfg.bufValid = true)
    (hwf : (Instr.decay lo hi).wf s.cfg = true) (hperm : visited.Perm (List.range s.cfg.len))
    (hscanned : Scanned (decayStarted lo hi s) visited u)
    (hacc : u.acc = leftIn (decayStarted lo hi s) visited) :
    ∃ t, exec (.decay lo hi) s = .next t ∧ t.rsp = okResponse u.acc ∧
      ∀ addr, u.buf.read addr = t.buf.read addr := by
  obtain ⟨v, hv', hreference, -, hacc'⟩ := exec_decay_of_legal hp hv hwf
  refine ⟨_, hv', ?_, fun addr => ?_⟩
  · rw [hacc, leftIn_perm _ hperm, ← hacc']
    rfl
  · show u.buf.read addr = v.buf.read addr
    rw [hscanned.bytes, hreference.bytes]
    simp only [hperm.mem_iff]

end

section
variable {s u : State} {visited : List Nat}

/-- One lane visits its addresses in its order, all in the buffer. -/
theorem laneScan_scanned {lane : List Nat} (hlane : ∀ x ∈ lane, x < s.cfg.len) (h : Scanned s visited u) :
    ∃ v, laneScan lane u = .next v ∧ Scanned s (visited ++ lane) v ∧ v.acc = u.acc + leftIn s lane := by
  induction lane generalizing visited u with
  | nil => exact ⟨u, rfl, by rwa [List.append_nil], rfl⟩
  | cons x rest ih =>
    obtain ⟨hx, hrest⟩ := List.forall_mem_cons.1 hlane
    obtain ⟨v, hv, hscanned, hacc⟩ := ih hrest (h.step x)
    refine ⟨v, ?_, by simpa using hscanned, ?_⟩
    · rw [laneScan, byteStep_of_lt (by rwa [h.cfg_eq]), andThen_next, hv]
    · rw [hacc, h.step_acc, leftIn_cons, Nat.add_assoc]

/-- The lanes in turn: the counts that the lanes take for themselves add up. -/
theorem lanesScan_scanned {lanes : List (List Nat)} (hlanes : ∀ x ∈ lanes.flatten, x < s.cfg.len)
    (h : Scanned s visited u) :
    ∃ v, lanesScan lanes u = .next v ∧ Scanned s (visited ++ lanes.flatten) v ∧
      v.acc = u.acc + leftIn s lanes.flatten := by
  induction lanes generalizing visited u with
  | nil => exact ⟨u, rfl, by simpa using h, rfl⟩
  | cons lane rest ih =>
    rw [List.flatten_cons] at hlanes
    obtain ⟨v, hv, hscanned, hacc⟩ :=
      laneScan_scanned (fun x hx => hlanes x (List.mem_append_left _ hx)) (h.recount 0 u.scan)
    obtain ⟨w, hw, hscanned', hacc'⟩ :=
      ih (fun x hx => hlanes x (List.mem_append_right _ hx)) (hscanned.recount (u.acc + v.acc) v.scan)
    refine ⟨w, ?_, by simpa using hscanned', ?_⟩
    · rw [lanesScan, hv, andThen_next, hw]
    · rw [hacc', List.flatten_cons, leftIn_append, hacc, Nat.zero_add, Nat.add_assoc]

/-- A lane that counts `k` more adds `k` to the sum of the counts. -/
theorem sum_set_getD_add {counts : List Nat} {lane : Nat} (h : lane < counts.length) (k : Nat) :
    (counts.set lane (counts.getD lane 0 + k)).sum = counts.sum + k := by
  induction counts generalizing lane with
  | nil => cases h
  | cons count rest ih =>
    cases lane with
    | zero => simp [Nat.add_right_comm]
    | succ lane =>
      have hrest := ih (Nat.lt_of_succ_lt_succ h)
      simpa [Nat.add_assoc] using hrest

/-- The lanes interleaved: whichever lane takes a byte step, the sum of the counts grows by what it left. -/
theorem interleavedScan_scanned {schedule : List (Nat × Nat)} {counts : List Nat}
    (hlanes : ∀ e ∈ schedule, e.1 < counts.length) (hlen : ∀ e ∈ schedule, e.2 < s.cfg.len)
    (h : Scanned s visited u) :
    ∃ v, interleavedScan schedule counts u = .next v ∧ Scanned s (visited ++ schedule.map fun e => e.2) v ∧
      v.acc = counts.sum + leftIn s (schedule.map fun e => e.2) := by
  induction schedule generalizing visited u counts with
  | nil => exact ⟨_, rfl, by simpa using h.recount counts.sum u.scan, rfl⟩
  | cons e rest ih =>
    obtain ⟨lane, x⟩ := e
    obtain ⟨hlane, hlanes⟩ := List.forall_mem_cons.1 hlanes
    obtain ⟨hx, hlen⟩ := List.forall_mem_cons.1 hlen
    have hbefore := h.recount (counts.getD lane 0) u.scan
    obtain ⟨v, hv, hscanned, hacc⟩ :=
      ih (counts := counts.set lane (decayedState x { u with acc := counts.getD lane 0 }).acc)
        (by simpa using hlanes) hlen (hbefore.step x)
    refine ⟨v, ?_, by simpa using hscanned, ?_⟩
    · rw [interleavedScan, byteStep_of_lt (by rwa [hbefore.cfg_eq]), andThen_next, hv]
    · rw [hacc, hbefore.step_acc, sum_set_getD_add hlane, List.map_cons, leftIn_cons, Nat.add_assoc]

end

/-- Settles O53: the lanes in turn visit the addresses of their list, each in the buffer and once. -/
theorem decayAgreesForEveryLaneAssignment : Obligations.DecayAgreesForEveryLaneAssignment := by
  intro s lo hi lanes hp hv hwf _ hperm
  have hlen : ∀ x ∈ lanes.flatten, x < s.cfg.len := fun x hx => List.mem_range.1 (hperm.mem_iff.1 hx)
  obtain ⟨u, hu, hscanned, hacc⟩ :=
    lanesScan_scanned (s := decayStarted lo hi s) hlen (scanned_nil _)
  obtain ⟨t, ht, hrsp, hbytes⟩ := exec_decay_agrees hp hv hwf hperm hscanned (hacc.trans (Nat.zero_add _))
  refine ⟨t, u, ht, ?_, hrsp, hbytes⟩
  rw [acceptInstr, acceptDecay_of_legal hv hwf, hu]

/-- Settles O54: so does the schedule, whichever lane takes each address. -/
theorem decayAgreesForEveryInterleaving : Obligations.DecayAgreesForEveryInterleaving := by
  intro s lo hi schedule hp hv hwf hlanes hperm
  have hlen : ∀ e ∈ schedule, e.2 < s.cfg.len := fun e he =>
    List.mem_range.1 (hperm.mem_iff.1 (List.mem_map_of_mem he))
  obtain ⟨u, hu, hscanned, hacc⟩ :=
    interleavedScan_scanned (s := decayStarted lo hi s) (counts := List.replicate s.cfg.lanes 0)
      (by simpa using hlanes) hlen (scanned_nil _)
  rw [List.sum_replicate, smul_zero, Nat.zero_add] at hacc
  obtain ⟨t, ht, hrsp, hbytes⟩ := exec_decay_agrees hp hv hwf hperm hscanned hacc
  refine ⟨t, u, ht, ?_, hrsp, hbytes⟩
  rw [acceptInstr, acceptDecay_of_legal hv hwf, hu]

/-! ### CONTAINS after DECAY (R148, R166) -/

/-- Settles O55: an occupied slot that DECAY leaves is fresh, so CONTAINS with the same window tests only whether
it is occupied. -/
theorem containsAfterDecay : Obligations.ContainsAfterDecay := by
  intro s lo hi is tail hp hv hwf hin
  obtain ⟨t, ht⟩ := exec_total (.decay lo hi) s
  have hpost := decayed_of_exec_decay hp hv hwf ht
  have hkeep : ∀ i ∈ is, (keep (slotVal t i) lo hi = true ↔ slotVal t i ≠ 0) := fun i hi' =>
    hpost.keep_iff_ne_zero (hin i hi').1
  rw [← hpost.cfg] at hv hwf hin ⊢
  obtain ⟨u, hu, hidle, hrsp⟩ := exec_contains_presented tail hpost.idle hv hwf hin
  simp only [forall₂_congr hkeep] at hrsp
  refine ⟨t, u, ht, hu, hidle, ?_⟩
  by_cases hall : ∀ i ∈ is, slotVal t i ≠ 0
  · rw [if_pos hall] at hrsp
    exact ⟨iff_of_true hrsp hall, fun hne => absurd hrsp hne⟩
  · rw [if_neg hall] at hrsp
    have hfalse : u.rsp ≠ okResponse 1 := by
      rw [hrsp]
      decide
    exact ⟨iff_of_false hfalse hall, fun _ => hrsp⟩

end Sys2Proof.Machine
end

section
/-! PROOFS. The command sequencer (`44_sequencer.md`).

An accepted instruction is its acceptance and then the command carried on (`exec_eq_continueCommand`), which is
a row of engine steps (`continueCommand_of_streaming`, `continueCommand_of_decay`). Where a running ADD or
CONTAINS stands in its stream is said by the state it began in and the number of pulls (`Streaming`): every pull
that is answered brings it one further or ends it with its one response (`Streaming.step`). -/

namespace Sys2Proof.Machine

/-! ### The HOST's word (R180, R181, R186) -/

section
variable {s : State} {w : Word} {beats : List BeatWord} {tail : Tail} {rest : List HostEvent} {i : Instr}

theorem step_of_command (hp : s.phase = .idle) (hh : s.host = .command w beats tail :: rest) :
    step s = runWord w (present beats tail { s with host := rest }) := by
  simp only [step, machineStep, hh, hp, if_true, dropEvent, List.tail_cons]

theorem step_of_reset (hh : s.host = .reset :: rest) :
    step s = .next (hostReset { s with host := rest }) := by
  simp only [step, machineStep, hh, dropEvent, List.tail_cons]

/-- An engine that runs a command, or whose HOST has nothing in mind, carries on, unless it is reset. -/
theorem step_of_no_word (h : s.phase ≠ .idle ∨ s.host = []) (hr : ∀ rest, s.host ≠ .reset :: rest) :
    step s = continueCommand s := by
  rcases step_cases s with ⟨_, hh, -⟩ | ⟨hp, _, _, _, _, hh, -⟩ | ⟨hp, _, _, _, _, _, hh, -⟩ | ⟨-, -, he⟩
  · exact absurd hh (hr _)
  · exact absurd h (by simp [hp, hh])
  · exact absurd h (by simp [hp, hh])
  · exact he

theorem step_of_host_nil (h : s.host = []) : step s = continueCommand s :=
  step_of_no_word (.inr h) (by simp [h])

theorem runWord_of_ok (h : decode w = .ok i) (s : State) : runWord w s = exec i s := by
  rw [runWord, h]

theorem runWord_of_error {e : DecodeError} (h : decode w = .error e) (s : State) :
    runWord w s = .next (illegalWord w s) := by
  rw [runWord, h]

theorem exec_of_busy (hp : s.phase ≠ .idle) (i : Instr) : exec i s = .next s := by
  cases i <;> simp only [exec, execAdd, execContains, execDecay, hp, if_false]

/-- What the host's table reader reads is the word that `withFetchWord` presents. -/
theorem decode_of_decodeTableWord {n : Nat} (h : decodeTableWord 32 n = some i) :
    decode (BitVec.ofNat 32 (n % 2 ^ 32)) = .ok i := by
  unfold decodeTableWord at h
  rw [if_pos (Nat.mod_lt _ (Nat.two_pow_pos 32))] at h
  split at h
  · rename_i j hj
    rwa [← Option.some.inj h]
  · cases h

end

/-- Settles O24: an idle engine takes the word (`step_of_command`), and decoding gives its instruction. -/
theorem stepRunsTheDecodedInstruction : Obligations.StepRunsTheDecodedInstruction := by
  refine ⟨fun s w beats tail rest i hp hh hd => ?_, fun s w i hd => ?_⟩
  · rw [step_of_command hp hh, runWord_of_ok hd]
    rfl
  · have hword := decode_of_decodeTableWord hd
    rw [State.withFetchWord, step_of_command (s := offerWord _ s) rfl rfl, runWord_of_ok hword]
    rfl

/-- Settles O26: a busy engine carries its command on, and no engine step touches the HOST's list. -/
theorem busyEngineAcceptsNothing : Obligations.BusyEngineAcceptsNothing := by
  intro s hready
  have hp : s.phase ≠ .idle := by simpa [ready] using hready
  refine ⟨hp, exec_of_busy hp, fun hr t ht => ?_⟩
  rw [step_of_no_word (.inl hp) hr] at ht
  exact (runs_cfg_host (continueCommand_runs ht)).2

/-! ### Acceptance and the pre-checks (R180, R182, R183) -/

theorem tickDefect_eq_firstDefect (c : Config) (tick : Byte) :
    tickDefect c tick = firstDefect c (.add tick) := by
  simp [tickDefect, firstDefect, zero, tickInRing]

theorem windowDefect_eq_contains (c : Config) (lo hi : Byte) :
    windowDefect c lo hi = firstDefect c (.contains lo hi) := by
  simp only [windowDefect, firstDefect, tickInRing, decide_eq_false_iff_not, not_le, ite_or]

theorem windowDefect_eq_decay (c : Config) (lo hi : Byte) :
    windowDefect c lo hi = firstDefect c (.decay lo hi) :=
  windowDefect_eq_contains c lo hi

/-- The state in which a command that has passed its pre-checks begins (R180, R183). -/
def commandStarted (i : Instr) (s : State) : State :=
  match i with
  | .add tick => openStream .add (latch tick 0 s)
  | .contains lo hi => openStream .contains (latch lo hi s)
  | .decay lo hi => startScan (latch lo hi s)

section
variable {s : State} {i : Instr} {c : Cause}

theorem acceptInstr_eq (i : Instr) (s : State) :
    acceptInstr i s =
      (firstDefect s.cfg i).elim (commandStarted i s)
        fun c => raise c 0 (latch (operandA i) (operandB i) s) := by
  cases i with
  | add tick =>
    rw [acceptInstr, acceptAdd, ← tickDefect_eq_firstDefect]
    cases tickDefect s.cfg tick <;> rfl
  | contains lo hi =>
    rw [acceptInstr, acceptContains, ← windowDefect_eq_contains]
    cases windowDefect s.cfg lo hi <;> rfl
  | decay lo hi =>
    rw [acceptInstr, acceptDecay, ← windowDefect_eq_decay]
    cases windowDefect s.cfg lo hi <;> rfl

theorem acceptInstr_of_defect (h : firstDefect s.cfg i = some c) :
    acceptInstr i s = raise c 0 (latch (operandA i) (operandB i) s) := by
  rw [acceptInstr_eq, h, Option.elim_some]

theorem acceptInstr_of_no_defect (h : firstDefect s.cfg i = none) : acceptInstr i s = commandStarted i s := by
  rw [acceptInstr_eq, h, Option.elim_none]

/-- Every case of the acceptance of an instruction. -/
theorem acceptInstr_cases (i : Instr) (s : State) :
    (∃ c, firstDefect s.cfg i = some c ∧
        acceptInstr i s = raise c 0 (latch (operandA i) (operandB i) s)) ∨
      (firstDefect s.cfg i = none ∧ acceptInstr i s = commandStarted i s) := by
  cases h : firstDefect s.cfg i with
  | some c => exact .inl ⟨c, rfl, acceptInstr_of_defect h⟩
  | none => exact .inr ⟨rfl, acceptInstr_of_no_defect h⟩

theorem firstDefect_none_iff (c : Config) (i : Instr) :
    firstDefect c i = none ↔ c.bufValid = true ∧ i.wf c = true := by
  cases i with
  | add tick => rw [← tickDefect_eq_firstDefect, tickDefect_none_iff, add_wf_iff]
  | contains lo hi => rw [← windowDefect_eq_contains, windowDefect_none_iff, contains_wf_iff]
  | decay lo hi => rw [← windowDefect_eq_decay, windowDefect_none_iff, decay_wf_iff]

theorem commandStarted_phase (i : Instr) (s : State) : (commandStarted i s).phase = commandPhase i := by
  cases i <;> rfl

theorem streams_or_decay (i : Instr) :
    (commandPhase i = .add ∨ commandPhase i = .contains) ∨ ∃ lo hi, i = .decay lo hi := by
  cases i with
  | add tick => exact .inl (.inl rfl)
  | contains lo hi => exact .inl (.inr rfl)
  | decay lo hi => exact .inr ⟨lo, hi, rfl⟩

/-- An accepted instruction runs in its own phase, or has ended (R183). -/
theorem acceptInstr_phase (i : Instr) (s : State) :
    (acceptInstr i s).phase = commandPhase i ∨ (acceptInstr i s).phase = .idle := by
  rcases acceptInstr_cases i s with ⟨c, -, he⟩ | ⟨-, he⟩ <;> rw [he]
  · exact .inr rfl
  · exact .inl (commandStarted_phase i s)

end

/-! ### A command carried on (R187) -/

section
variable {s : State}

theorem continueCommand_of_idle (h : s.phase = .idle) : continueCommand s = .next s := by
  rw [continueCommand, h]

theorem addFinish_eq_continueCommand (h : s.phase = .add ∨ s.phase = .idle) :
    addFinish s = continueCommand s := by
  rcases h with h | h
  · rw [continueCommand, h]
  · rw [continueCommand_of_idle h, addFinish_of_ne (by simp [h])]

theorem containsFinish_eq_continueCommand (h : s.phase = .contains ∨ s.phase = .idle) :
    containsFinish s = continueCommand s := by
  rcases h with h | h
  · rw [continueCommand, h]
  · rw [continueCommand_of_idle h, containsFinish_of_ne (by simp [h])]

theorem decayFinish_eq_continueCommand (h : s.phase = .decay ∨ s.phase = .idle) :
    decayFinish s = continueCommand s := by
  rcases h with h | h
  · rw [continueCommand, h]
  · rw [continueCommand_of_idle h, decayFinish, stepN_of_fixed (decayStep_of_ne (by simp [h]))]

/-- An instruction that an idle engine accepts is its acceptance, and then the command carried on. -/
theorem exec_eq_continueCommand (hp : s.phase = .idle) (i : Instr) :
    exec i s = continueCommand (acceptInstr i s) := by
  have hphase := acceptInstr_phase i s
  cases i with
  | add tick => exact (exec_add_of_idle hp tick).trans (addFinish_eq_continueCommand hphase)
  | contains lo hi => exact (exec_contains_of_idle hp lo hi).trans (containsFinish_eq_continueCommand hphase)
  | decay lo hi => exact (exec_decay_of_idle hp lo hi).trans (decayFinish_eq_continueCommand hphase)

/-- An instruction that fails a pre-check ends at its acceptance (R182). -/
theorem exec_of_defect {i : Instr} {c : Cause} (hp : s.phase = .idle) (h : firstDefect s.cfg i = some c) :
    exec i s = .next (raise c 0 (latch (operandA i) (operandB i) s)) := by
  rw [exec_eq_continueCommand hp, acceptInstr_of_defect h, continueCommand_of_idle rfl]

/-- With no stream open the fault entry closes nothing. -/
theorem raise_of_not_opened (ho : s.source.opened = false) (c : Cause) (info : Nat) :
    raise c info s = respond c.kind c 0 info s := by
  rw [raise, close_of_not_opened ho]

end

/-- Settles O31: the model's pre-checks are those of the table (`acceptInstr_cases`). -/
theorem preChecksInTheirOrder : Obligations.PreChecksInTheirOrder := by
  intro i s hp ho
  refine ⟨fun c hc => ?fails, fun hnone => ?passes⟩
  case fails =>
    rw [exec_of_defect hp hc, raise_of_not_opened (s := latch _ _ s) ho, respond, latch, hp]
    rfl
  case passes =>
    rw [acceptInstr_of_no_defect hnone]
    exact ⟨fun tick h => h ▸ rfl, fun lo hi h => h ▸ rfl, fun lo hi h => h ▸ rfl⟩

/-! ### Engine steps (R183) -/

theorem engineStep_of_idle {s : State} (h : s.phase = .idle) : engineStep s = .next s := by
  rw [engineStep, h]

theorem engineStep_of_add {s : State} (h : s.phase = .add) : engineStep s = addStep s := by
  rw [engineStep, h]

theorem engineStep_of_contains {s : State} (h : s.phase = .contains) : engineStep s = containsStep s := by
  rw [engineStep, h]

theorem engineStep_of_decay {s : State} (h : s.phase = .decay) : engineStep s = decayStep s := by
  rw [engineStep, h]

/-- An unanswered pull is a step that changes nothing (R184). -/
theorem engineStep_of_pull_none {s : State} (hp : s.phase ≠ .decay) (h : pull s = none) :
    engineStep s = .next s := by
  cases hphase : s.phase with
  | idle => exact engineStep_of_idle hphase
  | add => exact (engineStep_of_add hphase).trans (addStep_of_pull_none h)
  | contains => exact (engineStep_of_contains hphase).trans (containsStep_of_pull_none h)
  | decay => exact absurd hphase hp

/-- A command stays in its phase until it ends. -/
theorem move_phase {s t : State} (h : EngineMove s t) : t.phase = s.phase ∨ t.phase = .idle := by
  cases h with
  | wait => exact .inl rfl
  | addMarks _ hq _ => exact .inl (by rw [addMarked_phase, pull_phase hq])
  | containsPasses _ hq _ _ => exact .inl (pull_phase hq)
  | decayPasses _ _ => exact .inl rfl
  | _ => exact .inr rfl

/-- Engine steps in a row are steps of the one command that runs, whichever it is. -/
theorem stepN_eq_engineStep {f : State → Host.Outcome State Fault Refusal} {p : Phase}
    (hrun : ∀ u, u.phase = p → engineStep u = f u) (hidle : ∀ u, u.phase = .idle → f u = .next u)
    (n : Nat) {s : State} (hs : s.phase = p ∨ s.phase = .idle) : stepN f n s = stepN engineStep n s := by
  induction n generalizing s with
  | zero => rfl
  | succ n ih =>
    have hstep : engineStep s = f s := by
      rcases hs with h | h
      · exact hrun s h
      · rw [engineStep_of_idle h, hidle s h]
    obtain ⟨t, ht⟩ := engineStep_total s
    rw [stepN_succ, stepN_succ, ← hstep, ht, andThen_next, andThen_next]
    refine ih ?_
    rcases move_phase (engineStep_move ht) with h | h
    · rw [h]; exact hs
    · exact .inr h

theorem continueCommand_of_streaming {s : State} (hp : s.phase = .add ∨ s.phase = .contains) :
    continueCommand s = stepN engineStep (burst s.source) s := by
  rcases hp with h | h
  · rw [← addFinish_eq_continueCommand (.inl h), addFinish]
    exact stepN_eq_engineStep (fun u => engineStep_of_add)
      (fun u hu => addStep_of_ne (by simp [hu])) _ (.inl h)
  · rw [← containsFinish_eq_continueCommand (.inl h), containsFinish]
    exact stepN_eq_engineStep (fun u => engineStep_of_contains)
      (fun u hu => containsStep_of_ne (by simp [hu])) _ (.inl h)

theorem continueCommand_of_decay {s : State} (hp : s.phase = .decay) :
    continueCommand s = stepN engineStep (s.cfg.len - s.scan + 1) s := by
  rw [← decayFinish_eq_continueCommand (.inl hp), decayFinish]
  exact stepN_eq_engineStep (fun u => engineStep_of_decay)
    (fun u hu => decayStep_of_ne (by simp [hu])) _ (.inl hp)

section
variable {s p : State}

theorem countEmpty_eq (old : Byte) (s : State) :
    countEmpty old s = { s with acc := s.acc + if old = 0 then 1 else 0 } := by
  unfold countEmpty
  simp only [zero_eq_true]
  split <;> rfl

theorem addMarked_frame (i : Nat) (s : State) :
    addMarked i s = { s with buf := (addMarked i s).buf, acc := (addMarked i s).acc } := by
  rw [addMarked, countEmpty_eq]

/-- The item step of ADD is the slot write, and the count of the slot if it was empty (R130 to R132). -/
theorem addItem_eq_slotWrite {i : Nat} (hi : i < p.cfg.nslots) :
    ∃ t, slotWrite p i p.a = .ok t ∧
      addItem i p = .next { t with acc := p.acc + if slotVal p i = 0 then 1 else 0 } :=
  ⟨_, slotWrite_of_lt hi p.a, by rw [addItem_of_lt hi, addMarked, countEmpty_eq]⟩

/-- A beat that faults ends ADD and CONTAINS alike (R183, R203, R207). -/
theorem engineStep_of_faulty_beat {b : Beat} {c : Cause} {info : Nat}
    (hp : s.phase = .add ∨ s.phase = .contains) (hq : pull s = some (b, p))
    (hfault : (b = .bad ∧ c = .miStream ∧ info = 0) ∨
      (b = .item info ∧ p.cfg.nslots ≤ info ∧ c = .iaIndex)) :
    engineStep s = .next (raise c info p) := by
  rcases hfault with ⟨rfl, rfl, rfl⟩ | ⟨rfl, hout, rfl⟩
  · rcases hp with h | h
    · exact (engineStep_of_add h).trans (addStep_of_bad h hq)
    · exact (engineStep_of_contains h).trans (containsStep_of_bad h hq)
  · rcases hp with h | h
    · rw [engineStep_of_add h, addStep_of_item h hq, addItem_of_not_lt (not_lt.2 hout)]
    · rw [engineStep_of_contains h, containsStep_of_item h hq, containsItem_of_not_lt (not_lt.2 hout)]

end

/-- Settles O28: each row of the table is one equation of the phase's own step. -/
theorem runningPhaseTransitions : Obligations.RunningPhaseTransitions := by
  intro s
  refine ⟨fun w rest tail ho hnext => ?streams, fun hp hlt => ?scans, fun hp hend => ?scanned⟩
  case streams =>
    intro p
    have hq : pull s = some (decodeBeat s.cfg.iw w, p) := pull_of_next ho hnext
    have hopen : p.source.opened = true := ho
    refine ⟨fun i hp hw hi => ?addItem, fun hp hw => ?addEnd, fun i hp hw hi hk => ?passes,
      fun i hp hw hi hk => ?fails, fun hp hw => ?containsEnd, fun c info hp hfault => ?faults⟩
    case addItem =>
      obtain ⟨t, hwrite, hadd⟩ := addItem_eq_slotWrite (p := p) hi
      exact ⟨t, hwrite, by rw [engineStep_of_add hp, addStep_of_item hp (hw ▸ hq), hadd]; rfl⟩
    case addEnd => exact (engineStep_of_add hp).trans (addStep_of_done (t := p) hp (hw ▸ hq))
    case passes =>
      rw [engineStep_of_contains hp, containsStep_of_item hp (hw ▸ hq)]
      exact containsItem_of_passes hi hk
    case fails =>
      rw [engineStep_of_contains hp, containsStep_of_item hp (hw ▸ hq), containsItem_of_fails (s := p) hi hk,
        respond, close, hopen]
      rfl
    case containsEnd => exact (engineStep_of_contains hp).trans (containsStep_of_done (t := p) hp (hw ▸ hq))
    case faults =>
      rw [engineStep_of_faulty_beat hp hq hfault, raise, close, hopen]
      rfl
  case scans =>
    exact ⟨_, byteStep_of_lt hlt, hp, rfl, rfl, (engineStep_of_decay hp).trans (decayStep_of_lt hp hlt)⟩
  case scanned => exact (engineStep_of_decay hp).trans (decayStep_of_not_lt hp (not_lt.2 hend))

/-! ### Where a command stands in its stream (R184, R187) -/

/-- ADD or CONTAINS, which began in `s`, still runs in `u`: it has made `n` more pulls, all answered, and has
answered the HOST nothing. -/
structure Streaming (s : State) (n : Nat) (u : State) : Prop where
  opened : u.source.opened = true
  pulls : u.source.pulls = s.source.pulls + n
  position : ∀ k, answerAt u.source.beats u.source.tail k = answerAt s.source.beats s.source.tail (n + k)
  frame : u = { s with buf := u.buf, acc := u.acc, source := u.source }

/-- A command, which began in `s`, has ended in `t` with its one response, the one in `RSP` (R185). -/
structure Answered (s t : State) : Prop where
  idle : t.phase = .idle
  sent : t.sent = s.sent ++ [t.rsp]
  host : t.host = s.host

theorem streaming_zero {s : State} (ho : s.source.opened = true) : Streaming s 0 s where
  opened := ho
  pulls := rfl
  position k := by rw [Nat.zero_add]
  frame := rfl

theorem answered_respond {s u : State} (hsent : u.sent = s.sent) (hhost : u.host = s.host) (st : Status)
    (c : Cause) (v info : Nat) : Answered s (respond st c v info u) where
  idle := rfl
  sent := by rw [respond_sent, hsent, respond_rsp]
  host := hhost

theorem answered_raise {s u : State} (hsent : u.sent = s.sent) (hhost : u.host = s.host) (c : Cause)
    (info : Nat) : Answered s (raise c info u) :=
  answered_respond (u := close u) hsent hhost _ _ _ _

section
variable {s u v : State} {n : Nat} {w : BeatWord} {i : Nat}

theorem Streaming.cfg_eq (h : Streaming s n u) : u.cfg = s.cfg := by rw [h.frame]

theorem Streaming.phase_eq (h : Streaming s n u) : u.phase = s.phase := by rw [h.frame]

theorem Streaming.a_eq (h : Streaming s n u) : u.a = s.a := by rw [h.frame]

theorem Streaming.b_eq (h : Streaming s n u) : u.b = s.b := by rw [h.frame]

theorem Streaming.rsp_eq (h : Streaming s n u) : u.rsp = s.rsp := by rw [h.frame]

theorem Streaming.host_eq (h : Streaming s n u) : u.host = s.host := by rw [h.frame]

theorem Streaming.sent_eq (h : Streaming s n u) : u.sent = s.sent := by rw [h.frame]

/-- The next pull takes answer number `n` of the stream. -/
theorem Streaming.pull_answer (h : Streaming s n u)
    (hw : answerAt s.source.beats s.source.tail n = some w) :
    ∃ v, pull u = some (decodeBeat s.cfg.iw w, v) ∧ Streaming s (n + 1) v ∧ v.buf = u.buf := by
  have hnow : answerAt u.source.beats u.source.tail 0 = some w := (h.position 0).trans hw
  cases hq : pull u with
  | none =>
    obtain ⟨hbeats, htail⟩ := (pull_eq_none_iff u).1 hq h.opened
    rw [hbeats, htail] at hnow
    cases hnow
  | some answer =>
    obtain ⟨b, v⟩ := answer
    obtain ⟨hopen, hpulls, ⟨w', hw', hb⟩, hnext⟩ := pull_answers hq
    obtain ⟨-, -, hv⟩ := pull_frame hq
    cases hnow.symm.trans hw'
    rw [hb, h.cfg_eq]
    refine ⟨v, rfl, ⟨hopen, by rw [hpulls, h.pulls, Nat.add_assoc], fun k => ?_, ?_⟩, pull_buf hq⟩
    · rw [← hnext, h.position, Nat.add_assoc, Nat.add_comm 1]
    · rw [hv, h.frame]

/-- The item step of ADD leaves the stream where it is. -/
theorem Streaming.marked (h : Streaming s n u) (i : Nat) : Streaming s n (addMarked i u) where
  opened := by rw [addMarked_source]; exact h.opened
  pulls := by rw [addMarked_source]; exact h.pulls
  position := by rw [addMarked_source]; exact h.position
  frame := by rw [addMarked_source, addMarked_frame, h.frame]

/-- An item in range keeps ADD running. -/
theorem Streaming.add_item (h : Streaming s n u) (hp : s.phase = .add)
    (hw : answerAt s.source.beats s.source.tail n = some w) (hitem : decodeBeat s.cfg.iw w = .item i)
    (hi : i < s.cfg.nslots) : ∃ v, engineStep u = .next v ∧ Streaming s (n + 1) v := by
  obtain ⟨v, hq, hv, -⟩ := h.pull_answer hw
  have hu : u.phase = .add := h.phase_eq.trans hp
  refine ⟨_, ?_, hv.marked i⟩
  rw [engineStep_of_add hu, addStep_of_item hu (hitem ▸ hq), addItem_of_lt (by rwa [hv.cfg_eq])]

/-- An item in range that passes keeps CONTAINS running, and one that fails ends it (R149). -/
theorem Streaming.contains_item (h : Streaming s n u) (hp : s.phase = .contains)
    (hw : answerAt s.source.beats s.source.tail n = some w) (hitem : decodeBeat s.cfg.iw w = .item i)
    (hi : i < s.cfg.nslots) (hbuf : u.buf = s.buf) :
    ∃ v, Streaming s (n + 1) v ∧ v.buf = s.buf ∧
      ((passes s i = true ∧ engineStep u = .next v) ∨
        (passes s i = false ∧ engineStep u = .next (respond .ok .none 0 0 (close v)))) := by
  obtain ⟨v, hq, hv, hsame⟩ := h.pull_answer hw
  have hu : u.phase = .contains := h.phase_eq.trans hp
  have hstep : engineStep u = containsItem i v := by
    rw [engineStep_of_contains hu, containsStep_of_item hu (hitem ▸ hq)]
  have hlt : i < v.cfg.nslots := by rwa [hv.cfg_eq]
  have hpasses : passes v i = passes s i := by
    rw [passes, passes, slotVal_congr hv.cfg_eq (hsame.trans hbuf), hv.cfg_eq, hv.a_eq, hv.b_eq]
  refine ⟨v, hv, hsame.trans hbuf, ?_⟩
  cases hk : passes s i with
  | true => exact .inl ⟨rfl, hstep.trans (containsItem_of_passes hlt (hpasses.trans hk))⟩
  | false => exact .inr ⟨rfl, hstep.trans (containsItem_of_fails hlt (hpasses.trans hk))⟩

/-- An engine step whose pull is answered brings the command one further in its stream, or ends it (R185). -/
theorem Streaming.step (h : Streaming s n u) (hp : s.phase = .add ∨ s.phase = .contains)
    (hw : answerAt s.source.beats s.source.tail n = some w) :
    ∃ v, engineStep u = .next v ∧ (Streaming s (n + 1) v ∨ Answered s v) := by
  obtain ⟨v, hq, hv, -⟩ := h.pull_answer hw
  rw [← h.phase_eq] at hp
  have ended (src : Source) (st : Status) (c : Cause) (x info : Nat) :
      Answered s (respond st c x info { v with source := src }) :=
    answered_respond (u := { v with source := src }) hv.sent_eq hv.host_eq st c x info
  cases hb : decodeBeat s.cfg.iw w with
  | bad =>
    exact ⟨_, engineStep_of_faulty_beat hp hq (.inl ⟨hb, rfl, rfl⟩), .inr (ended _ _ _ _ _)⟩
  | done =>
    rw [hb] at hq
    rcases hp with hp | hp
    · exact ⟨_, (engineStep_of_add hp).trans (addStep_of_done hp hq), .inr (ended _ _ _ _ _)⟩
    · exact ⟨_, (engineStep_of_contains hp).trans (containsStep_of_done hp hq), .inr (ended _ _ _ _ _)⟩
  | item i =>
    by_cases hi : i < v.cfg.nslots
    · rw [hb] at hq
      rcases hp with hp | hp
      · rw [engineStep_of_add hp, addStep_of_item hp hq]
        exact ⟨_, addItem_of_lt hi, .inl (hv.marked i)⟩
      · rw [engineStep_of_contains hp, containsStep_of_item hp hq]
        cases hk : passes v i with
        | true => exact ⟨_, containsItem_of_passes hi hk, .inl hv⟩
        | false => exact ⟨_, containsItem_of_fails hi hk, .inr (ended _ _ _ _ _)⟩
    · exact ⟨_, engineStep_of_faulty_beat hp hq (.inr ⟨hb, not_lt.1 hi, rfl⟩), .inr (ended _ _ _ _ _)⟩

end

/-- A row of steps, each of which leads from one stage to the next. -/
theorem stepN_stages {f : State → Host.Outcome State Fault Refusal} {P : Nat → State → Prop} {m : Nat}
    (hf : ∀ k < m, ∀ u, P k u → ∃ v, f u = .next v ∧ P (k + 1) v) {s : State} (h : P 0 s) :
    ∃ t, stepN f m s = .next t ∧ P m t := by
  induction m with
  | zero => exact ⟨s, rfl, h⟩
  | succ m ih =>
    obtain ⟨t, ht, hm⟩ := ih fun k hk => hf k (Nat.lt_succ_of_lt hk)
    obtain ⟨v, hv, hnext⟩ := hf m (Nat.lt_succ_self m) t hm
    exact ⟨v, by rw [stepN_add, ht, andThen_next, stepN_succ, hv, andThen_next, stepN_zero], hnext⟩

section
variable {s u : State} {n : Nat}

/-- ADD or CONTAINS carried on has pulled all the listed beats and one stretch of the tail, or has ended. -/
theorem continueCommand_streams (hp : s.phase = .add ∨ s.phase = .contains) (ho : s.source.opened = true) :
    ∃ t, continueCommand s = .next t ∧ (Streaming s (burst s.source) t ∨ Answered s t) := by
  rw [continueCommand_of_streaming hp]
  refine stepN_stages (P := fun k u => Streaming s k u ∨ Answered s u) (fun k hk u hu => ?_)
    (.inl (streaming_zero ho))
  obtain ⟨w, hw⟩ := Option.isSome_iff_exists.1 (answerAt_of_lt_burst hk)
  rcases hu with hu | hu
  · exact hu.step hp hw
  · exact ⟨u, engineStep_of_idle hu.idle, .inr hu⟩

/-- Where all beats of a stream that falls silent have been pulled, none is left. -/
theorem Streaming.exhausted (h : Streaming s (burst s.source) u) (ht : s.source.tail = .silent) :
    u.source.beats = [] ∧ u.source.tail = .silent := by
  have hnone : answerAt u.source.beats u.source.tail 0 = none := by
    rw [h.position, ht, answerAt_silent, burst, ht]
    simp [lap]
  rwa [answerAt_zero, Option.map_eq_none_iff, nextAnswer_eq_none_iff] at hnone

/-- While an answer is to come, the next step of the machine makes a pull. -/
theorem Streaming.burst_pos (h : Streaming s n u)
    (hsome : (answerAt s.source.beats s.source.tail n).isSome = true) : 0 < burst u.source := by
  rw [← Nat.add_zero n, ← h.position] at hsome
  by_contra hzero
  obtain ⟨hbeats, hlap⟩ := Nat.add_eq_zero_iff.1 (Nat.eq_zero_of_not_pos hzero)
  rw [List.eq_nil_of_length_eq_zero hbeats, (lap_eq_zero_iff _).1 hlap] at hsome
  cases hsome

end

/-! ### The outcome of an accepted word (R185, R187) -/

section
variable {s t : State} {i : Instr}

theorem commandStarted_frame (i : Instr) (s : State) :
    (commandStarted i s).cfg = s.cfg ∧ (commandStarted i s).rsp = s.rsp ∧
      (commandStarted i s).sent = s.sent ∧ (commandStarted i s).host = s.host := by
  cases i <;> exact ⟨rfl, rfl, rfl, rfl⟩

theorem commandStarted_source (hi : commandPhase i = .add ∨ commandPhase i = .contains) (s : State) :
    (commandStarted i s).source = { s.source with opened := true, pulls := 0, closed := false } := by
  cases i with
  | add tick => rfl
  | contains lo up => rfl
  | decay lo up => simp [commandPhase] at hi

/-- Acceptance leaves what was delivered, so the response is the one after it. -/
theorem answered_of_started (h : Answered (commandStarted i s) t) : Answered s t := by
  obtain ⟨-, -, hsent, hhost⟩ := commandStarted_frame i s
  exact ⟨h.idle, hsent ▸ h.sent, hhost ▸ h.host⟩

theorem exec_decay_answered {lo hi : Byte} (hp : s.phase = .idle)
    (h : firstDefect s.cfg (.decay lo hi) = none) :
    ∃ t, exec (.decay lo hi) s = .next t ∧ Answered s t := by
  obtain ⟨hv, hwf⟩ := (firstDefect_none_iff _ _).1 h
  obtain ⟨u, hu, hscanned, -, -⟩ := exec_decay_of_legal hp hv hwf
  exact ⟨_, hu, answered_respond (by rw [hscanned.frame]; rfl) (by rw [hscanned.frame]; rfl) _ _ _ _⟩

/-- Every outcome of an instruction: one response, or its stream is still open and a stretch of it pulled. -/
theorem exec_outcome (hp : s.phase = .idle) (i : Instr) :
    ∃ t, exec i s = .next t ∧
      (Answered s t ∨
        ((commandPhase i = .add ∨ commandPhase i = .contains) ∧
          Streaming (commandStarted i s) (burst s.source) t)) := by
  cases hd : firstDefect s.cfg i with
  | some c => exact ⟨_, exec_of_defect hp hd, .inl (answered_raise (s := s) (u := latch _ _ s) rfl rfl _ _)⟩
  | none =>
    rcases streams_or_decay i with hi | ⟨lo, up, rfl⟩
    · have hsource := commandStarted_source hi s
      obtain ⟨t, ht, hout⟩ := continueCommand_streams (s := commandStarted i s)
        (by rwa [commandStarted_phase]) (by rw [hsource])
      rw [hsource] at hout
      refine ⟨t, ?_, hout.symm.imp answered_of_started fun h => ⟨hi, h⟩⟩
      rw [exec_eq_continueCommand hp, acceptInstr_of_no_defect hd, ht]
    · obtain ⟨t, ht, hout⟩ := exec_decay_answered hp hd
      exact ⟨t, ht, .inl hout⟩

end

/-- Settles O27: the outcomes of an instruction are those of `exec_outcome`, and an illegal word faults. -/
theorem oneResponseForEachAcceptedWord : Obligations.OneResponseForEachAcceptedWord := by
  intro s w beats tail rest hp hh
  rw [step_of_command hp hh]
  cases hd : decode w with
  | error e => exact ⟨_, runWord_of_error hd _, rfl, .inl ⟨rfl, rfl⟩⟩
  | ok i =>
    rw [runWord_of_ok hd]
    obtain ⟨t, ht, hout⟩ := exec_outcome (s := present beats tail { s with host := rest }) hp i
    rcases hout with hanswered | ⟨hi, hstreaming⟩
    · exact ⟨t, ht, hanswered.host, .inl ⟨hanswered.idle, hanswered.sent⟩⟩
    · obtain ⟨-, hrsp, hsent, hhost⟩ := commandStarted_frame i (present beats tail { s with host := rest })
      have hsource := commandStarted_source hi (present beats tail { s with host := rest })
      refine ⟨t, ht, hstreaming.host_eq.trans hhost, .inr ⟨?phase, hstreaming.sent_eq.trans hsent,
        hstreaming.rsp_eq.trans hrsp, hstreaming.opened, ?pulls, fun hsilent => ?left⟩⟩
      case phase => rwa [hstreaming.phase_eq, commandStarted_phase]
      case pulls =>
        rw [hstreaming.pulls, hsource, Nat.zero_add]
        rfl
      case left => exact Streaming.exhausted (by rwa [hsource]) (by rw [hsource]; exact hsilent)

/-! ### Instructions as rows of engine steps (R187) -/

section
variable {s t : State} {i : Instr}

theorem stepN_of_reached {f : State → Host.Outcome State Fault Refusal} {m n : Nat}
    (h : stepN f m s = .next t) (hfixed : f t = .next t) (hmn : m ≤ n) : stepN f n s = .next t := by
  rw [← Nat.add_sub_of_le hmn, stepN_add, h, andThen_next, stepN_of_fixed hfixed]

theorem exec_eq_streaming_steps (hp : s.phase = .idle)
    (hi : commandPhase i = .add ∨ commandPhase i = .contains) :
    exec i s = stepN engineStep (s.source.beats.length + lap s.source.tail) (acceptInstr i s) := by
  rw [exec_eq_continueCommand hp]
  rcases acceptInstr_cases i s with ⟨c, -, he⟩ | ⟨-, he⟩ <;> rw [he]
  · rw [continueCommand_of_idle rfl, stepN_of_fixed (engineStep_of_idle rfl)]
  · rw [continueCommand_of_streaming (by rwa [commandStarted_phase]), commandStarted_source hi]
    rfl

theorem exec_eq_scanning_steps (hp : s.phase = .idle) (lo hi : Byte) :
    exec (.decay lo hi) s = stepN engineStep (s.cfg.len + 1) (acceptInstr (.decay lo hi) s) := by
  rw [exec_eq_continueCommand hp]
  rcases acceptInstr_cases (.decay lo hi) s with ⟨c, -, he⟩ | ⟨-, he⟩ <;> rw [he]
  · rw [continueCommand_of_idle rfl, stepN_of_fixed (engineStep_of_idle rfl)]
  · exact continueCommand_of_decay rfl

/-- On a stream that falls silent, an instruction comes to a state that no engine step changes. -/
theorem exec_comes_to_rest (hp : s.phase = .idle) (ht : s.source.tail = .silent) (i : Instr) :
    ∃ t, exec i s = .next t ∧ engineStep t = .next t := by
  obtain ⟨t, he, hanswered | ⟨hi, hstreaming⟩⟩ := exec_outcome hp i
  · exact ⟨t, he, engineStep_of_idle hanswered.idle⟩
  · have hsource := commandStarted_source hi s
    have hleft := Streaming.exhausted (s := commandStarted i s) (by rwa [hsource]) (by rw [hsource]; exact ht)
    have hphase : t.phase ≠ .decay := by
      rw [hstreaming.phase_eq, commandStarted_phase]
      rcases hi with h | h <;> simp [h]
    exact ⟨t, he, engineStep_of_pull_none hphase (pull_of_nil hleft.1 hleft.2)⟩

end

/-- Settles O29: the steps of the one command that runs are engine steps (`stepN_eq_engineStep`), and at rest
any number of further steps changes nothing. -/
theorem instructionIsItsEngineSteps : Obligations.InstructionIsItsEngineSteps := by
  refine ⟨fun s hp => ⟨fun tick => exec_eq_streaming_steps hp (.inl rfl),
    fun lo hi => exec_eq_streaming_steps hp (.inr rfl), exec_eq_scanning_steps hp,
    fun i n ht hbeats hlen => ?further⟩, fun s hr => ⟨fun hp => ?streams, fun hp => ?scans⟩⟩
  case further =>
    obtain ⟨t, he, hrest⟩ := exec_comes_to_rest hp ht i
    rw [he]
    rcases streams_or_decay i with hi | ⟨lo, up, rfl⟩
    · have hlap : lap s.source.tail = 0 := (lap_eq_zero_iff _).2 ht
      exact (stepN_of_reached ((exec_eq_streaming_steps hp hi).symm.trans he) hrest (by omega)).symm
    · exact (stepN_of_reached ((exec_eq_scanning_steps hp lo up).symm.trans he) hrest hlen).symm
  case streams =>
    have hbusy : s.phase ≠ .idle := by rcases hp with h | h <;> simp [h]
    rw [step_of_no_word (.inl hbusy) hr, continueCommand_of_streaming hp, burst]
  case scans => rw [step_of_no_word (.inl (by simp [hp])) hr, continueCommand_of_decay hp]

/-! ### A pull that is not answered (R184, R187) -/

/-- Where ADD or CONTAINS has used up a stream that fell silent, it waits. -/
theorem step_of_exhausted {s : State} (hh : s.host = []) (hp : s.phase = .add ∨ s.phase = .contains)
    (hb : s.source.beats = []) (ht : s.source.tail = .silent) : step s = .next s := by
  rw [step_of_host_nil hh, continueCommand_of_streaming hp, burst, hb, ht]
  rfl

/-- Settles O33: all items have been marked, or have passed, when the stream is used up. -/
theorem unansweredPullWaits : Obligations.UnansweredPullWaits := by
  intro s is hp hv hin hb ht hh
  have hburst : burst s.source = is.length := by simp [burst, hb, ht, items, lap]
  refine ⟨fun tick hwf => ?adds, fun lo hi hwf hpass => ?tests⟩
  case adds =>
    obtain ⟨h0, hring⟩ := (add_wf_iff s.cfg tick).1 hwf
    obtain ⟨t, hrun, hm, hsource⟩ := addSteps_items (s := addStarted tick s) (more := []) rfl h0 hring hin
      (marked_nil _) rfl (by rw [List.append_nil]; exact hb)
    have hphase : t.phase = .add := hm.phase_eq
    refine ⟨t, ?_, hphase, by rw [hm.frame]; rfl, ?_⟩
    · rw [exec_add_of_idle hp, acceptAdd_of_legal hv h0 hring, addFinish]
      exact (congrArg (stepN addStep · _) hburst).trans hrun
    · exact step_of_exhausted (by rw [hm.frame]; exact hh) (.inl hphase) (by rw [hsource])
        (by rw [hsource]; exact ht)
  case tests =>
    obtain ⟨hlo, hhi⟩ := (contains_wf_iff s.cfg lo hi).1 hwf
    have hrun := containsSteps_items hwf hin hpass 0 []
    rw [List.append_nil, ← hb] at hrun
    refine ⟨containsAt lo hi (0 + is.length) [] s, ?_, rfl, rfl, step_of_exhausted hh (.inr rfl) rfl ht⟩
    rw [exec_contains_of_idle hp, acceptContains_of_legal hv hlo hhi, containsFinish]
    exact (congrArg (stepN containsStep · _) hburst).trans hrun

/-! ### Endless streams (R187) -/

section
variable {s u t : State} {n : Nat}

theorem answers_of_endless (hend : EndlessItems s.cfg s.source.beats s.source.tail) (n : Nat) :
    (answerAt s.source.beats s.source.tail n).isSome = true := by
  obtain ⟨w, i, hw, -, -⟩ := hend n
  rw [hw]
  rfl

theorem endless_commandStarted {i : Instr} (hi : commandPhase i = .add ∨ commandPhase i = .contains)
    (hend : EndlessItems s.cfg s.source.beats s.source.tail) :
    EndlessItems (commandStarted i s).cfg (commandStarted i s).source.beats
      (commandStarted i s).source.tail := by
  rw [(commandStarted_frame i s).1, commandStarted_source hi]
  exact hend

/-- ADD carried on along an endless stream of items goes further and does not end. -/
theorem continueCommand_add_endless (hp : s.phase = .add)
    (hend : EndlessItems s.cfg s.source.beats s.source.tail) (h : Streaming s n u) :
    ∃ v m, continueCommand u = .next v ∧ n < m ∧ Streaming s m v := by
  rw [continueCommand_of_streaming (.inl (h.phase_eq.trans hp))]
  obtain ⟨v, hv, hfurther⟩ := stepN_stages (P := fun k => Streaming s (n + k)) (m := burst u.source)
    (fun k _ x hx => by
      obtain ⟨w, i, hw, hitem, hi⟩ := hend (n + k)
      exact hx.add_item hp hw hitem hi) h
  have := h.burst_pos (answers_of_endless hend n)
  exact ⟨v, _, hv, by omega, hfurther⟩

end

/-- Settles O34: each step of the machine makes at least one pull, and no item in range ends ADD. -/
theorem addOnAnEndlessStreamNeverEnds : Obligations.AddOnAnEndlessStreamNeverEnds := by
  intro s tick hp hv hwf hend hh
  have hstart := endless_commandStarted (i := .add tick) (.inl rfl) hend
  obtain ⟨t, m, ht, hm, hstreaming⟩ :=
    continueCommand_add_endless (s := commandStarted (.add tick) s) rfl hstart (streaming_zero rfl)
  refine ⟨t, ?_, fun n => ?_⟩
  · rw [exec_eq_continueCommand hp, acceptInstr_of_no_defect ((firstDefect_none_iff _ _).2 ⟨hv, hwf⟩), ht]
  · obtain ⟨u, hu, k, hk, hfar⟩ := stepN_stages
      (P := fun n u => ∃ k, n < k ∧ Streaming (commandStarted (.add tick) s) k u) (m := n)
      (fun n _ x ⟨k, hk, hx⟩ => by
        obtain ⟨v, l, hv, hl, hfurther⟩ := continueCommand_add_endless rfl hstart hx
        exact ⟨v, (step_of_host_nil (hx.host_eq.trans hh)).trans hv, l, by omega, hfurther⟩)
      ⟨m, hm, hstreaming⟩
    refine ⟨u, hu, hfar.phase_eq, hfar.sent_eq, hfar.rsp_eq, hfar.opened, ?_⟩
    rw [hfar.pulls]
    exact hk.trans_le (Nat.le_add_left _ _)

/-- CONTAINS, which began in `s`, has met an item that fails, and has ended in `u` (R149). -/
structure ContainsFailed (s u : State) : Prop where
  item : ∃ k w i, answerAt s.source.beats s.source.tail k = some w ∧ decodeBeat s.cfg.iw w = .item i ∧
    passes s i = false
  buf : u.buf = s.buf
  idle : u.phase = .idle
  rsp : u.rsp = okResponse 0
  sent : u.sent = s.sent ++ [okResponse 0]
  closed : u.source.closed = true
  host : u.host = s.host

/-- CONTAINS, which began in `s`, still runs in `u` after `n` pulls, all of items that pass (R145). -/
structure ContainsPassed (s : State) (n : Nat) (u : State) : Prop where
  streaming : Streaming s n u
  buf : u.buf = s.buf
  passed : ∀ k < n, ∀ w i, answerAt s.source.beats s.source.tail k = some w →
    decodeBeat s.cfg.iw w = .item i → passes s i = true

section
variable {s u t : State} {n : Nat}

theorem containsPassed_zero (ho : s.source.opened = true) : ContainsPassed s 0 s :=
  ⟨streaming_zero ho, rfl, nofun⟩

/-- One engine step of CONTAINS on an endless stream of items. -/
theorem ContainsPassed.step (h : ContainsPassed s n u) (hp : s.phase = .contains)
    (hend : EndlessItems s.cfg s.source.beats s.source.tail) :
    ∃ v, engineStep u = .next v ∧ (ContainsPassed s (n + 1) v ∨ ContainsFailed s v) := by
  obtain ⟨w, i, hw, hitem, hi⟩ := hend n
  obtain ⟨v, hv, hbuf, ⟨hk, hstep⟩ | ⟨hk, hstep⟩⟩ := h.streaming.contains_item hp hw hitem hi h.buf
  · refine ⟨v, hstep, .inl ⟨hv, hbuf, fun k hlt w' i' hw' hitem' => ?_⟩⟩
    rcases Nat.lt_succ_iff_lt_or_eq.1 hlt with hbefore | rfl
    · exact h.passed k hbefore w' i' hw' hitem'
    · cases hw.symm.trans hw'
      cases hitem.symm.trans hitem'
      exact hk
  · exact ⟨_, hstep, .inr
      { item := ⟨n, w, i, hw, hitem, hk⟩
        buf := hbuf
        idle := rfl
        rsp := rfl
        sent := by rw [respond_sent, close_sent, hv.sent_eq]; rfl
        closed := by rw [respond_source, close_source, hv.opened, Bool.true_or]
        host := hv.host_eq }⟩

/-- CONTAINS carried on along an endless stream of items goes further or ends at one that fails. -/
theorem continueCommand_contains_endless (hp : s.phase = .contains)
    (hend : EndlessItems s.cfg s.source.beats s.source.tail) (h : ContainsPassed s n u) :
    ∃ v, continueCommand u = .next v ∧ ((∃ m, n < m ∧ ContainsPassed s m v) ∨ ContainsFailed s v) := by
  rw [continueCommand_of_streaming (.inr (h.streaming.phase_eq.trans hp))]
  obtain ⟨v, hv, hout⟩ := stepN_stages (P := fun k x => ContainsPassed s (n + k) x ∨ ContainsFailed s x)
    (m := burst u.source) (fun k _ x hx => by
      rcases hx with hx | hx
      · exact hx.step hp hend
      · exact ⟨x, engineStep_of_idle hx.idle, .inr hx⟩) (.inl h)
  have := h.streaming.burst_pos (answers_of_endless hend n)
  exact ⟨v, hv, hout.imp_left fun hfar => ⟨_, by omega, hfar⟩⟩

/-- Any number of steps of the machine, each with at least one pull while CONTAINS runs. -/
theorem stepN_contains_endless (hp : s.phase = .contains)
    (hend : EndlessItems s.cfg s.source.beats s.source.tail) (hh : s.host = [])
    (h : (∃ m, 0 < m ∧ ContainsPassed s m t) ∨ ContainsFailed s t) (n : Nat) :
    ∃ u, stepN step n t = .next u ∧ ((∃ m, n < m ∧ ContainsPassed s m u) ∨ ContainsFailed s u) := by
  refine stepN_stages (P := fun n u => (∃ m, n < m ∧ ContainsPassed s m u) ∨ ContainsFailed s u)
    (fun n _ x hx => ?_) h
  rcases hx with ⟨m, hm, hx⟩ | hx
  · obtain ⟨v, hv, hout⟩ := continueCommand_contains_endless hp hend hx
    refine ⟨v, (step_of_host_nil (hx.streaming.host_eq.trans hh)).trans hv, hout.imp_left ?_⟩
    exact fun ⟨l, hl, hfar⟩ => ⟨l, by omega, hfar⟩
  · exact ⟨x, (step_of_host_nil (hx.host.trans hh)).trans (continueCommand_of_idle hx.idle), .inr hx⟩

end

/-- Settles O35: CONTAINS ends at an item that fails, and once it has pulled past such an item it has ended. -/
theorem containsOnAnEndlessStream : Obligations.ContainsOnAnEndlessStream := by
  intro s lo hi hp hv hwf hend hh
  obtain ⟨hlo, hhi⟩ := (contains_wf_iff s.cfg lo hi).1 hwf
  have hstart := endless_commandStarted (i := .contains lo hi) (.inr rfl) hend
  have hpasses : ∀ i, passes (commandStarted (.contains lo hi) s) i = keep (slotVal s i) lo hi :=
    passes_of_inRing (s := commandStarted (.contains lo hi) s) hlo hhi
  obtain ⟨t, ht, hout⟩ :=
    continueCommand_contains_endless (s := commandStarted (.contains lo hi) s) rfl hstart
      (containsPassed_zero rfl)
  have hruns := stepN_contains_endless rfl hstart hh hout
  refine ⟨t, ?exec, ⟨fun ⟨n, u, hu, hidle⟩ => ?fails, fun ⟨k, w, i, hw, hitem, hk⟩ => ?ends⟩,
    fun n => ?states⟩
  case exec =>
    rw [exec_eq_continueCommand hp, acceptInstr_of_no_defect ((firstDefect_none_iff _ _).2 ⟨hv, hwf⟩), ht]
  case fails =>
    obtain ⟨v, hv', ⟨m, -, hpassed⟩ | hfailed⟩ := hruns n <;> cases hv'.symm.trans hu
    · cases hpassed.streaming.phase_eq.symm.trans hidle
    · obtain ⟨k, w, i, hw, hitem, hk⟩ := hfailed.item
      exact ⟨k, w, i, hw, hitem, (hpasses i).symm.trans hk⟩
  case ends =>
    obtain ⟨u, hu, ⟨m, hm, hpassed⟩ | hfailed⟩ := hruns k
    · have hpass := hpassed.passed k hm w i hw hitem
      rw [hpasses, hk] at hpass
      cases hpass
    · exact ⟨k, u, hu, hfailed.idle⟩
  case states =>
    obtain ⟨u, hu, ⟨m, hm, hpassed⟩ | hfailed⟩ := hruns n
    · have hstreaming := hpassed.streaming
      refine ⟨u, hu, hpassed.buf, .inr ⟨hstreaming.phase_eq, hstreaming.rsp_eq, hstreaming.sent_eq, ?_⟩⟩
      rw [hstreaming.pulls]
      exact hm.trans_le (Nat.le_add_left _ _)
    · exact ⟨u, hu, hfailed.buf, .inl ⟨hfailed.idle, hfailed.rsp, hfailed.sent, hfailed.closed⟩⟩

end Sys2Proof.Machine
end

section
/-! PROOFS. The two encodings (`44_sequencer.md` R190).

An ENC8 and an ENC4 engine with equal slots (`SameStore`) make the same pull, read equal slots and see equal
operands, so each engine step of ADD and CONTAINS leads to such a pair again (`engineStep_sameStore`). The
scanners visit different bytes, so DECAY is compared as a whole, by the slots it leaves (`exec_decay_sameStore`).
A step of the machine is a reset, a word accepted by both, or such a command carried on (`step_sameStore`). -/

namespace Sys2Proof.Machine

/-! ### Updates that a pair of engines shares -/

theorem fifteen_le_tmax (c : Config) : 15 ≤ c.tmax := by
  cases he : c.enc with
  | enc8 => rw [Config.tmax_enc8 he]; decide
  | enc4 => rw [Config.tmax_enc4 he]

theorem tickInRing_of_narrow (c : Config) {x : Byte} (h : x.toNat ≤ 15) : tickInRing c x = true :=
  (tickInRing_iff c x).2 (h.trans (fifteen_le_tmax c))

section
variable {e8 e4 : State}

theorem SameStore.nslots_eq (h : SameStore e8 e4) : e4.cfg.nslots = e8.cfg.nslots := by
  rw [Config.nslots_enc8 h.enc8, Config.nslots_enc4 h.enc4, h.len]

theorem sameStore_outside (h : SameStore e8 e4) {src src' : Source} (hsrc : src = src')
    (host : List HostEvent) :
    SameStore { e8 with source := src, host := host } { e4 with source := src', host := host } :=
  { h with source := hsrc, host := rfl }

theorem sameStore_respond (h : SameStore e8 e4) (st : Status) (c : Cause) (v info : Nat) :
    SameStore (respond st c v info e8) (respond st c v info e4) :=
  { h with
    phase := rfl
    notScanning := nofun
    inRing := fun hne => absurd rfl hne
    rsp := rfl
    sent := congrArg (· ++ [_]) h.sent }

theorem sameStore_close (h : SameStore e8 e4) : SameStore (close e8) (close e4) :=
  { h with source := by rw [close_source, close_source, h.source] }

theorem sameStore_endStream (h : SameStore e8 e4) : SameStore (endStream e8) (endStream e4) :=
  { h with source := by rw [endStream_source, endStream_source, h.source] }

theorem sameStore_raise (h : SameStore e8 e4) (c : Cause) (info : Nat) :
    SameStore (raise c info e8) (raise c info e4) :=
  sameStore_respond (sameStore_close h) _ _ _ _

theorem sameStore_latch (h : SameStore e8 e4) (hp : e8.phase = .idle) (x y : Byte) :
    SameStore (latch x y e8) (latch x y e4) :=
  { h with a := rfl, b := rfl, acc := rfl, inRing := fun hne => absurd hp hne }

theorem sameStore_openStream (h : SameStore e8 e4) {p : Phase} (hp : p ≠ .decay)
    (hring : e8.a.toNat ≤ 15 ∧ e8.b.toNat ≤ 15) : SameStore (openStream p e8) (openStream p e4) :=
  { h with
    phase := rfl
    notScanning := hp
    inRing := fun _ => hring
    source := by rw [openStream_source, openStream_source, h.source] }

theorem sameStore_hostReset (h : SameStore e8 e4) : SameStore (hostReset e8) (hostReset e4) :=
  { h with
    slots := fun i _ => (slotVal_of_buf_nil rfl i).trans (slotVal_of_buf_nil rfl i).symm
    phase := rfl
    notScanning := nofun
    a := rfl
    b := rfl
    inRing := fun hne => absurd rfl hne
    acc := rfl
    rsp := rfl
    source := by rw [hostReset_source, hostReset_source, h.source] }

/-! ### Engine steps of ADD and CONTAINS -/

/-- Equal streams and equal index widths give the same answer. -/
theorem pull_sameStore (h : SameStore e8 e4) {b : Beat} {u8 : State} (hq : pull e8 = some (b, u8)) :
    ∃ u4, pull e4 = some (b, u4) ∧ SameStore u8 u4 := by
  obtain ⟨ho, w, rest, tail, hnext, rfl, rfl⟩ := pull_some hq
  rw [h.source] at ho hnext
  refine ⟨_, by rw [h.iw]; exact pull_of_next ho hnext, ?_⟩
  exact { h with source := by rw [h.source] }

/-- An operand in `[0, 15]` is in the ring of either encoding, so both slots take the tick as it is. -/
theorem sameStore_addMarked (h : SameStore e8 e4) (hp : e8.phase = .add) {i : Nat} (hi : i < e8.cfg.nslots) :
    SameStore (addMarked i e8) (addMarked i e4) := by
  obtain ⟨ha, -⟩ := h.inRing (by simp [hp])
  have hslots : ∀ j < e8.cfg.nslots, slotVal (addMarked i e8) j = slotVal (addMarked i e4) j := by
    intro j hj
    by_cases hji : j = i
    · rw [hji, slotVal_addMarked_same (ha.trans (fifteen_le_tmax _)),
        slotVal_addMarked_same (by rw [← h.a]; exact ha.trans (fifteen_le_tmax _)), h.a]
    · rw [slotVal_addMarked_other hji, slotVal_addMarked_other hji, h.slots j hj]
  have hacc : (addMarked i e8).acc = (addMarked i e4).acc := by
    rw [addMarked_acc, addMarked_acc, h.acc, h.slots i hi]
  rw [addMarked_frame i e8, addMarked_frame i e4]
  exact
    { h with
      slots := fun j hj => by simpa only [slotVal, addMarked_cfg] using hslots j hj
      acc := hacc }

theorem SameStore.passes_eq (h : SameStore e8 e4) (hp : e8.phase ≠ .idle) {i : Nat} (hi : i < e8.cfg.nslots) :
    passes e4 i = passes e8 i := by
  obtain ⟨ha, hb⟩ := h.inRing hp
  have h8 := fifteen_le_tmax e8.cfg
  have h4 := fifteen_le_tmax e4.cfg
  rw [passes_of_inRing (ha.trans h8) (hb.trans h8), passes_of_inRing (by rw [← h.a]; exact ha.trans h4)
    (by rw [← h.b]; exact hb.trans h4), h.slots i hi, h.a, h.b]

theorem addItem_sameStore (h : SameStore e8 e4) (hp : e8.phase = .add) (i : Nat) :
    ∃ u8 u4, addItem i e8 = .next u8 ∧ addItem i e4 = .next u4 ∧ SameStore u8 u4 := by
  by_cases hi : i < e8.cfg.nslots
  · exact ⟨_, _, addItem_of_lt hi, addItem_of_lt (by rwa [h.nslots_eq]), sameStore_addMarked h hp hi⟩
  · exact ⟨_, _, addItem_of_not_lt hi, addItem_of_not_lt (by rwa [h.nslots_eq]), sameStore_raise h _ _⟩

theorem containsItem_sameStore (h : SameStore e8 e4) (hp : e8.phase ≠ .idle) (i : Nat) :
    ∃ u8 u4, containsItem i e8 = .next u8 ∧ containsItem i e4 = .next u4 ∧ SameStore u8 u4 := by
  by_cases hi : i < e8.cfg.nslots
  · have hi4 : i < e4.cfg.nslots := by rwa [h.nslots_eq]
    have hpasses := h.passes_eq hp hi
    cases hk : passes e8 i
    · exact ⟨_, _, containsItem_of_fails hi hk, containsItem_of_fails hi4 (hpasses.trans hk),
        sameStore_respond (sameStore_close h) _ _ _ _⟩
    · exact ⟨_, _, containsItem_of_passes hi hk, containsItem_of_passes hi4 (hpasses.trans hk), h⟩
  · exact ⟨_, _, containsItem_of_not_lt hi, containsItem_of_not_lt (by rwa [h.nslots_eq]),
      sameStore_raise h _ _⟩

theorem addStep_sameStore (h : SameStore e8 e4) (hp : e8.phase = .add) :
    ∃ u8 u4, addStep e8 = .next u8 ∧ addStep e4 = .next u4 ∧ SameStore u8 u4 := by
  have hp4 : e4.phase = .add := h.phase ▸ hp
  cases hq : pull e8 with
  | none =>
    exact ⟨_, _, addStep_of_pull_none hq, addStep_of_pull_none (pull_none_congr h.source.symm hq), h⟩
  | some answer =>
    obtain ⟨b, p8⟩ := answer
    obtain ⟨p4, hq4, hpulled⟩ := pull_sameStore h hq
    cases b with
    | bad => exact ⟨_, _, addStep_of_bad hp hq, addStep_of_bad hp4 hq4, sameStore_raise hpulled _ _⟩
    | done =>
      refine ⟨_, _, addStep_of_done hp hq, addStep_of_done hp4 hq4, ?_⟩
      rw [hpulled.acc]
      exact sameStore_respond (sameStore_endStream hpulled) _ _ _ _
    | item i =>
      rw [addStep_of_item hp hq, addStep_of_item hp4 hq4]
      exact addItem_sameStore hpulled ((pull_phase hq).trans hp) i

theorem containsStep_sameStore (h : SameStore e8 e4) (hp : e8.phase = .contains) :
    ∃ u8 u4, containsStep e8 = .next u8 ∧ containsStep e4 = .next u4 ∧ SameStore u8 u4 := by
  have hp4 : e4.phase = .contains := h.phase ▸ hp
  cases hq : pull e8 with
  | none =>
    exact ⟨_, _, containsStep_of_pull_none hq,
      containsStep_of_pull_none (pull_none_congr h.source.symm hq), h⟩
  | some answer =>
    obtain ⟨b, p8⟩ := answer
    obtain ⟨p4, hq4, hpulled⟩ := pull_sameStore h hq
    cases b with
    | bad => exact ⟨_, _, containsStep_of_bad hp hq, containsStep_of_bad hp4 hq4, sameStore_raise hpulled _ _⟩
    | done =>
      exact ⟨_, _, containsStep_of_done hp hq, containsStep_of_done hp4 hq4,
        sameStore_respond (sameStore_endStream hpulled) _ _ _ _⟩
    | item i =>
      rw [containsStep_of_item hp hq, containsStep_of_item hp4 hq4]
      exact containsItem_sameStore hpulled (by simp [pull_phase hq, hp]) i

theorem engineStep_sameStore (h : SameStore e8 e4) :
    ∃ u8 u4, engineStep e8 = .next u8 ∧ engineStep e4 = .next u4 ∧ SameStore u8 u4 := by
  cases hp : e8.phase with
  | idle => exact ⟨_, _, engineStep_of_idle hp, engineStep_of_idle (h.phase ▸ hp), h⟩
  | add =>
    rw [engineStep_of_add hp, engineStep_of_add (h.phase ▸ hp)]
    exact addStep_sameStore h hp
  | contains =>
    rw [engineStep_of_contains hp, engineStep_of_contains (h.phase ▸ hp)]
    exact containsStep_sameStore h hp
  | decay => exact absurd hp h.notScanning

/-! ### Whole commands -/

theorem continueCommand_sameStore (h : SameStore e8 e4) :
    ∃ u8 u4, continueCommand e8 = .next u8 ∧ continueCommand e4 = .next u4 ∧ SameStore u8 u4 := by
  have streams (hp : e8.phase = .add ∨ e8.phase = .contains) :
      ∃ u8 u4, continueCommand e8 = .next u8 ∧ continueCommand e4 = .next u4 ∧ SameStore u8 u4 := by
    rw [continueCommand_of_streaming hp, continueCommand_of_streaming (h.phase ▸ hp), h.source]
    exact stepN_related (fun _ _ => engineStep_sameStore) h _
  cases hp : e8.phase with
  | idle => exact ⟨_, _, continueCommand_of_idle hp, continueCommand_of_idle (h.phase ▸ hp), h⟩
  | add => exact streams (.inl hp)
  | contains => exact streams (.inr hp)
  | decay => exact absurd hp h.notScanning

/-- The two scanners leave equal slots, so they count the same. -/
theorem exec_decay_sameStore (h : SameStore e8 e4) (hp : e8.phase = .idle) {lo hi : Byte}
    (h8 : firstDefect e8.cfg (.decay lo hi) = none) (h4 : firstDefect e4.cfg (.decay lo hi) = none) :
    ∃ u8 u4, exec (.decay lo hi) e8 = .next u8 ∧ exec (.decay lo hi) e4 = .next u4 ∧ SameStore u8 u4 := by
  have hp4 : e4.phase = .idle := h.phase ▸ hp
  obtain ⟨hv8, hwf8⟩ := (firstDefect_none_iff _ _).1 h8
  obtain ⟨hv4, hwf4⟩ := (firstDefect_none_iff _ _).1 h4
  obtain ⟨u8, hu8, hslots8, -, hframe8⟩ := decayPostState e8 lo hi hp hv8 hwf8
  obtain ⟨u4, hu4, hslots4, -, hframe4⟩ := decayPostState e4 lo hi hp4 hv4 hwf4
  have hcfg8 : u8.cfg = e8.cfg := by rw [hframe8]
  have hcfg4 : u4.cfg = e4.cfg := by rw [hframe4]
  have hslots : ∀ i < e8.cfg.nslots, slotVal u8 i = slotVal u4 i := fun i hi' => by
    rw [hslots8 i hi', hslots4 i (by rwa [h.nslots_eq]), h.slots i hi']
  have hlive : liveCount u8 = liveCount u4 := by
    rw [liveCount, liveCount, hcfg8, hcfg4, h.nslots_eq]
    exact List.countP_congr fun i hi' => by rw [hslots i (List.mem_range.1 hi')]
  refine ⟨u8, u4, hu8, hu4, ?_⟩
  rw [hframe8, hframe4]
  exact
    { h with
      slots := fun i hi' => by simpa only [slotVal, hcfg8, hcfg4] using hslots i hi'
      a := rfl
      b := rfl
      inRing := fun hne => absurd hp hne
      acc := hlive
      rsp := congrArg okResponse hlive
      sent := by rw [h.sent, hlive] }

/-- Operands in `[0, 15]` meet the pre-checks of both encodings alike. -/
theorem firstDefect_of_narrow {c c' : Config} (hv : c'.bufValid = c.bufValid) {i : Instr}
    (ha : (operandA i).toNat ≤ 15) (hb : (operandB i).toNat ≤ 15) : firstDefect c' i = firstDefect c i := by
  have window {lo up : Byte} (hlo : lo.toNat ≤ 15) (hup : up.toNat ≤ 15) :
      windowDefect c' lo up = windowDefect c lo up := by
    simp only [windowDefect, hv, tickInRing_of_narrow _ hlo, tickInRing_of_narrow _ hup]
  cases i with
  | add tick =>
    have htick (d : Config) : tickInRing d tick = true := tickInRing_of_narrow d ha
    simp only [← tickDefect_eq_firstDefect, tickDefect, hv, htick]
  | contains lo up => simpa only [windowDefect_eq_contains] using window (lo := lo) (up := up) ha hb
  | decay lo up => simpa only [windowDefect_eq_decay] using window (lo := lo) (up := up) ha hb

theorem sameStore_commandStarted (h : SameStore e8 e4) (hp : e8.phase = .idle) {i : Instr}
    (hi : commandPhase i = .add ∨ commandPhase i = .contains) (ha : (operandA i).toNat ≤ 15)
    (hb : (operandB i).toNat ≤ 15) :
    SameStore (commandStarted i e8) (commandStarted i e4) := by
  cases i with
  | add tick => exact sameStore_openStream (sameStore_latch h hp _ _) nofun ⟨ha, hb⟩
  | contains lo up => exact sameStore_openStream (sameStore_latch h hp _ _) nofun ⟨ha, hb⟩
  | decay lo up => simp [commandPhase] at hi

theorem exec_sameStore (h : SameStore e8 e4) (hp : e8.phase = .idle) {i : Instr}
    (ha : (operandA i).toNat ≤ 15) (hb : (operandB i).toNat ≤ 15) :
    ∃ u8 u4, exec i e8 = .next u8 ∧ exec i e4 = .next u4 ∧ SameStore u8 u4 := by
  have hp4 : e4.phase = .idle := h.phase ▸ hp
  have hdefect := firstDefect_of_narrow h.bufValid ha hb
  cases hd : firstDefect e8.cfg i with
  | some c =>
    exact ⟨_, _, exec_of_defect hp hd, exec_of_defect hp4 (hdefect.symm.trans hd),
      sameStore_raise (sameStore_latch h hp _ _) _ _⟩
  | none =>
    have hd4 : firstDefect e4.cfg i = none := hdefect.symm.trans hd
    rcases streams_or_decay i with hi | ⟨lo, up, rfl⟩
    · rw [exec_eq_continueCommand hp, exec_eq_continueCommand hp4, acceptInstr_of_no_defect hd,
        acceptInstr_of_no_defect hd4]
      exact continueCommand_sameStore (sameStore_commandStarted h hp hi ha hb)
    · exact exec_decay_sameStore h hp hd hd4

theorem runWord_sameStore (h : SameStore e8 e4) (hp : e8.phase = .idle) {w : Word} {beats : List BeatWord}
    {tail : Tail} (hn : (HostEvent.command w beats tail).narrow = true) :
    ∃ u8 u4, runWord w e8 = .next u8 ∧ runWord w e4 = .next u4 ∧ SameStore u8 u4 := by
  cases hd : decode w with
  | error e =>
    exact ⟨_, _, runWord_of_error hd e8, runWord_of_error hd e4,
      sameStore_raise (sameStore_latch h hp _ _) _ _⟩
  | ok i =>
    simp only [HostEvent.narrow, hd, Bool.and_eq_true, decide_eq_true_eq] at hn
    rw [runWord_of_ok hd, runWord_of_ok hd]
    exact exec_sameStore h hp hn.1 hn.2

/-! ### Steps of the machine -/

/-- A step takes events off the HOST's list and puts none on it. -/
theorem step_host_subset {s t : State} (h : step s = .next t) : t.host ⊆ s.host := by
  rcases step_runs h with ⟨_, -, rfl⟩ | ⟨-, w, beats, tail, _, -, hr⟩ |
    ⟨-, w, beats, tail, n, _, u, -, hr, rfl⟩ | hr
  · exact List.tail_subset _
  · rw [(presented_cfg_host hr).2]; exact List.tail_subset _
  · rw [hostReset_host, (presented_cfg_host hr).2]; exact List.tail_subset _
  · rw [(runs_cfg_host hr).2]; exact List.Subset.refl _

theorem step_sameStore (h : SameStore e8 e4) (hn : ∀ e ∈ e8.host, e.narrow = true) :
    ∃ u8 u4, step e8 = .next u8 ∧ step e4 = .next u4 ∧ SameStore u8 u4 := by
  have carryOn (hbusy : e8.phase ≠ .idle ∨ e8.host = []) (hr : ∀ rest, e8.host ≠ .reset :: rest) :
      ∃ u8 u4, step e8 = .next u8 ∧ step e4 = .next u4 ∧ SameStore u8 u4 := by
    rw [step_of_no_word hbusy hr, step_of_no_word (h.phase ▸ h.host ▸ hbusy) (h.host ▸ hr)]
    exact continueCommand_sameStore h
  cases hh : e8.host with
  | nil => exact carryOn (.inr hh) (by simp [hh])
  | cons e rest =>
    have hh4 : e4.host = e :: rest := h.host ▸ hh
    have hnarrow := hn e (by simp [hh])
    cases e with
    | reset =>
      exact ⟨_, _, step_of_reset hh, step_of_reset hh4,
        sameStore_hostReset (sameStore_outside h h.source rest)⟩
    | command w beats tail =>
      by_cases hp : e8.phase = .idle
      · rw [step_of_command hp hh, step_of_command (h.phase ▸ hp) hh4]
        exact runWord_sameStore (sameStore_outside h rfl rest) hp hnarrow
      · exact carryOn (.inl hp) (by simp [hh])
    | commandCut w beats tail n => cases hnarrow

end

theorem sameStore_boot {c8 c4 : Config} (h8 : c8.enc = .enc8) (h4 : c4.enc = .enc4)
    (hlen : c8.len = 2 * c4.len) (hiw : c8.iw = c4.iw) (hv : c8.bufValid = c4.bufValid) (h : List HostEvent) :
    SameStore (boot c8 h) (boot c4 h) where
  enc8 := h8
  enc4 := h4
  len := hlen
  iw := hiw
  bufValid := hv
  slots i _ := (slotVal_of_buf_nil rfl i).trans (slotVal_of_buf_nil rfl i).symm
  phase := rfl
  notScanning := nofun
  a := rfl
  b := rfl
  inRing hne := absurd rfl hne
  acc := rfl
  rsp := rfl
  source := rfl
  host := rfl
  sent := rfl

/-- A pair of engines whose HOST keeps to operands in `[0, 15]`. -/
def NarrowPair (e8 e4 : State) : Prop := SameStore e8 e4 ∧ ∀ e ∈ e8.host, e.narrow = true

theorem step_narrowPair (e8 e4 : State) (h : NarrowPair e8 e4) :
    ∃ u8 u4, step e8 = .next u8 ∧ step e4 = .next u4 ∧ NarrowPair u8 u4 := by
  obtain ⟨hsame, hn⟩ := h
  obtain ⟨u8, u4, h8, h4, hnext⟩ := step_sameStore hsame hn
  exact ⟨u8, u4, h8, h4, hnext, fun e he => hn e (step_host_subset h8 he)⟩

/-- Settles O58: a step keeps the pair (`step_narrowPair`), and what one step keeps, any number keeps. -/
theorem theTwoEncodingsAgree : Obligations.TheTwoEncodingsAgree := by
  refine ⟨fun e8 e4 k h hn => ?_, fun c8 c4 h h8 h4 hlen hiw hv => sameStore_boot h8 h4 hlen hiw hv h⟩
  obtain ⟨u8, u4, h8, h4, hpair, -⟩ := stepN_related step_narrowPair (s := e8) (u := e4) ⟨h, hn⟩ k
  exact ⟨u8, u4, h8, h4, hpair⟩

end Sys2Proof.Machine
end

section
/-! PROOFS. The exceptions (`60_exceptions.md`).

The fault entry writes the response, the phase and the stream, and nothing else (`raise_of_opened`,
`raise_of_not_opened`). That a fault leaves no trace in the next command is shown with two engines that have
different pasts (`AlikeSince`): acceptance makes them alike (`acceptInstr_alikeSince`), every engine step keeps
them alike (`engineStep_alikeSince`), and what they share fixes how many steps a command makes
(`exec_eq_engine_steps`). -/

namespace Sys2Proof.Machine

/-! ### Codes and kinds (R200, R201) -/

/-- Settles O7, row by row of the table. -/
theorem statusAndCauseCodes : Obligations.StatusAndCauseCodes := by
  unfold Obligations.StatusAndCauseCodes
  decide

/-! ### The fault entry (R206, R210) -/

theorem raise_of_opened {s : State} (ho : s.source.opened = true) (c : Cause) (info : Nat) :
    raise c info s =
      respond c.kind c 0 info { s with source := { s.source with opened := false, closed := true } } := by
  rw [raise, close, ho, Bool.true_or]

/-- Settles O30: the fault entry on an open stream, and where none is open. -/
theorem raiseIsTheFaultEntry : Obligations.RaiseIsTheFaultEntry := by
  intro c info s
  by_cases ho : s.source.opened = true
  · rw [raise_of_opened ho, if_pos ho, respond]
  · rw [raise_of_not_opened (Bool.eq_false_of_not_eq_true ho), if_neg ho, respond]

theorem runWord_of_illegal {w : Word} (h : IllegalWord w) (s : State) :
    runWord w s = .next (illegalWord w s) := by
  cases hd : decode w with
  | ok i => exact absurd hd (decode_ne_ok_of_illegal h i)
  | error e => exact runWord_of_error hd s

/-- Settles O25: the word is accepted with its stream not yet open, so the fault entry closes nothing. -/
theorem illegalWordFaultsAtOnce : Obligations.IllegalWordFaultsAtOnce := by
  intro s w beats tail rest hp hh hill
  rw [step_of_command hp hh, runWord_of_illegal hill, illegalWord, raise_of_not_opened rfl, hp]
  rfl

/-! ### Two engines with different pasts (R185, R213) -/

/-- Two engines, which accepted the same command in `s₀` and `u₀`, are alike in all that a command reads and
have since delivered the same responses. -/
structure AlikeSince (s₀ u₀ s u : State) : Prop extends ContainsAlike s u where
  acc : u.acc = s.acc
  scan : u.scan = s.scan
  hosts : s.host = s₀.host ∧ u.host = u₀.host
  delivered : ∃ new, s.sent = s₀.sent ++ new ∧ u.sent = u₀.sent ++ new

section
variable {s₀ u₀ s u : State}

theorem alikeSince_source (h : AlikeSince s₀ u₀ s u) {src src' : Source} (hsrc : src' = src) :
    AlikeSince s₀ u₀ { s with source := src } { u with source := src' } :=
  { h with source := hsrc }

theorem alikeSince_close (h : AlikeSince s₀ u₀ s u) : AlikeSince s₀ u₀ (close s) (close u) :=
  alikeSince_source h (by rw [h.source])

theorem alikeSince_endStream (h : AlikeSince s₀ u₀ s u) : AlikeSince s₀ u₀ (endStream s) (endStream u) :=
  alikeSince_source h (by rw [h.source])

theorem alikeSince_respond (h : AlikeSince s₀ u₀ s u) (st : Status) (c : Cause) {v v' : Nat} (hv : v' = v)
    (info : Nat) : AlikeSince s₀ u₀ (respond st c v info s) (respond st c v' info u) := by
  subst hv
  obtain ⟨new, hs, hu⟩ := h.delivered
  have hsent : ∃ later, (respond st c v' info s).sent = s₀.sent ++ later ∧
      (respond st c v' info u).sent = u₀.sent ++ later :=
    ⟨_, by rw [respond_sent, hs, List.append_assoc], by rw [respond_sent, hu, List.append_assoc]⟩
  exact { h with phase := rfl, rsp := fun _ => rfl, delivered := hsent }

theorem alikeSince_raise (h : AlikeSince s₀ u₀ s u) (c : Cause) (info : Nat) :
    AlikeSince s₀ u₀ (raise c info s) (raise c info u) :=
  alikeSince_respond (alikeSince_close h) _ _ rfl _

theorem alikeSince_pulled {p : State} {b : Beat} (h : AlikeSince s₀ u₀ s u) (hq : pull s = some (b, p)) :
    AlikeSince s₀ u₀ p { u with source := p.source } := by
  obtain ⟨-, -, hp⟩ := pull_frame hq
  rw [hp]
  exact alikeSince_source h rfl

theorem alikeSince_addMarked (h : AlikeSince s₀ u₀ s u) (i : Nat) :
    AlikeSince s₀ u₀ (addMarked i s) (addMarked i u) := by
  have hbuf : (addMarked i u).buf = (addMarked i s).buf := by
    rw [addMarked_buf, addMarked_buf, h.buf, h.cfg, h.a]
  have hacc : (addMarked i u).acc = (addMarked i s).acc := by
    rw [addMarked_acc, addMarked_acc, h.acc, h.slot_eq]
  rw [addMarked_frame i s, addMarked_frame i u]
  exact { h with buf := hbuf, acc := hacc }

theorem alikeSince_decayedState (h : AlikeSince s₀ u₀ s u) (x : Nat) :
    AlikeSince s₀ u₀ (decayedState x s) (decayedState x u) := by
  have hbyte : decayedByte u x = decayedByte s x := by
    rw [decayedByte, decayedByte, h.cfg, h.a, h.b, h.buf]
  exact
    { h with
      buf := by rw [decayedState, decayedState, hbyte, h.buf]
      acc := by rw [decayedState, decayedState, hbyte, h.acc, h.cfg] }

theorem addItem_alikeSince (h : AlikeSince s₀ u₀ s u) (i : Nat) :
    ∃ s' u', addItem i s = .next s' ∧ addItem i u = .next u' ∧ AlikeSince s₀ u₀ s' u' := by
  by_cases hi : i < s.cfg.nslots
  · exact ⟨_, _, addItem_of_lt hi, addItem_of_lt (by rwa [h.cfg]), alikeSince_addMarked h i⟩
  · exact ⟨_, _, addItem_of_not_lt hi, addItem_of_not_lt (by rwa [h.cfg]), alikeSince_raise h _ _⟩

theorem containsItem_alikeSince (h : AlikeSince s₀ u₀ s u) (i : Nat) :
    ∃ s' u', containsItem i s = .next s' ∧ containsItem i u = .next u' ∧ AlikeSince s₀ u₀ s' u' := by
  by_cases hi : i < s.cfg.nslots
  · have hi' : i < u.cfg.nslots := by rwa [h.cfg]
    cases hk : passes s i
    · exact ⟨_, _, containsItem_of_fails hi hk, containsItem_of_fails hi' ((h.passes_eq i).trans hk),
        alikeSince_respond (alikeSince_close h) _ _ rfl _⟩
    · exact ⟨_, _, containsItem_of_passes hi hk, containsItem_of_passes hi' ((h.passes_eq i).trans hk), h⟩
  · exact ⟨_, _, containsItem_of_not_lt hi, containsItem_of_not_lt (by rwa [h.cfg]), alikeSince_raise h _ _⟩

/-- Alike engines get the same answer from the stream, and do the same with its beat. -/
theorem streamStep_alikeSince (h : AlikeSince s₀ u₀ s u) (hp : s.phase = .add ∨ s.phase = .contains) :
    ∃ s' u', engineStep s = .next s' ∧ engineStep u = .next u' ∧ AlikeSince s₀ u₀ s' u' := by
  have hp' : u.phase = .add ∨ u.phase = .contains := by rwa [h.phase]
  cases hq : pull s with
  | none =>
    have hs : s.phase ≠ .decay := by rcases hp with hp | hp <;> simp [hp]
    have hu : u.phase ≠ .decay := by rwa [h.phase]
    exact ⟨s, u, engineStep_of_pull_none hs hq, engineStep_of_pull_none hu (pull_none_congr h.source hq), h⟩
  | some answer =>
    obtain ⟨b, p⟩ := answer
    have hq' := pull_congr h.cfg h.source hq
    have hpulled := alikeSince_pulled h hq
    cases b with
    | bad =>
      exact ⟨_, _, engineStep_of_faulty_beat hp hq (.inl ⟨rfl, rfl, rfl⟩),
        engineStep_of_faulty_beat hp' hq' (.inl ⟨rfl, rfl, rfl⟩), alikeSince_raise hpulled _ _⟩
    | done =>
      have hended := alikeSince_endStream hpulled
      rcases hp with hp | hp
      · have hu := h.phase.trans hp
        rw [engineStep_of_add hp, engineStep_of_add hu, addStep_of_done hp hq, addStep_of_done hu hq']
        exact ⟨_, _, rfl, rfl, alikeSince_respond hended _ _ hended.acc _⟩
      · have hu := h.phase.trans hp
        rw [engineStep_of_contains hp, engineStep_of_contains hu, containsStep_of_done hp hq,
          containsStep_of_done hu hq']
        exact ⟨_, _, rfl, rfl, alikeSince_respond hended _ _ rfl _⟩
    | item i =>
      rcases hp with hp | hp
      · have hu := h.phase.trans hp
        rw [engineStep_of_add hp, engineStep_of_add hu, addStep_of_item hp hq, addStep_of_item hu hq']
        exact addItem_alikeSince hpulled i
      · have hu := h.phase.trans hp
        rw [engineStep_of_contains hp, engineStep_of_contains hu, containsStep_of_item hp hq,
          containsStep_of_item hu hq']
        exact containsItem_alikeSince hpulled i

/-- The scanners of alike engines stand at the same byte. -/
theorem decayStep_alikeSince (h : AlikeSince s₀ u₀ s u) (hp : s.phase = .decay) :
    ∃ s' u', decayStep s = .next s' ∧ decayStep u = .next u' ∧ AlikeSince s₀ u₀ s' u' := by
  have hp' : u.phase = .decay := h.phase.trans hp
  by_cases hlt : s.scan < s.cfg.len
  · have hpassed := alikeSince_decayedState h s.scan
    have hu := decayStep_of_lt hp' (by rwa [h.scan, h.cfg])
    rw [h.scan] at hu
    exact ⟨_, _, decayStep_of_lt hp hlt, hu, { hpassed with scan := congrArg (· + 1) hpassed.scan }⟩
  · exact ⟨_, _, decayStep_of_not_lt hp hlt, decayStep_of_not_lt hp' (by rwa [h.scan, h.cfg]),
      alikeSince_respond h _ _ h.acc _⟩

theorem engineStep_alikeSince (h : AlikeSince s₀ u₀ s u) :
    ∃ s' u', engineStep s = .next s' ∧ engineStep u = .next u' ∧ AlikeSince s₀ u₀ s' u' := by
  cases hp : s.phase with
  | idle => exact ⟨s, u, engineStep_of_idle hp, engineStep_of_idle (h.phase.trans hp), h⟩
  | add => exact streamStep_alikeSince h (.inl hp)
  | contains => exact streamStep_alikeSince h (.inr hp)
  | decay =>
    rw [engineStep_of_decay hp, engineStep_of_decay (h.phase.trans hp)]
    exact decayStep_alikeSince h hp

theorem commandStarted_alikeSince (i : Instr) (hcfg : u.cfg = s.cfg) (hbuf : u.buf = s.buf)
    (hsource : u.source = s.source) : AlikeSince s u (commandStarted i s) (commandStarted i u) := by
  have hstream : (commandStarted i u).source = (commandStarted i s).source := by
    cases i <;> simp only [commandStarted, openStream_source, startScan_source, latch_source, hsource]
  have hrunning : (commandStarted i s).phase = .idle → (commandStarted i u).rsp = (commandStarted i s).rsp := by
    rw [commandStarted_phase]
    cases i <;> nofun
  have hnothing : ∃ new, s.sent = s.sent ++ new ∧ u.sent = u.sent ++ new := ⟨[], by simp⟩
  cases i <;> exact ⟨⟨hcfg, hbuf, rfl, rfl, rfl, hstream, hrunning⟩, rfl, rfl, ⟨rfl, rfl⟩, hnothing⟩

/-- Acceptance overwrites the latches and the counters, and the pre-checks read the configuration alone (R180,
R182). -/
theorem acceptInstr_alikeSince (i : Instr) (hcfg : u.cfg = s.cfg) (hbuf : u.buf = s.buf)
    (hsource : u.source = s.source) : AlikeSince s u (acceptInstr i s) (acceptInstr i u) := by
  rw [acceptInstr_eq, acceptInstr_eq, hcfg]
  cases firstDefect s.cfg i with
  | none => exact commandStarted_alikeSince i hcfg hbuf hsource
  | some c =>
    have hstream : (raise c 0 (latch (operandA i) (operandB i) u)).source =
        (raise c 0 (latch (operandA i) (operandB i) s)).source := by
      simp only [raise_source, close_source, latch_source, hsource]
    exact ⟨⟨hcfg, hbuf, rfl, rfl, rfl, hstream, fun _ => rfl⟩, rfl, rfl, ⟨rfl, rfl⟩, [faultResponse c 0],
      rfl, rfl⟩

end

/-- The engine steps that an instruction makes are counted by the configuration and the stream. -/
def commandSteps (i : Instr) (c : Config) (src : Source) : Nat :=
  match i with
  | .add _ => burst src
  | .contains _ _ => burst src
  | .decay _ _ => c.len + 1

theorem exec_eq_engine_steps {s : State} (hp : s.phase = .idle) (i : Instr) :
    exec i s = stepN engineStep (commandSteps i s.cfg s.source) (acceptInstr i s) := by
  cases i with
  | add tick => exact exec_eq_streaming_steps hp (.inl rfl)
  | contains lo up => exact exec_eq_streaming_steps hp (.inr rfl)
  | decay lo up => exact exec_eq_scanning_steps hp lo up

theorem exec_alikeSince {s u : State} (i : Instr) (hs : s.phase = .idle) (hu : u.phase = .idle)
    (hcfg : u.cfg = s.cfg) (hbuf : u.buf = s.buf) (hsource : u.source = s.source) :
    ∃ s' u', exec i s = .next s' ∧ exec i u = .next u' ∧ AlikeSince s u s' u' := by
  rw [exec_eq_engine_steps hs, exec_eq_engine_steps hu, hcfg, hsource]
  exact stepN_related (fun _ _ => engineStep_alikeSince) (acceptInstr_alikeSince i hcfg hbuf hsource) _

/-- Settles O32: the two engines are alike at the end of the command, if it ends, and wherever it stands. -/
theorem nextCommandIgnoresStaleRegisters : Obligations.NextCommandIgnoresStaleRegisters := by
  intro i s u s' hs hu hcfg hbuf hsource he
  obtain ⟨t, u', ht, hu', h⟩ := exec_alikeSince i hs hu hcfg hbuf hsource
  cases ht.symm.trans he
  obtain ⟨hhost, hhost'⟩ := h.hosts
  exact ⟨u', hu', h.buf, h.phase, h.a, h.b, h.acc, h.scan, h.source, hhost', hhost, h.rsp, h.delivered⟩

end Sys2Proof.Machine
end

section
/-! PROOFS. Reset (`70_reset_and_hazards.md`).

A reset between commands is one equation of the machine's step (`step_of_reset`). A reset that cuts a command
short meets the command as its last move left it: still running, with nothing delivered, or ended, with its one
response delivered (`AnsweredOnce`). Acceptance brings that about (`answeredOnce_acceptWord`), and every move of
the engine keeps it (`answeredOnce_move`). -/

namespace Sys2Proof.Machine

/-- The reset state of `s`, written out: the store is empty, the HOST's list, the responses delivered and the
source's record stay, and the stream is no longer open (R37, R230). -/
theorem hostReset_eq (s : State) :
    hostReset s = { State.resetWith s.cfg with
      host := s.host, sent := s.sent, source := { s.source with opened := false } } := rfl

/-- Settles O19: the step is the reset event itself (`step_of_reset`), whatever phase the engine is in. -/
theorem resetEventAbandonsTheCommand : Obligations.ResetEventAbandonsTheCommand := by
  intro s rest hh
  rw [step_of_reset hh, hostReset_eq]

/-! ### What an engine step delivers (R185) -/

section
variable {s t u : State} {b : Beat} {sent : List Response}

theorem pull_sent (h : pull s = some (b, t)) : t.sent = s.sent := by
  obtain ⟨-, -, ht⟩ := pull_frame h
  rw [ht]

/-- A move of the engine delivers nothing and stays in its phase, or ends the command that runs with one
response. -/
theorem move_sent (h : EngineMove s t) :
    (t.phase = s.phase ∧ t.sent = s.sent) ∨
      (s.phase ≠ .idle ∧ t.phase = .idle ∧ ∃ r, t.sent = s.sent ++ [r]) := by
  have ended {v : State} (hrun : s.phase ≠ .idle) (hv : v.sent = s.sent) (st : Status) (c : Cause)
      (x info : Nat) : s.phase ≠ .idle ∧ (respond st c x info v).phase = .idle ∧
        ∃ r, (respond st c x info v).sent = s.sent ++ [r] :=
    ⟨hrun, rfl, _, by rw [respond_sent, hv]⟩
  have running {p : Phase} (hp : s.phase = p) (hne : p ≠ .idle) : s.phase ≠ .idle := hp ▸ hne
  have streaming (hp : s.phase = .add ∨ s.phase = .contains) : s.phase ≠ .idle :=
    hp.elim (running · nofun) (running · nofun)
  cases h with
  | wait => exact .inl ⟨rfl, rfl⟩
  | addMarks _ hq _ =>
    exact .inl ⟨(addMarked_phase _ _).trans (pull_phase hq), (addMarked_sent _ _).trans (pull_sent hq)⟩
  | containsPasses _ hq _ _ => exact .inl ⟨pull_phase hq, pull_sent hq⟩
  | decayPasses _ _ => exact .inl ⟨rfl, rfl⟩
  | badBeat hp hq => exact .inr (ended (streaming hp) ((close_sent _).trans (pull_sent hq)) _ _ _ _)
  | badIndex hp hq _ => exact .inr (ended (streaming hp) ((close_sent _).trans (pull_sent hq)) _ _ _ _)
  | addEnds hp hq => exact .inr (ended (running hp nofun) (pull_sent hq) _ _ _ _)
  | containsFails hp hq _ _ => exact .inr (ended (running hp nofun) (pull_sent hq) _ _ _ _)
  | containsEnds hp hq => exact .inr (ended (running hp nofun) (pull_sent hq) _ _ _ _)
  | decayEnds hp _ => exact .inr (ended (running hp nofun) rfl _ _ _ _)

/-! ### A command that is cut short (R230) -/

/-- Where the command accepted after the responses `sent` stands in `u`: it has ended and its one response is
delivered, or it still runs and nothing is. -/
structure AnsweredOnce (sent : List Response) (u : State) : Prop where
  ended : u.phase = .idle → ∃ r, u.sent = sent ++ [r]
  running : u.phase ≠ .idle → u.sent = sent

theorem answeredOnce_of_ended {r : Response} (hp : u.phase = .idle) (h : u.sent = sent ++ [r]) :
    AnsweredOnce sent u :=
  ⟨fun _ => ⟨r, h⟩, fun hne => absurd hp hne⟩

theorem answeredOnce_of_running (hp : u.phase ≠ .idle) (h : u.sent = sent) : AnsweredOnce sent u :=
  ⟨fun hidle => absurd hidle hp, fun _ => h⟩

/-- Acceptance answers the word at once, or starts its command (R180, R182, R206). -/
theorem answeredOnce_acceptWord (w : Word) (s : State) : AnsweredOnce s.sent (acceptWord w s) := by
  rcases acceptWord_cases w s with ⟨c, x, y, he⟩ | ⟨tick, -, -, -, -, he⟩ | ⟨lo, hi, -, -, -, he⟩ |
    ⟨lo, hi, -, -, -, he⟩ <;> rw [he]
  · exact answeredOnce_of_ended rfl rfl
  · exact answeredOnce_of_running nofun rfl
  · exact answeredOnce_of_running nofun rfl
  · exact answeredOnce_of_running nofun rfl

/-- An ended command makes no move, and a running one stays in its phase or ends with its response. -/
theorem answeredOnce_move (hs : AnsweredOnce sent s) (h : EngineMove s t) : AnsweredOnce sent t := by
  rcases move_sent h with ⟨hp, hsent⟩ | ⟨hrun, hp, r, hsent⟩
  · exact ⟨fun hidle => hsent ▸ hs.ended (hp ▸ hidle), fun hne => hsent.trans (hs.running (hp ▸ hne))⟩
  · exact answeredOnce_of_ended hp (by rw [hsent, hs.running hrun])

theorem step_of_commandCut {w : Word} {beats : List BeatWord} {tail : Tail} {n : Nat}
    {rest : List HostEvent} (hp : s.phase = .idle) (hh : s.host = .commandCut w beats tail n :: rest) :
    step s = cutCommand w n (present beats tail { s with host := rest }) := by
  simp only [step, machineStep, hh, hp, if_true, dropEvent, List.tail_cons]

end

/-- Settles O20: the engine steps are a run of moves, which keeps the configuration and the HOST's list
(`runs_cfg_host`) and delivers at most the one response (`answeredOnce_move`); then the reset event. -/
theorem resetDuringACommand : Obligations.ResetDuringACommand := by
  intro s w beats tail n rest hp hh
  obtain ⟨u, hu⟩ := stepN_total engineStep_total n (acceptWord w (present beats tail { s with host := rest }))
  have hrun := runs_of_stepN (fun _ _ => engineStep_move) hu
  obtain ⟨hcfg₀, -, hhost₀⟩ := acceptWord_frame w (present beats tail { s with host := rest })
  obtain ⟨hcfg, hhost⟩ := runs_cfg_host hrun
  have honce := runs_keeps (fun _ _ => answeredOnce_move) hrun (answeredOnce_acceptWord w _)
  refine ⟨u, hu, ?_, honce.ended, honce.running⟩
  rw [step_of_commandCut hp hh, cutCommand, hu, andThen_next, hostReset_eq, hcfg, hcfg₀, hhost, hhost₀]
  rfl

end Sys2Proof.Machine
end
